-- ==== Sys2Proof/Word.lean ====
section
/-!
DEFINITION. The bit-vector types of the block: the 32-bit bus word, the byte of a bus lane, the 24-bit bus address.
A W-bit register is held as its bus words (spec/10_state.md R48), so no type depends on W.
-/
namespace Sys2Proof

/-- A host bus word, 32 bits (R80, R87). -/
abbrev Word := BitVec 32

/-- A byte lane of a bus word, and a byte of the message buffer (R46, R83). -/
abbrev Byte := BitVec 8

/-- A byte address of the host bus, 24 bits (R80). -/
abbrev Addr := BitVec 24

end Sys2Proof
end

