-- ==== Sys2Proof/Syntax.lean ====
section
/-!
DEFINITION. The commands of the block, one constructor per row of spec/opcode_table.json (spec/30_encoding.md R113).
A command has no operand fields: its operands are the fixed registers and buffers of R114.
-/
namespace Sys2Proof

/-- The fourteen commands of R113. -/
inductive Instr where
  /-- NOP (R139). -/
  | nop
  /-- MODMUL (R152): modular product. -/
  | modmul
  /-- MONTMUL (R153): Montgomery product. -/
  | montmul
  /-- MODEXP (R154): modular exponentiation. -/
  | modexp
  /-- EGCD (R172): extended GCD. -/
  | egcd
  /-- LCM (R174). -/
  | lcm
  /-- RANDRANGE (R176): random in range. -/
  | randrange
  /-- CANDPRIME (R192): candidate generation. -/
  | candprime
  /-- MRTEST (R196): Miller–Rabin verdict. -/
  | mrtest
  /-- RANDPRIME (R198): random probable prime. -/
  | randprime
  /-- KEYGEN (R213): key generation. -/
  | keygen
  /-- KEYDIGITS (R215): key length in decimal digits. -/
  | keydigits
  /-- ENCRYPT (R231). -/
  | encrypt
  /-- DECRYPT (R232). -/
  | decrypt
  deriving DecidableEq, Repr

end Sys2Proof
end

