-- ==== Sys2Proof/Decode.lean ====
section
/-!
DEFINITION. The command word (spec/30_encoding.md): decoding, total on every 32-bit word (R111), and encoding.
A command is exactly one word (R116), written to CMD as one bus access, so a command has no byte sequence of its own.
-/
namespace Sys2Proof

/-- Why a word is the illegal command (R115). -/
inductive Illegal where
  /-- RSV ≠ 0, whatever OPC is (R112). -/
  | reservedBits
  /-- RSV = 0 and OPC in 0x0E to 0xFF (R115). -/
  | unassigned
  deriving DecidableEq, Repr

/-- The field OPC of a command word, bits [7:0] (R110). -/
def opcField (w : Word) : BitVec 8 := w.extractLsb' 0 8

/-- The field RSV of a command word, bits [31:8] (R110). -/
def rsvField (w : Word) : BitVec 24 := w.extractLsb' 8 24

/-- The opcode map of R113, read from opcode to command. -/
def opcodeInstr : Nat → Option Instr
  | 0x00 => some .nop
  | 0x01 => some .modmul
  | 0x02 => some .montmul
  | 0x03 => some .modexp
  | 0x04 => some .egcd
  | 0x05 => some .lcm
  | 0x06 => some .randrange
  | 0x07 => some .candprime
  | 0x08 => some .mrtest
  | 0x09 => some .randprime
  | 0x0A => some .keygen
  | 0x0B => some .keydigits
  | 0x0C => some .encrypt
  | 0x0D => some .decrypt
  | _ => none

/-- Decode a command word (R111): RSV is checked before OPC (R112). -/
def decode (w : Word) : Except Illegal Instr :=
  if rsvField w = 0#24 then
    match opcodeInstr (opcField w).toNat with
    | some i => .ok i
    | none => .error .unassigned
  else .error .reservedBits

/-- The command that an instruction word of spec/opcode_table.json, its bit 0 the least significant, decodes to:
the low `nbits` bits of `w`, with zeros above them, are the one word of the command. -/
def decodeTableWord (nbits w : Nat) : Option Instr :=
  match decode (BitVec.ofNat 32 (w % 2 ^ nbits)) with
  | .ok i => some i
  | .error _ => none

/-- The opcode map of R113, read from command to opcode. -/
def opcodeOf : Instr → BitVec 8
  | .nop => 0x00#8
  | .modmul => 0x01#8
  | .montmul => 0x02#8
  | .modexp => 0x03#8
  | .egcd => 0x04#8
  | .lcm => 0x05#8
  | .randrange => 0x06#8
  | .candprime => 0x07#8
  | .mrtest => 0x08#8
  | .randprime => 0x09#8
  | .keygen => 0x0A#8
  | .keydigits => 0x0B#8
  | .encrypt => 0x0C#8
  | .decrypt => 0x0D#8

/-- The command word of a command: RSV = 0 above its opcode (R110, R113). -/
def encode (i : Instr) : Word := 0#24 ++ opcodeOf i

/-! Each constructor's decoding, by the word R113 prints for it. -/

theorem decode_word_nop : decode 0x00000000#32 = .ok .nop := by decide
theorem decode_word_modmul : decode 0x00000001#32 = .ok .modmul := by decide
theorem decode_word_montmul : decode 0x00000002#32 = .ok .montmul := by decide
theorem decode_word_modexp : decode 0x00000003#32 = .ok .modexp := by decide
theorem decode_word_egcd : decode 0x00000004#32 = .ok .egcd := by decide
theorem decode_word_lcm : decode 0x00000005#32 = .ok .lcm := by decide
theorem decode_word_randrange : decode 0x00000006#32 = .ok .randrange := by decide
theorem decode_word_candprime : decode 0x00000007#32 = .ok .candprime := by decide
theorem decode_word_mrtest : decode 0x00000008#32 = .ok .mrtest := by decide
theorem decode_word_randprime : decode 0x00000009#32 = .ok .randprime := by decide
theorem decode_word_keygen : decode 0x0000000A#32 = .ok .keygen := by decide
theorem decode_word_keydigits : decode 0x0000000B#32 = .ok .keydigits := by decide
theorem decode_word_encrypt : decode 0x0000000C#32 = .ok .encrypt := by decide
theorem decode_word_decrypt : decode 0x0000000D#32 = .ok .decrypt := by decide

end Sys2Proof
end

