-- ==== Sys2Proof/Config.lean ====
section
/-!
DEFINITION. What a build of the block fixes: the OPEN parameters W and MAXLEN (spec/00_scope.md R7, R8), the constants
of the source (R9), and the one free value, the random draws (spec/10_state.md R50).
-/
namespace Sys2Proof

/-- The OPEN parameters of a build: `nw` is NW = W / 32 (R7), `maxLen` is MAXLEN (R8).
A state carries its build's parameters, so a statement about every state is a statement about every build (log 1). -/
structure Params where
  nw : Nat
  maxLen : Nat
  deriving DecidableEq, Repr

/-- The operand width W in bits (R7). -/
def Params.width (p : Params) : Nat := 32 * p.nw

namespace Config

/-- The reference configuration of the test vectors: W = 64, NW = 2, MAXLEN = 64 (R7, R8). -/
def reference : Params := ⟨2, 64⟩

/-- MR_ROUNDS (R9): the fixed trial count of the Miller–Rabin test. -/
def mrRounds : Nat := 20

/-- SMALL_PRIMES (R9): the 70 primes from 2 to 349, ascending (C8). -/
def smallPrimes : List Nat :=
  [2, 3, 5, 7, 11, 13, 17, 19, 23, 29, 31, 37, 41, 43, 47, 53, 59, 61, 67, 71] ++
  [73, 79, 83, 89, 97, 101, 103, 107, 109, 113, 127, 131, 137, 139, 149, 151, 157] ++
  [163, 167, 173, 179, 181, 191, 193, 197, 199, 211, 223, 227, 229, 233, 239, 241, 251] ++
  [257, 263, 269, 271, 277, 281, 283, 293, 307, 311, 313, 317, 331, 337, 347, 349]

/-- E_MIN (R9). -/
def eMin : Int := 3

/-- E_MAX = 2^16 + 2 (R9), the excluded upper end of the exponent range. -/
def eMax : Int := 65538

/-- RANGE_STEPS (R9). -/
def rangeSteps : Int := 100

/-- FREE VALUE (R50, U2, log 2): the raw value of the n-th draw that no outside source fixed. It has no body, so nothing
can be proved of it; `drawIn` (Machine/Ops.lean) reads it in the range of the Draw primitive that asked. -/
opaque freeDraw : Nat → Nat

end Config

end Sys2Proof
end

