-- ==== Sys2Proof/Machine/State.lean ====
section
/-!
DEFINITION. The state of the block, as spec/10_state.md R56 lists it, with the inputs it takes from outside (the model's
own field `env`), the reasons a step can stop, and the state after reset (spec/70_reset_and_hazards.md R281).
-/
namespace Sys2Proof.Machine

/-- The ten big registers of R30, each W bits wide (R43 to R45). -/
inductive BigReg where
  | opa | opb | opm | keyE | keyD | keyN | res0 | res1 | res2 | res3
  deriving DecidableEq, Repr

/-- The contents of the big registers: NW bus words each, word 0 the least significant (R48, R84). -/
structure BigRegs where
  opa : List Word
  opb : List Word
  opm : List Word
  keyE : List Word
  keyD : List Word
  keyN : List Word
  res0 : List Word
  res1 : List Word
  res2 : List Word
  res3 : List Word
  deriving DecidableEq, Repr

/-- MSG and CT: (bus byte address, byte) pairs, addresses strictly rising. A byte is listed exactly when it is marked
written (R56); an unlisted byte has no value, and reading it is the model's fault (U9, log 7). -/
abbrev Memory := List Host.Cell

/-- The position of a running command in its pseudocode, with its local variables (R49). Only KEYGEN has more than one
unbounded loop (R212). -/
inductive Phase where
  /-- In the command's first loop, or (for a command without loops) before its one step. -/
  | start
  /-- KEYGEN, searching for q; p is found (R212). -/
  | keygenQ (p : Int)
  /-- KEYGEN, searching for e; n = p · q and λ are computed (R211, R212). -/
  | keygenE (n lam : Int)
  deriving DecidableEq, Repr

/-- One write `x[target] <- v` of a command's pseudocode (R14, R133). -/
inductive PendingWrite where
  /-- A big register gets `enc_W v`. -/
  | big (r : BigReg) (v : Int)
  /-- KEYVALID gets the three bits. -/
  | keyValid (bits : BitVec 3)
  /-- CT[i] gets `enc_W v` and its words become written. -/
  | ct (i : Nat) (v : Int)
  /-- MSG[i] gets the byte and becomes written. -/
  | msg (i : Nat) (b : Byte)
  deriving DecidableEq, Repr

/-- The progress of the running command (R49): its rejection counter (R190), its position and local variables, and its
pending result writes (R130, R133). -/
structure Prog where
  rej : Nat
  phase : Phase
  pending : List PendingWrite
  deriving DecidableEq, Repr

/-- The engine: Idle or Busy(cmd, prog) (R49). STATUS.BUSY is 1 exactly when it is Busy (R36). -/
inductive Engine where
  | idle
  | busy (cmd : Word) (prog : Prog)
  deriving DecidableEq, Repr

/-- One host bus access (R80); `size` is its width in bytes, so that R81's wrong widths can be made
(log 14). -/
inductive Access where
  | read (addr : Addr) (size : Nat)
  | write (addr : Addr) (size : Nat) (data : Word)
  deriving DecidableEq, Repr

/-- What the bus answers an access: the word read, an acknowledged write, or an error response (R81). -/
inductive Response where
  | data (w : Word)
  | ack
  | busError
  deriving DecidableEq, Repr

/-- What happens next outside the engine, or the engine's turn (log 3). -/
inductive Event where
  /-- The host performs one bus access. -/
  | access (a : Access)
  /-- The host is in the loop POLL of R118: it reads STATUS until BUSY is 0 (log 4). -/
  | poll
  /-- The engine takes one step (R132). -/
  | engine
  /-- The hardware reset input is asserted (R280). -/
  | reset
  deriving DecidableEq, Repr

/-- The model's own part of the state: the inputs still to come, and what the host has seen. When `events` is empty the
engine moves. `draws` are the draws fixed from outside; after them a draw is free (log 2). -/
structure Env where
  events : List Event
  responses : List Response
  draws : List Nat
  drawCount : Nat
  deriving DecidableEq, Repr

/-- The state of the block (R56) and of its surroundings. -/
structure State where
  /-- The build's parameters (R7, R8); PARAM reads them (R34), nothing changes them. -/
  cfg : Params
  /-- CTRL.IRQ_EN (R35). -/
  irqEn : Bool
  /-- CTRL.LCM_TRUE (R35). -/
  lcmTrue : Bool
  /-- STATUS.DONE (R36). -/
  done : Bool
  /-- STATUS.ERR (R36). -/
  err : Bool
  /-- STATUS.WWB (R36). -/
  wwb : Bool
  /-- LASTCMD, what a read of CMD returns (R37). -/
  lastCmd : Word
  /-- ERRCODE bits [7:0] (R38). -/
  errCode : BitVec 8
  /-- ERRINFO bits [7:0] (R39). -/
  errInfo : BitVec 8
  /-- ITER_CAP (R40). -/
  iterCap : Word
  /-- MSGLEN (R41). -/
  msgLen : Word
  /-- KEYVALID bits [2:0]: bit 0 is E, bit 1 is D, bit 2 is N (R42). -/
  keyValid : BitVec 3
  /-- The ten big registers (R43 to R45). -/
  regs : BigRegs
  /-- MSG and CT with their written marks (R46, R47, R56). -/
  mem : Memory
  /-- The engine (R49); STATUS.BUSY is read from it. -/
  eng : Engine
  /-- The model's inputs and the host's record (not the spec's). -/
  env : Env
  deriving DecidableEq, Repr

/-- Why a step stops. -/
inductive Fault where
  /-- A MSG byte or CT word that no write since reset has touched was read, by a host read (R138) or by ENCRYPT or
  DECRYPT (R231, R232): `addr` is its bus byte address. The spec names this fault (U9). Safe: the hardware returns some
  value and goes on, the model stops. -/
  | unwrittenRead (addr : Nat)
  deriving DecidableEq, Repr

/-- Why an instruction is refused. -/
inductive Refusal where
  /-- An instruction without a meaning, raised by its arm of `exec` alone; no arm does. Safe: the model stops. -/
  | notModelled (mnemonic : String)
  deriving DecidableEq, Repr

/-- The outcome of a step of this machine. -/
abbrev Out := Host.Outcome State Fault Refusal

/-- All big registers 0 (R281). -/
def BigRegs.zero (nw : Nat) : BigRegs :=
  let z := List.replicate nw 0#32
  ⟨z, z, z, z, z, z, z, z, z, z⟩

/-- The surroundings with no input fixed and nothing seen (log 2, log 3, log 9). -/
def Env.empty : Env := ⟨[], [], [], 0⟩

/-- The state after a hardware reset of the build `p` (R281, R283), its surroundings being `env`. -/
def State.resetOf (p : Params) (env : Env) : State where
  cfg := p
  irqEn := false
  lcmTrue := false
  done := false
  err := false
  wwb := false
  lastCmd := 0#32
  errCode := 0#8
  errInfo := 0#8
  iterCap := 0#32
  msgLen := 0#32
  keyValid := 0#3
  regs := BigRegs.zero p.nw
  mem := []
  eng := .idle
  env := env

/-- The machine right after reset (R281), in the reference build (log 1). -/
def State.reset : State := State.resetOf Config.reference Env.empty

end Sys2Proof.Machine
end

