-- ==== Sys2Proof/Machine/Operands.lean ====
section
/-!
DEFINITION. Operand forms: the integer value of a big register (spec/00_scope.md R11), writing one (R12), the integer
division primitives (R13), the bus-word view of a register (spec/10_state.md R48), and where each register and buffer
element lies on the bus (R30, R46, R47).
-/
namespace Sys2Proof.Machine

/-! ## Integers in bus words -/

/-- The unsigned value of words in little-endian word order (R84). -/
def uval : List Word → Nat
  | [] => 0
  | w :: ws => w.toNat + 2 ^ 32 * uval ws

/-- `sint_W`: the two's-complement value of a register of `ws.length` words (R11). -/
def sint (ws : List Word) : Int :=
  if 2 * uval ws < 2 ^ (32 * ws.length) then (uval ws : Int) else (uval ws : Int) - 2 ^ (32 * ws.length)

/-- The `n` words of a natural number's low 32·n bits (R84). -/
def wordsOf : Nat → Nat → List Word
  | 0, _ => []
  | n + 1, v => BitVec.ofNat 32 v :: wordsOf n (v / 2 ^ 32)

/-- `enc_W`: the pattern `v mod 2^W` in NW words (R12). -/
def enc (nw : Nat) (v : Int) : List Word := wordsOf nw (v % 2 ^ (32 * nw)).toNat

/-- `fits_W` (R12). -/
def fits (w : Nat) (v : Int) : Bool := decide (-2 ^ (w - 1) ≤ v) && decide (v ≤ 2 ^ (w - 1) - 1)

/-! ## Division primitives (R13); callers check the divisor first -/

/-- Quotient truncated toward zero. -/
def tdiv (a b : Int) : Int := Int.tdiv a b

/-- Remainder with the sign of the dividend. -/
def tmod (a b : Int) : Int := a - b * tdiv a b

/-- Euclidean residue in [0, m), for m > 0. -/
def emod (a m : Int) : Int := if 0 ≤ tmod a m then tmod a m else tmod a m + m

/-! ## The big registers -/

/-- The words of a big register. -/
def BigRegs.get (g : BigRegs) : BigReg → List Word
  | .opa => g.opa
  | .opb => g.opb
  | .opm => g.opm
  | .keyE => g.keyE
  | .keyD => g.keyD
  | .keyN => g.keyN
  | .res0 => g.res0
  | .res1 => g.res1
  | .res2 => g.res2
  | .res3 => g.res3

/-- Replace the words of a big register. -/
def BigRegs.set (g : BigRegs) (r : BigReg) (ws : List Word) : BigRegs :=
  match r with
  | .opa => { g with opa := ws }
  | .opb => { g with opb := ws }
  | .opm => { g with opm := ws }
  | .keyE => { g with keyE := ws }
  | .keyD => { g with keyD := ws }
  | .keyN => { g with keyN := ws }
  | .res0 => { g with res0 := ws }
  | .res1 => { g with res1 := ws }
  | .res2 => { g with res2 := ws }
  | .res3 => { g with res3 := ws }

/-- The words a big register holds. -/
def State.big (s : State) (r : BigReg) : List Word := s.regs.get r

/-- Replace the words of a big register; every other part of the state stays. -/
def State.setBig (s : State) (r : BigReg) (ws : List Word) : State := { s with regs := s.regs.set r ws }

/-- `x[NAME]`: the signed value of a big register (R11, R14). -/
def State.x (s : State) (r : BigReg) : Int := sint (s.big r)

/-- `x[NAME] <- v`: a big register gets `enc_W v` (R12). -/
def State.setX (s : State) (r : BigReg) (v : Int) : State := s.setBig r (enc s.cfg.nw v)

/-- Word j of a big register, bits [32j+31:32j] (R48). -/
def State.bigWord (s : State) (r : BigReg) (j : Nat) : Word := (s.big r).getD j 0#32

/-- A host write of word j: exactly those 32 bits are replaced (R48). -/
def State.setBigWord (s : State) (r : BigReg) (j : Nat) (v : Word) : State := s.setBig r ((s.big r).set j v)

/-! ## Byte lanes (R83) -/

/-- Byte lane k of a word, bits [8k+7:8k]. -/
def lane (w : Word) (k : Nat) : Byte := w.extractLsb' (8 * k) 8

/-- The word with the given bytes in lanes 0, 1, 2 and 3. -/
def ofLanes (b0 b1 b2 b3 : Byte) : Word := b3 ++ b2 ++ b1 ++ b0

/-! ## Addresses (R30, R46, R47, R117) -/

/-- The base address of a big register's window (R30). -/
def bigBase : BigReg → Nat
  | .opa => 0x000400
  | .opb => 0x000800
  | .opm => 0x000C00
  | .keyE => 0x001000
  | .keyD => 0x001400
  | .keyN => 0x001800
  | .res0 => 0x001C00
  | .res1 => 0x002000
  | .res2 => 0x002400
  | .res3 => 0x002800

/-- `REG.w[j]` (R48, R117). -/
def bigWordAddr (r : BigReg) (j : Nat) : Nat := bigBase r + 4 * j

/-- The bus address of the byte MSG[i] (R46). -/
def msgAddr (i : Nat) : Nat := 0x004000 + i

/-- `CT[i].w[j]`: the bus address of word j of CT[i] (R47, R86). -/
def ctWordAddr (p : Params) (i j : Nat) : Nat := 0x100000 + 4 * (i * p.nw + j)

end Sys2Proof.Machine
end

