-- ==== Sys2Proof/Machine/Flags.lean ====
section
/-!
DEFINITION. Every flag of the block (spec/10_state.md R53): the STATUS word and its W1C write, the KEYVALID bits, the
CTRL bits, the interrupt output (spec/60_exceptions.md R259), and the error codes (R251).
-/
namespace Sys2Proof.Machine

/-- The error codes' names (R251). -/
inductive ErrorKind where
  | none
  | illegalCommand
  /-- Never raised by the block (R5, R251). -/
  | invalidKeyFormat
  | missingKeyMaterial
  | invalidModulus
  | negativeExponent
  | invalidLength
  | arithmeticDomainError
  | generationTimeout
  deriving DecidableEq, Repr

/-- The ERRCODE value of an error (R251). -/
def ErrorKind.code : ErrorKind → BitVec 8
  | .none => 0#8
  | .illegalCommand => 1#8
  | .invalidKeyFormat => 2#8
  | .missingKeyMaterial => 3#8
  | .invalidModulus => 4#8
  | .negativeExponent => 5#8
  | .invalidLength => 6#8
  | .arithmeticDomainError => 7#8
  | .generationTimeout => 8#8

/-- STATUS.BUSY: 1 exactly when the engine is Busy (R36, R49). -/
def State.busy (s : State) : Bool :=
  match s.eng with
  | .idle => false
  | .busy _ _ => true

/-- The word a STATUS read returns: BUSY, DONE, ERR, WWB in bits 0 to 3, bits [31:4] 0 (R32, R36). -/
def State.statusWord (s : State) : Word :=
  0#28 ++ BitVec.ofBool s.wwb ++ BitVec.ofBool s.err ++ BitVec.ofBool s.done ++ BitVec.ofBool s.busy

/-- The word a CTRL read returns (R32, R35). -/
def State.ctrlWord (s : State) : Word := 0#30 ++ BitVec.ofBool s.lcmTrue ++ BitVec.ofBool s.irqEn

/-- The word a KEYVALID read returns (R32, R42). -/
def State.keyValidWord (s : State) : Word := 0#29 ++ s.keyValid

/-- A host write to STATUS: each of bits 1, 2, 3 written 1 is cleared; bit 0 and the reserved bits are ignored (R137). -/
def State.ackStatus (s : State) (v : Word) : State :=
  { s with
    done := s.done && !v.getLsbD 1
    err := s.err && !v.getLsbD 2
    wwb := s.wwb && !v.getLsbD 3 }

/-- A host write to CTRL: bit 0 is IRQ_EN, bit 1 is LCM_TRUE, the rest is ignored (R35, R137). -/
def State.writeCtrl (s : State) (v : Word) : State := { s with irqEn := v.getLsbD 0, lcmTrue := v.getLsbD 1 }

/-- A host write to KEYVALID stores bits [2:0] (R42). -/
def State.writeKeyValid (s : State) (v : Word) : State := { s with keyValid := v.extractLsb' 0 3 }

/-- STATUS.WWB ← 1, for a write while Busy (R135). -/
def State.setWwb (s : State) : State := { s with wwb := true }

/-- The KEYVALID bit of a key register, as a mask (R42); the other registers have none. -/
def keyBit : BigReg → BitVec 3
  | .keyE => 1#3
  | .keyD => 2#3
  | .keyN => 4#3
  | .opa => 0#3
  | .opb => 0#3
  | .opm => 0#3
  | .res0 => 0#3
  | .res1 => 0#3
  | .res2 => 0#3
  | .res3 => 0#3

/-- The KEYVALID effect of a host write to a word of a big register (R44). -/
def State.markKey (s : State) (r : BigReg) : State := { s with keyValid := s.keyValid ||| keyBit r }

/-- The required KEYVALID bits that are 0 (R230). -/
def missingKeys (need kv : BitVec 3) : BitVec 3 := need &&& ~~~kv

/-- The interrupt output: IRQ_EN AND DONE (R259). -/
def State.irq (s : State) : Bool := s.irqEn && s.done

end Sys2Proof.Machine
end

