-- ==== Sys2Proof/Machine/Ops.lean ====
section
/-!
DEFINITION. The named operations of the machine: memory with written marks (spec/10_state.md R46, R47, R56), the random
draws (R50), the life cycle of a command (spec/40_control.md R130 to R134) with error completion as the one shared way an
error is taken (spec/60_exceptions.md R250, R254, R262), rejections (spec/43_primality.md R190) and the hardware reset
(spec/70_reset_and_hazards.md R280).
-/
namespace Sys2Proof.Machine

/-! ## Memory: one byte, one word, one big value -/

/-- The canonical form: addresses strictly rising. No listed entry can equal what an unlisted byte reads as, since an
unlisted byte has no value (U9). -/
abbrev Memory.wf (m : Memory) : Prop := m.Pairwise (fun c d => c.1 < d.1)

/-- The byte at a bus address, if it is marked written. -/
def Memory.read : Memory → Nat → Option Byte
  | [], _ => none
  | c :: m, a => if c.1 = a then some c.2 else Memory.read m a

/-- Write one byte and mark it written; the form stays canonical. -/
def Memory.write : Memory → Nat → Byte → Memory
  | [], a, b => [(a, b)]
  | c :: m, a, b =>
    if a < c.1 then (a, b) :: c :: m
    else if a = c.1 then (a, b) :: m
    else c :: Memory.write m a b

/-- Read one byte; an unwritten one is the model's fault (U9). -/
def Memory.fetch (m : Memory) (a : Nat) : Except Fault Byte :=
  match m.read a with
  | some b => .ok b
  | none => .error (.unwrittenRead a)

/-- Read the bus word at `a`, little-endian lanes (R83, R85, R86); it faults at its first unwritten byte. -/
def Memory.read32 (m : Memory) (a : Nat) : Except Fault Word :=
  match m.fetch a with
  | .error f => .error f
  | .ok b0 =>
    match m.fetch (a + 1) with
    | .error f => .error f
    | .ok b1 =>
      match m.fetch (a + 2) with
      | .error f => .error f
      | .ok b2 =>
        match m.fetch (a + 3) with
        | .error f => .error f
        | .ok b3 => .ok (ofLanes b0 b1 b2 b3)

/-- Write the bus word at `a`: its four byte lanes, each marked written (R83, R137). -/
def Memory.write32 (m : Memory) (a : Nat) (w : Word) : Memory :=
  (((m.write a (lane w 0)).write (a + 1) (lane w 1)).write (a + 2) (lane w 2)).write (a + 3) (lane w 3)

/-- Read `n` consecutive bus words. -/
def Memory.readWords (m : Memory) (a : Nat) : Nat → Except Fault (List Word)
  | 0 => .ok []
  | n + 1 =>
    match m.read32 a with
    | .error f => .error f
    | .ok w =>
      match Memory.readWords m (a + 4) n with
      | .error f => .error f
      | .ok ws => .ok (w :: ws)

/-- Write consecutive bus words. -/
def Memory.writeWords (m : Memory) (a : Nat) : List Word → Memory
  | [] => m
  | w :: ws => Memory.writeWords (m.write32 a w) (a + 4) ws

/-! ## The buffers (R46, R47) -/

/-- MSG[i], or the fault of an unwritten byte (R231, U9). -/
def State.msgByte (s : State) (i : Nat) : Except Fault Byte := s.mem.fetch (msgAddr i)

/-- The words of CT[i], or the fault of an unwritten one (R232, U9). -/
def State.ctWords (s : State) (i : Nat) : Except Fault (List Word) :=
  s.mem.readWords (ctWordAddr s.cfg i 0) s.cfg.nw

/-- Set MSG[i] and mark it written (R133). -/
def State.setMsg (s : State) (i : Nat) (b : Byte) : State := { s with mem := s.mem.write (msgAddr i) b }

/-- CT[i] gets `enc_W v` and its words are marked written (R133). -/
def State.setCt (s : State) (i : Nat) (v : Int) : State :=
  { s with mem := s.mem.writeWords (ctWordAddr s.cfg i 0) (enc s.cfg.nw v) }

/-! ## Draws (R50): every value of the range can be drawn, and nothing else -/

/-- A raw value read in the range lo..hi: itself where it lies there, else reduced into it (log 2). -/
def drawIn (lo hi raw : Nat) : Nat := if lo ≤ raw ∧ raw ≤ hi then raw else lo + raw % (hi + 1 - lo)

/-- The next raw value: one fixed from outside, else a free one (log 2). -/
def Env.nextRaw (e : Env) : Nat :=
  match e.draws with
  | d :: _ => d
  | [] => Config.freeDraw e.drawCount

/-- Take one draw from the range lo..hi. -/
def Env.draw (e : Env) (lo hi : Nat) : Nat × Env :=
  (drawIn lo hi e.nextRaw, { e with draws := e.draws.tail, drawCount := e.drawCount + 1 })

/-- `DrawBits(b)`: an integer of exactly b bits, for b ≥ 1 (R50). -/
def Env.drawBits (e : Env) (b : Nat) : Nat × Env := e.draw (2 ^ (b - 1)) (2 ^ b - 1)

/-- `DrawRange(lo, hi)` (R50). -/
def Env.drawRange (e : Env) (lo hi : Nat) : Nat × Env := e.draw lo hi

/-- `DrawPercent()`: an integer in 0..99 (R50). -/
def Env.drawPercent (e : Env) : Nat × Env := e.draw 0 99

/-! ## The life cycle of a command (R130 to R134) -/

/-- The progress of a command that has just been issued (R130). -/
def Prog.start : Prog := ⟨0, .start, []⟩

/-- Command issue, for an Idle engine (R130). -/
def State.issue (s : State) (v : Word) : State :=
  { s with
    lastCmd := v
    done := false
    err := false
    errCode := 0#8
    errInfo := 0#8
    eng := .busy v Prog.start }

/-- The progress of the running command; an Idle engine reads as at the start (log 8). -/
def State.prog (s : State) : Prog :=
  match s.eng with
  | .idle => Prog.start
  | .busy _ p => p

/-- The word of the running command (R49); an Idle engine reads as running LASTCMD (log 8). -/
def State.runCmd (s : State) : Word :=
  match s.eng with
  | .idle => s.lastCmd
  | .busy c _ => c

/-- One pending write reaches its target (R133). -/
def State.commitOne (s : State) : PendingWrite → State
  | .big r v => s.setX r v
  | .keyValid bits => { s with keyValid := bits }
  | .ct i v => s.setCt i v
  | .msg i b => s.setMsg i b

/-- All pending writes reach their targets, in the pseudocode's order, so that the last write to a target wins (R133). -/
def State.commit (s : State) (ws : List PendingWrite) : State := ws.foldl State.commitOne s

/-- Successful completion, one atomic step (R133); ERR stays (log 16). -/
def State.complete (s : State) (ws : List PendingWrite) : State :=
  { s.commit ws with done := true, errCode := 0#8, errInfo := 0#8, eng := .idle }

/-- Error completion, one atomic step: pending writes are discarded (R134). It is how every error is taken (R262). -/
def State.raise (s : State) (e : ErrorKind) (info : BitVec 8) : State :=
  { s with errCode := e.code, errInfo := info, err := true, done := true, eng := .idle }

/-- The running command stays Busy at another position or count (R132); its pending writes stay. -/
def State.goOn (s : State) (phase : Phase) (rej : Nat) : State :=
  { s with eng := .busy s.runCmd ⟨rej, phase, s.prog.pending⟩ }

/-- What a command's pseudocode comes to in one engine step. -/
inductive Answer where
  /-- `return`, with the writes made (R133). -/
  | ret (writes : List PendingWrite)
  /-- `raise E(info)` (R134, R254). -/
  | raise (e : ErrorKind) (info : BitVec 8)
  /-- Neither yet: the next iteration of an unbounded loop (R132). -/
  | again (phase : Phase) (rej : Nat)
  deriving DecidableEq, Repr

/-- What an answer does to the state. -/
def State.finish (s : State) : Answer → State
  | .ret ws => s.complete (s.prog.pending ++ ws)
  | .raise e info => s.raise e info
  | .again phase rej => s.goOn phase rej

/-- `Reject(loop)` (R190): the loop goes on in `phase`, unless this rejection reaches a nonzero ITER_CAP. -/
def State.reject (s : State) (loop : BitVec 8) (phase : Phase) : Answer :=
  if s.iterCap ≠ 0#32 ∧ s.iterCap.toNat ≤ s.prog.rej + 1 then .raise .generationTimeout loop
  else .again phase (s.prog.rej + 1)

/-- The illegal command's completion (R115, R252). -/
def State.illegal (s : State) : Illegal → State
  | .unassigned => s.raise .illegalCommand 1#8
  | .reservedBits => s.raise .illegalCommand 2#8

/-- The hardware reset (R280): the state of R281 and R283 for this build. A running command is abandoned (R284), and the
generator is seeded anew: later draws are free, as all are (R282, log 13). -/
def State.hardReset (s : State) : State := State.resetOf s.cfg s.env

/-- The surroundings after some draws. -/
def State.withEnv (s : State) (e : Env) : State := { s with env := e }

end Sys2Proof.Machine
end

