-- ==== Sys2Proof/Machine/Bus.lean ====
section
/-!
DEFINITION. The host bus (spec/20_memory.md, spec/40_control.md R135 to R138): the address map of spec/10_state.md R30,
loads, stores, bus errors, and the host's polling loop (spec/30_encoding.md R118).
-/
namespace Sys2Proof.Machine

/-- A location of the address map (R30); `j` is a word of a big register, `w` a word of MSG, `(i, j)` a word of CT. -/
inductive Loc where
  | id
  | param
  | ctrl
  | status
  | cmd
  | errCode
  | errInfo
  | iterCap
  | msgLen
  | keyValid
  | big (r : BigReg) (j : Nat)
  | msg (w : Nat)
  | ct (i j : Nat)
  | reserved
  deriving DecidableEq, Repr

/-- The control registers by word index (R30). -/
def controlLoc : Nat → Loc
  | 0 => .id
  | 1 => .param
  | 2 => .ctrl
  | 3 => .status
  | 4 => .cmd
  | 5 => .errCode
  | 6 => .errInfo
  | 7 => .iterCap
  | 8 => .msgLen
  | 9 => .keyValid
  | _ => .reserved

/-- Word j of the big register in the k-th window of 0x400 bytes (R30, R48); slots at or beyond NW are reserved (R32). -/
def bigLoc (p : Params) (k j : Nat) : Loc :=
  if j < p.nw then
    match k with
    | 1 => .big .opa j
    | 2 => .big .opb j
    | 3 => .big .opm j
    | 4 => .big .keyE j
    | 5 => .big .keyD j
    | 6 => .big .keyN j
    | 7 => .big .res0 j
    | 8 => .big .res1 j
    | 9 => .big .res2 j
    | 10 => .big .res3 j
    | _ => .reserved
  else .reserved

/-- The MSG word at an offset in the MSG window; words at or beyond MAXLEN are reserved (R32, R46). -/
def msgLoc (p : Params) (off : Nat) : Loc := if off < p.maxLen then .msg (off / 4) else .reserved

/-- The CT word with index k in the CT window; words at or beyond MAXLEN · NW are reserved (R32, R47, R86). -/
def ctLoc (p : Params) (k : Nat) : Loc := if k < p.maxLen * p.nw then .ct (k / p.nw) (k % p.nw) else .reserved

/-- The location at an aligned byte address (R30, R32). -/
def locate (p : Params) (a : Nat) : Loc :=
  if a < 0x000400 then controlLoc (a / 4)
  else if a < 0x002C00 then bigLoc p (a / 0x400) (a % 0x400 / 4)
  else if a < 0x004000 then .reserved
  else if a < 0x008000 then msgLoc p (a - 0x004000)
  else if a < 0x100000 then .reserved
  else if a < 0x200000 then ctLoc p ((a - 0x100000) / 4)
  else .reserved

/-- ID reads "RSA1" (R33). -/
def idWord : Word := 0x52534131#32

/-- PARAM: MAXLEN in bits [31:16], NW in bits [15:0] (R34). -/
def paramWord (p : Params) : Word := BitVec.ofNat 16 p.maxLen ++ BitVec.ofNat 16 p.nw

/-- What a load returns, by location (R138); it has no side effect (R88). -/
def State.readLoc (s : State) : Loc → Except Fault Word
  | .id => .ok idWord
  | .param => .ok (paramWord s.cfg)
  | .ctrl => .ok s.ctrlWord
  | .status => .ok s.statusWord
  | .cmd => .ok s.lastCmd
  | .errCode => .ok (s.errCode.setWidth 32)
  | .errInfo => .ok (s.errInfo.setWidth 32)
  | .iterCap => .ok s.iterCap
  | .msgLen => .ok s.msgLen
  | .keyValid => .ok s.keyValidWord
  | .big r j => .ok (s.bigWord r j)
  | .msg w => s.mem.read32 (msgAddr (4 * w))
  | .ct i j => s.mem.read32 (ctWordAddr s.cfg i j)
  | .reserved => .ok 0#32

/-- Which big registers a host write reaches (R43 to R45). -/
def hostWritable : BigReg → Bool
  | .opa => true
  | .opb => true
  | .opm => true
  | .keyE => true
  | .keyD => true
  | .keyN => true
  | .res0 => false
  | .res1 => false
  | .res2 => false
  | .res3 => false

/-- What a store does, by location, while the engine is Idle (R137). -/
def State.writeLoc (s : State) (v : Word) : Loc → State
  | .id => s
  | .param => s
  | .ctrl => s.writeCtrl v
  | .status => s.ackStatus v
  | .cmd => s.issue v
  | .errCode => s
  | .errInfo => s
  | .iterCap => { s with iterCap := v }
  | .msgLen => { s with msgLen := v }
  | .keyValid => s.writeKeyValid v
  | .big r j => if hostWritable r then (s.setBigWord r j v).markKey r else s
  | .msg w => { s with mem := s.mem.write32 (msgAddr (4 * w)) v }
  | .ct i j => { s with mem := s.mem.write32 (ctWordAddr s.cfg i j) v }
  | .reserved => s

/-- A store, with the busy rule: while Busy only STATUS takes effect, and any other write only sets WWB (R131, R135). -/
def State.store (s : State) (a : Nat) (v : Word) : State :=
  if s.busy then
    if locate s.cfg a = .status then s.ackStatus v else s.setWwb
  else s.writeLoc v (locate s.cfg a)

/-- The only legal access: 32 bits wide, at an address that is a multiple of 4 (R80, R81). -/
def legalAccess (addr : Addr) (size : Nat) : Bool := decide (size = 4) && decide (addr.toNat % 4 = 0)

/-- The bus answers the host. -/
def State.respond (s : State) (r : Response) : State :=
  { s with env := { s.env with responses := r :: s.env.responses } }

/-- One host bus access: a bus error changes nothing in the block (R81, R258). -/
def busAccess (s : State) : Access → Out
  | .read addr size =>
    if legalAccess addr size then
      match s.readLoc (locate s.cfg addr.toNat) with
      | .error f => .fault f
      | .ok w => .next (s.respond (.data w))
    else .next (s.respond .busError)
  | .write addr size v =>
    if legalAccess addr size then .next ((s.store addr.toNat v).respond .ack)
    else .next (s.respond .busError)

/-- Replace the events still to come. -/
def State.withEvents (s : State) (es : List Event) : State := { s with env := { s.env with events := es } }

/-- One turn of the loop POLL (R118): read STATUS; while BUSY is 1 the host polls again, after a turn of the engine
(log 4). -/
def pollStatus (s : State) : Out :=
  let t := s.respond (.data s.statusWord)
  if s.busy then .next (t.withEvents (.engine :: .poll :: s.env.events)) else .next t

end Sys2Proof.Machine
end

