-- ==== Sys2Proof/Machine/ModArith.lean ====
section
/-!
DEFINITION. The modular multiplier and the exponentiator (spec/41_modarith.md): ModPow (R150), CheckModulus (R151),
MODMUL (R152), MONTMUL (R153) and MODEXP (R154).
-/
namespace Sys2Proof.Machine

/-- The loop of ModPow (R150). `fuel` bounds the iterations; one per bit of the exponent is enough (log 10). -/
def modPowLoop (m : Int) : Nat → Nat → Int → Int → Int
  | 0, _, _, r => r
  | fuel + 1, exp, b, r =>
    if exp = 0 then r
    else modPowLoop m fuel (exp / 2) (emod (b * b) m) (if exp % 2 = 1 then emod (r * b) m else r)

/-- `ModPow(base, exp, m)` for exp ≥ 0 and m > 0 (R150). -/
def modPow (base : Int) (exp : Nat) (m : Int) : Int :=
  modPowLoop m (exp.log2 + 1) exp (emod base m) (emod 1 m)

/-- The inverse of 2^w modulo an odd m > 0, in [0, m) (R153): 2 · ((m + 1) / 2) = m + 1, so (m + 1) / 2 inverts 2, and
its w-th power inverts 2^w (log 11). -/
def montInverse (w : Nat) (m : Int) : Int := modPow (tdiv (m + 1) 2) w m

/-- MODMUL's pseudocode (R152), with CheckModulus (R151). -/
def modmulBody (a b m : Int) : Answer :=
  if m ≤ 0 then .raise .invalidModulus 1#8
  else .ret [.big .res0 (emod (a * b) m)]

/-- MONTMUL's pseudocode (R153); the radix is 2^w. -/
def montmulBody (w : Nat) (a b m : Int) : Answer :=
  if m ≤ 0 then .raise .invalidModulus 1#8
  else if tmod m 2 = 0 then .raise .invalidModulus 2#8
  else .ret [.big .res0 (emod (a * b * montInverse w m) m)]

/-- MODEXP's pseudocode (R154). -/
def modexpBody (base exp m : Int) : Answer :=
  if m ≤ 0 then .raise .invalidModulus 1#8
  else if exp < 0 then .raise .negativeExponent 0#8
  else .ret [.big .res0 (modPow base exp.toNat m)]

/-- MODMUL (R152). -/
def execModmul (s : State) : Out := .next (s.finish (modmulBody (s.x .opa) (s.x .opb) (s.x .opm)))

/-- MONTMUL (R153). -/
def execMontmul (s : State) : Out := .next (s.finish (montmulBody s.cfg.width (s.x .opa) (s.x .opb) (s.x .opm)))

/-- MODEXP (R154). -/
def execModexp (s : State) : Out := .next (s.finish (modexpBody (s.x .opa) (s.x .opb) (s.x .opm)))

end Sys2Proof.Machine
end

