-- ==== Sys2Proof/Machine/Cipher.lean ====
section
/-!
DEFINITION. The cipher datapath (spec/45_cipher.md): CipherChecks (R230), ENCRYPT (R231) and DECRYPT (R232).
-/
namespace Sys2Proof.Machine

/-- `CipherChecks(X)` (R230) for the key register `key`: an error with its sub-cause, or (L, n, k). -/
def cipherChecks (s : State) (key : BigReg) : Except (ErrorKind × BitVec 8) (Nat × Int × Nat) :=
  let missing := missingKeys (keyBit key ||| keyBit .keyN) s.keyValid
  if missing ≠ 0#3 then .error (.missingKeyMaterial, missing.setWidth 8)
  else if s.cfg.maxLen < s.msgLen.toNat then .error (.invalidLength, 3#8)
  else if s.x .keyN ≤ 0 then .error (.invalidModulus, 1#8)
  else if s.x key < 0 then .error (.negativeExponent, 0#8)
  else .ok (s.msgLen.toNat, s.x .keyN, (s.x key).toNat)

/-- The writes CT[i] ← ModPow(MSG[i], e, n) for `count` elements from index i on (R231); a byte never written faults. -/
def encryptWrites (s : State) (n : Int) (e : Nat) : Nat → Nat → Except Fault (List PendingWrite)
  | 0, _ => .ok []
  | count + 1, i =>
    match s.msgByte i with
    | .error f => .error f
    | .ok m =>
      match encryptWrites s n e count (i + 1) with
      | .error f => .error f
      | .ok ws => .ok (.ct i (modPow m.toNat e n) :: ws)

/-- The writes MSG[i] ← ModPow(CT[i], d, n) mod 256 for `count` elements from index i on (R232). -/
def decryptWrites (s : State) (n : Int) (d : Nat) : Nat → Nat → Except Fault (List PendingWrite)
  | 0, _ => .ok []
  | count + 1, i =>
    match s.ctWords i with
    | .error f => .error f
    | .ok c =>
      match decryptWrites s n d count (i + 1) with
      | .error f => .error f
      | .ok ws => .ok (.msg i (BitVec.ofInt 8 (modPow (sint c) d n)) :: ws)

/-- A cipher command: its checks, then its elements, then completion. -/
def cipherRun (s : State) (key : BigReg)
    (writes : Int → Nat → Nat → Nat → Except Fault (List PendingWrite)) : Out :=
  match cipherChecks s key with
  | .error (e, info) => .next (s.finish (.raise e info))
  | .ok (len, n, k) =>
    match writes n k len 0 with
    | .error f => .fault f
    | .ok ws => .next (s.finish (.ret ws))

/-- ENCRYPT (R231). -/
def execEncrypt (s : State) : Out := cipherRun s .keyE (encryptWrites s)

/-- DECRYPT (R232). -/
def execDecrypt (s : State) : Out := cipherRun s .keyD (decryptWrites s)

end Sys2Proof.Machine
end

