-- ==== Sys2Proof/Machine/Control.lean ====
section
/-!
DEFINITION. NOP (spec/40_control.md R139).
-/
namespace Sys2Proof.Machine

/-- NOP: `return` (R139). -/
def execNop (s : State) : Out := .next (s.finish (.ret []))

end Sys2Proof.Machine
end

