-- ==== Sys2Proof/Machine/NumTheory.lean ====
section
/-!
DEFINITION. The extended-GCD unit (spec/42_numtheory.md): ExtGcdRaw (R170), ExtGcd (R171), EGCD (R172), Lcm (R173),
LCM (R174), RandInRange (R175) and RANDRANGE (R176).
-/
namespace Sys2Proof.Machine

/-- The loop of ExtGcdRaw (R170). `fuel` bounds the iterations: |r| falls at each, so |b| + 1 is enough (log 10). -/
def extGcdLoop : Nat → Int → Int → Int → Int → Int → Int → Int × Int × Int
  | 0, oldR, _, oldS, _, oldT, _ => (oldR, oldS, oldT)
  | fuel + 1, oldR, r, oldS, s, oldT, t =>
    if r = 0 then (oldR, oldS, oldT)
    else
      let q := tdiv oldR r
      extGcdLoop fuel r (oldR - q * r) s (oldS - q * s) t (oldT - q * t)

/-- `ExtGcdRaw(a, b)` (R170). -/
def extGcdRaw (a b : Int) : Int × Int × Int := extGcdLoop (b.natAbs + 1) a b 1 0 0 1

/-- `ExtGcd(a, b)` (R171); `none` is its `raise ARITHMETIC_DOMAIN_ERROR(1)`. -/
def extGcd (a b : Int) : Option (Int × Int × Int) :=
  if a = 0 ∧ b = 0 then none
  else
    match extGcdRaw a b with
    | (g, x, y) => if g < 0 then some (-g, -x, -y) else some (g, x, y)

/-- `Lcm(a, b)` in the mode of CTRL.LCM_TRUE (R173); `none` is `raise ARITHMETIC_DOMAIN_ERROR(1)`. -/
def lcmValue (lcmTrue : Bool) (a b : Int) : Option Int :=
  if lcmTrue then
    match extGcd a b with
    | none => none
    | some (g, _, _) => some (tdiv |a * b| g)
  else some |a * b|

/-- `RandInRange(min, max)` for the drawn k (R175): the product is formed before the division. -/
def randInRange (min max : Int) (k : Nat) : Int := tdiv ((max - min) * k) Config.rangeSteps + min

/-- EGCD's pseudocode (R172) for registers of w bits. -/
def egcdBody (w : Nat) (a b : Int) : Answer :=
  match extGcd a b with
  | none => .raise .arithmeticDomainError 1#8
  | some (g, x, y) =>
    if fits w g && fits w x && fits w y then .ret [.big .res0 g, .big .res1 x, .big .res2 y]
    else .raise .arithmeticDomainError 2#8

/-- LCM's pseudocode (R174) for registers of w bits. -/
def lcmBody (w : Nat) (lcmTrue : Bool) (a b : Int) : Answer :=
  match lcmValue lcmTrue a b with
  | none => .raise .arithmeticDomainError 1#8
  | some v => if fits w v then .ret [.big .res0 v] else .raise .arithmeticDomainError 2#8

/-- RANDRANGE's pseudocode (R176) for the drawn k. -/
def randrangeBody (min max : Int) (k : Nat) : Answer := .ret [.big .res0 (randInRange min max k)]

/-- EGCD (R172). -/
def execEgcd (s : State) : Out := .next (s.finish (egcdBody s.cfg.width (s.x .opa) (s.x .opb)))

/-- LCM (R174). -/
def execLcm (s : State) : Out := .next (s.finish (lcmBody s.cfg.width s.lcmTrue (s.x .opa) (s.x .opb)))

/-- RANDRANGE (R176): one DrawPercent. -/
def execRandrange (s : State) : Out :=
  .next ((s.withEnv s.env.drawPercent.2).finish (randrangeBody (s.x .opa) (s.x .opb) s.env.drawPercent.1))

end Sys2Proof.Machine
end

