-- ==== Sys2Proof/Machine/Primality.lean ====
section
/-!
DEFINITION. The primality engine (spec/43_primality.md): CheckBits (R199), the candidate filter (R191), CANDPRIME (R192),
StrongProbe (R193), IsProbablyPrime (R194), MRTEST (R196), one iteration of RandomPrime (R197) and RANDPRIME (R198).
One engine step is one iteration of an unbounded loop (R132, log 5).
-/
namespace Sys2Proof.Machine

/-- `CheckBits(b, lo, hi)` (R199): the error's sub-cause, if any. -/
def checkBits (b lo hi : Int) : Option (BitVec 8) :=
  if b < lo then some 1#8 else if hi < b then some 2#8 else none

/-- The trial division of Candidate (R191): it ends at the first table entry, either way. -/
def filtered (c : Nat) : Bool :=
  match Config.smallPrimes with
  | [] => false
  | f :: _ => decide (tmod c f = 0) && decide (f * f ≤ c)

/-- `while d mod 2 = 0: (d, r) <- (d / 2, r + 1)` (R193). `fuel` bounds the halvings (log 10). -/
def splitTwos : Nat → Nat → Nat → Nat × Nat
  | 0, d, r => (d, r)
  | fuel + 1, d, r => if d % 2 = 0 then splitTwos fuel (d / 2) (r + 1) else (d, r)

/-- n - 1 = d · 2^r with d odd, for n ≥ 2 (R193). -/
def decompose (n : Int) : Nat × Nat := splitTwos ((n - 1).toNat.log2 + 1) (n - 1).toNat 0

/-- `StrongProbe(n, a)` (R193): true when the round is inconclusive, false when a is a witness. -/
def strongProbe (n a : Int) : Bool :=
  let d := (decompose n).1
  let r := (decompose n).2
  decide (modPow a d n = 1) || (List.range r).any fun i => decide (modPow a (d * 2 ^ i) n = n - 1)

/-- Up to `rounds` rounds, each with a fresh base; no draw after the first witness (R194, D46). -/
def probeRounds (n : Int) : Nat → Env → Bool × Env
  | 0, e => (true, e)
  | rounds + 1, e =>
    let d := e.drawRange 2 (n - 1).toNat
    if strongProbe n d.1 then probeRounds n rounds d.2 else (false, d.2)

/-- `IsProbablyPrime(n)` (R194). -/
def isProbablyPrime (n : Int) (e : Env) : Bool × Env :=
  if n ≤ 1 then (false, e)
  else if n = 2 then (true, e)
  else probeRounds n Config.mrRounds e

/-- What one iteration of a prime search comes to. -/
inductive Search where
  /-- A probable prime is found. -/
  | found (c : Nat)
  /-- A rejection in the loop numbered as R190 numbers it: 1 candidate filter, 2 Miller–Rabin. -/
  | rejected (loop : BitVec 8)
  deriving DecidableEq, Repr

/-- One iteration of RandomPrime (R197) with the candidate's own iteration of R191 inside it. -/
def primeIteration (b : Nat) (e : Env) : Search × Env :=
  let c := e.drawBits b
  if filtered c.1 then (.rejected 1#8, c.2)
  else
    let v := isProbablyPrime c.1 c.2
    if v.1 then (.found c.1, v.2) else (.rejected 2#8, v.2)

/-- CANDPRIME's pseudocode, one iteration (R191, R192). -/
def candprimeStep (s : State) : Answer × Env :=
  match checkBits (s.x .opa) 1 (s.cfg.width - 1) with
  | some info => (.raise .invalidLength info, s.env)
  | none =>
    let c := s.env.drawBits (s.x .opa).toNat
    if filtered c.1 then (s.reject 1#8 .start, c.2) else (.ret [.big .res0 c.1], c.2)

/-- RANDPRIME's pseudocode, one iteration (R197, R198). -/
def randprimeStep (s : State) : Answer × Env :=
  match checkBits (s.x .opa) 2 (s.cfg.width - 1) with
  | some info => (.raise .invalidLength info, s.env)
  | none =>
    match primeIteration (s.x .opa).toNat s.env with
    | (.found c, e) => (.ret [.big .res0 c], e)
    | (.rejected loop, e) => (s.reject loop .start, e)

/-- MRTEST's pseudocode (R196). -/
def mrtestStep (s : State) : Answer × Env :=
  let v := isProbablyPrime (s.x .opa) s.env
  (.ret [.big .res0 (if v.1 then 1 else 0)], v.2)

/-- CANDPRIME (R192). -/
def execCandprime (s : State) : Out := .next ((s.withEnv (candprimeStep s).2).finish (candprimeStep s).1)

/-- MRTEST (R196). -/
def execMrtest (s : State) : Out := .next ((s.withEnv (mrtestStep s).2).finish (mrtestStep s).1)

/-- RANDPRIME (R198). -/
def execRandprime (s : State) : Out := .next ((s.withEnv (randprimeStep s).2).finish (randprimeStep s).1)

end Sys2Proof.Machine
end

