-- ==== Sys2Proof/Machine/KeyGen.lean ====
section
/-!
DEFINITION. The key generator (spec/44_keygen.md): ChooseExponent (R211), GenerateKeys (R212) and KEYGEN (R210, R213), one
engine step per iteration of an unbounded loop (R132, log 5); KeyDigits (R214) and KEYDIGITS (R215).
-/
namespace Sys2Proof.Machine

/-- The upper bound floor((W - 1) / 2) of KEYGEN's bit length (R210). -/
def keygenMaxBits (w : Nat) : Nat := (w - 1) / 2

/-- One iteration of a prime search of GenerateKeys (R212): `next` is where a found prime leads. -/
def keygenPrime (s : State) (phase : Phase) (next : Nat → Answer) : Answer × Env :=
  match primeIteration (s.x .opa).toNat s.env with
  | (.found c, e) => (next c, e)
  | (.rejected loop, e) => (s.reject loop phase, e)

/-- After p and q: n and λ are formed, and the exponent search begins (R212). -/
def keygenModulus (s : State) (p q : Int) : Answer :=
  match lcmValue s.lcmTrue (p - 1) (q - 1) with
  | none => .raise .arithmeticDomainError 1#8
  | some lam => .again (.keygenE (p * q) lam) s.prog.rej

/-- The test of ChooseExponent (R211): e < λ and gcd(e, λ) = 1. -/
def acceptsExponent (e lam : Int) : Bool :=
  decide (e < lam) &&
    match extGcd e lam with
    | none => false
    | some (g, _, _) => decide (g = 1)

/-- d, normalised into [0, λ) (R212, C12). -/
def privateExponent (e lam : Int) : Int :=
  match extGcd e lam with
  | none => 0
  | some (_, x, _) => if x < 0 then x + lam else x

/-- The writes of a successful KEYGEN (R213). -/
def keygenWrites (n e d lam : Int) : List PendingWrite :=
  [.big .res0 n, .big .res1 e, .big .res2 d, .big .res3 lam,
   .big .keyN n, .big .keyE e, .big .keyD d, .keyValid 7#3]

/-- One iteration of ChooseExponent, and the end of GenerateKeys when the exponent is accepted (R211, R212). -/
def keygenExponent (s : State) (n lam : Int) : Answer × Env :=
  let k := s.env.drawPercent
  let e := randInRange Config.eMin Config.eMax k.1
  if acceptsExponent e lam then (.ret (keygenWrites n e (privateExponent e lam) lam), k.2)
  else (s.reject 3#8 (.keygenE n lam), k.2)

/-- KEYGEN's pseudocode, one iteration (R213). -/
def keygenStep (s : State) : Answer × Env :=
  match checkBits (s.x .opa) 2 (keygenMaxBits s.cfg.width) with
  | some info => (.raise .invalidLength info, s.env)
  | none =>
    match s.prog.phase with
    | .start => keygenPrime s .start fun p => .again (.keygenQ p) s.prog.rej
    | .keygenQ p => keygenPrime s (.keygenQ p) fun q => keygenModulus s p q
    | .keygenE n lam => keygenExponent s n lam

/-- The search for the least k ≥ 1 with v < 10^k (R214); `ten` is 10^k. `fuel` bounds it (log 10). -/
def digitsFrom (v : Nat) : Nat → Nat → Nat → Nat
  | 0, k, _ => k
  | fuel + 1, k, ten => if v < ten then k else digitsFrom v fuel (k + 1) (ten * 10)

/-- `KeyDigits(b)`: the number of decimal digits of 2^b, computed exactly (R214, D40). -/
def keyDigitsOf (b : Nat) : Nat := digitsFrom (2 ^ b) b 1 10

/-- KEYDIGITS' pseudocode (R215). -/
def keydigitsBody (b : Int) : Answer :=
  if b < 0 then .raise .invalidLength 1#8 else .ret [.big .res0 (keyDigitsOf b.toNat)]

/-- KEYGEN (R213). -/
def execKeygen (s : State) : Out := .next ((s.withEnv (keygenStep s).2).finish (keygenStep s).1)

/-- KEYDIGITS (R215). -/
def execKeydigits (s : State) : Out := .next (s.finish (keydigitsBody (s.x .opa)))

end Sys2Proof.Machine
end

