-- ==== Sys2Proof/Machine/Dispatch.lean ====
section
/-!
DEFINITION. One engine step of a running command, by command (spec/40_control.md R132): one arm per row of the opcode map
(spec/30_encoding.md R113).
-/
namespace Sys2Proof.Machine

def exec (i : Instr) (s : State) : Host.Outcome State Fault Refusal :=
  match i with
  | .nop => Sys2Proof.Machine.execNop s
  | .modmul => Sys2Proof.Machine.execModmul s
  | .montmul => Sys2Proof.Machine.execMontmul s
  | .modexp => Sys2Proof.Machine.execModexp s
  | .egcd => Sys2Proof.Machine.execEgcd s
  | .lcm => Sys2Proof.Machine.execLcm s
  | .randrange => Sys2Proof.Machine.execRandrange s
  | .candprime => Sys2Proof.Machine.execCandprime s
  | .mrtest => Sys2Proof.Machine.execMrtest s
  | .randprime => Sys2Proof.Machine.execRandprime s
  | .keygen => Sys2Proof.Machine.execKeygen s
  | .keydigits => Sys2Proof.Machine.execKeydigits s
  | .encrypt => Sys2Proof.Machine.execEncrypt s
  | .decrypt => Sys2Proof.Machine.execDecrypt s

end Sys2Proof.Machine
end

