-- ==== Sys2Proof/Machine/Step.lean ====
section
/-!
DEFINITION. One step of the machine: the host's next access, a reset, or a turn of the engine (spec/40_control.md R132,
spec/20_memory.md R92).
-/
namespace Sys2Proof.Machine

/-- A turn of the engine (R132). Idle, it does nothing (R270). Busy, it decodes the word it was issued (R111, R130) and
runs one step of the command, or completes the illegal one (R115). -/
def engineStep (s : State) : Out :=
  match s.eng with
  | .idle => .next s
  | .busy cmd _ =>
    match decode cmd with
    | .ok i => exec i s
    | .error why => .next (s.illegal why)

/-- One step: the first event still to come, or a turn of the engine when none is listed (log 3). -/
def step (s : State) : Host.Outcome State Fault Refusal :=
  match s.env.events with
  | [] => engineStep s
  | .engine :: es => engineStep (s.withEvents es)
  | .access a :: es => busAccess (s.withEvents es) a
  | .poll :: es => pollStatus (s.withEvents es)
  | .reset :: es => .next (s.withEvents es).hardReset

/-- The state in which the very next step runs the given command word as a command just issued: what R130 does when the
host writes the word to CMD, with the engine's turn next (log 6). -/
def State.withFetchWord (s : State) (nbits w : Nat) : State :=
  (s.withEvents []).issue (BitVec.ofNat 32 (w % 2 ^ nbits))

end Sys2Proof.Machine
end

