-- ==== Sys2Proof/Machine/HostAsm.lean ====
section
/-!
DEFINITION. The host assembly of spec/30_encoding.md R117 and R118: the lines of a host program, the bus transactions each
expands to, as events the machine takes, and the values its lines name, formed from the bus's answers.
-/
namespace Sys2Proof.Machine

/-- A line of a host program: `WR`, `RD` and a comment (R117), then the pseudo-instructions (R118). `name` is the name
after `->`. -/
inductive HostLine where
  | wr (addr : Addr) (data : Word)
  | rd (addr : Addr) (name : String)
  | comment (text : String)
  | wrBig (r : BigReg) (v : Int)
  | rdBig (r : BigReg) (name : String)
  | cmd (i : Instr)
  | poll
  | run (i : Instr)
  | clr
  deriving DecidableEq, Repr

/-- The requirements of R117 and R118 on a line: an aligned address, and a value that fits the register. -/
def HostLine.wf (p : Params) : HostLine → Bool
  | .wr addr _ => decide (addr.toNat % 4 = 0)
  | .rd addr _ => decide (addr.toNat % 4 = 0)
  | .comment _ => true
  | .wrBig _ v => fits p.width v
  | .rdBig _ _ => true
  | .cmd _ => true
  | .poll => true
  | .run _ => true
  | .clr => true

/-- `WR addr, data`: one `MemWrite(addr, 4, data)` (R117); the address is the port's, 24 bits (R80, log 15). -/
def writeEvent (addr : Nat) (data : Word) : Event := .access (.write (BitVec.ofNat 24 addr) 4 data)

/-- `RD addr`: one `MemRead(addr, 4)` (R117). -/
def readEvent (addr : Nat) : Event := .access (.read (BitVec.ofNat 24 addr) 4)

/-- `WR REG.w[j]` for the given words, from word j on, in that order (R118). -/
def writeBigEvents (r : BigReg) : Nat → List Word → List Event
  | _, [] => []
  | j, w :: ws => writeEvent (bigWordAddr r j) w :: writeBigEvents r (j + 1) ws

/-- The bus transactions a line expands to (R118). -/
def HostLine.expand (p : Params) : HostLine → List Event
  | .wr addr data => [.access (.write addr 4 data)]
  | .rd addr _ => [.access (.read addr 4)]
  | .comment _ => []
  | .wrBig r v => writeBigEvents r 0 (enc p.nw v)
  | .rdBig r _ => (List.range p.nw).map fun j => readEvent (bigWordAddr r j)
  | .cmd i => [writeEvent 0x000010 (encode i)]
  | .poll => [.poll]
  | .run i => [writeEvent 0x000010 (encode i), .poll]
  | .clr => [writeEvent 0x00000C 0x0000000E#32]

/-- A host program as events, in the order of its lines (R118). -/
def expandProgram (p : Params) (prog : List HostLine) : List Event := prog.flatMap (HostLine.expand p)

/-! ## The values a program names (R117, R118), from the bus's answers, oldest first -/

/-- A name with the value it stands for. -/
abbrev Binding := String × Int

/-- The words `t_0`, `t_1`, … that `n` reads answered, and the answers after them. -/
def takeData : Nat → List Response → Option (List Word × List Response)
  | 0, rs => some ([], rs)
  | n + 1, .data w :: rs => (takeData n rs).map fun a => (w :: a.1, a.2)
  | _ + 1, _ => none

/-- The answers after those of `n` writes. -/
def takeAcks : Nat → List Response → Option (List Response)
  | 0, rs => some rs
  | n + 1, .ack :: rs => takeAcks n rs
  | _ + 1, _ => none

/-- The `s` with which POLL's loop ends, the first one read with s[0] = 0, and the answers after it (R118). -/
def takePoll : List Response → Option (Word × List Response)
  | .data s :: rs => if s.getLsbD 0 then takePoll rs else some (s, rs)
  | _ => none

/-- What a line names, and the answers left for the lines after it; none where the answers are not those of its
transactions. RD names the word read (R117), RDBIG `sint_W(t_{NW-1} ++ … ++ t_0)`, POLL its `s` (R118). -/
def HostLine.bindings (p : Params) : HostLine → List Response → Option (List Binding × List Response)
  | .wr _ _, rs => (takeAcks 1 rs).map fun rest => ([], rest)
  | .rd _ name, rs => (takeData 1 rs).map fun a => ([(name, (uval a.1 : Int))], a.2)
  | .comment _, rs => some ([], rs)
  | .wrBig _ _, rs => (takeAcks p.nw rs).map fun rest => ([], rest)
  | .rdBig _ name, rs => (takeData p.nw rs).map fun a => ([(name, sint a.1)], a.2)
  | .cmd _, rs => (takeAcks 1 rs).map fun rest => ([], rest)
  | .poll, rs => (takePoll rs).map fun a => ([("s", (a.1.toNat : Int))], a.2)
  | .run _, rs => ((takeAcks 1 rs).bind takePoll).map fun a => ([("s", (a.1.toNat : Int))], a.2)
  | .clr, rs => (takeAcks 1 rs).map fun rest => ([], rest)

/-- What a host program names, in the order of its lines (R118). -/
def programBindings (p : Params) : List HostLine → List Response → Option (List Binding × List Response)
  | [], rs => some ([], rs)
  | l :: ls, rs =>
    (l.bindings p rs).bind fun a => (programBindings p ls a.2).map fun b => (a.1 ++ b.1, b.2)

end Sys2Proof.Machine
end

