-- ==== Sys2Proof/WellFormed.lean ====
section
/-!
DEFINITION. Which terms stand for something the block has: every command does (it has no fields to be wrong);
a build's parameters do when they meet the constraints of spec/00_scope.md R7 and R8.
-/
namespace Sys2Proof

/-- Every command is well formed: R110 gives it no operand field, so there is nothing a check could refuse. -/
def Instr.wf : Instr → Bool
  | .nop => true
  | .modmul => true
  | .montmul => true
  | .modexp => true
  | .egcd => true
  | .lcm => true
  | .randrange => true
  | .candprime => true
  | .mrtest => true
  | .randprime => true
  | .keygen => true
  | .keydigits => true
  | .encrypt => true
  | .decrypt => true

/-- R7: 64 ≤ W ≤ 8192 and W is a multiple of 32 (W = 32 · NW). -/
def Params.widthOk (p : Params) : Bool := decide (64 ≤ p.width) && decide (p.width ≤ 8192)

/-- R8: MAXLEN is a multiple of 4 and 4 ≤ MAXLEN ≤ 16384. -/
def Params.maxLenOk (p : Params) : Bool :=
  decide (p.maxLen % 4 = 0) && decide (4 ≤ p.maxLen) && decide (p.maxLen ≤ 16384)

/-- R8: the ciphertext buffer fits its window, MAXLEN × NW × 4 ≤ 0x100000. -/
def Params.windowOk (p : Params) : Bool := decide (p.maxLen * p.nw * 4 ≤ 0x100000)

/-- A legal build (R7, R8). -/
def Params.wf (p : Params) : Bool := p.widthOk && p.maxLenOk && p.windowOk

end Sys2Proof
end

