-- ==== Sys2Proof/Safety.lean ====
section
/-!
DEFINITION. The terms claims are stated in: how a command ends (spec/40_control.md R133, R134), what it leaves unchanged,
what it may write (spec/30_encoding.md R114), when a cipher command can read its input (spec/93_implementation_defined.md
U9), and the invariant of the machine.
-/
namespace Sys2Proof.Machine

/-- A step that neither faults nor is refused. -/
def Safe (o : Out) : Prop := ∃ t, o = .next t

/-! ## What stays -/

/-- Every byte of MSG and CT reads as before, written or not. -/
def SameMemory (s t : State) : Prop := ∀ a, t.mem.read a = s.mem.read a

/-- Every big register outside `rs` and every other control register a command does not report in (CTRL, STATUS.WWB,
LASTCMD, ITER_CAP, MSGLEN), the build, the host's accesses to come and the answers it has: as before. -/
def SameBut (rs : List BigReg) (s t : State) : Prop :=
  (∀ r, r ∉ rs → t.big r = s.big r) ∧ t.cfg = s.cfg ∧ t.irqEn = s.irqEn ∧ t.lcmTrue = s.lcmTrue ∧ t.wwb = s.wwb ∧
    t.lastCmd = s.lastCmd ∧ t.iterCap = s.iterCap ∧ t.msgLen = s.msgLen ∧
    t.env.events = s.env.events ∧ t.env.responses = s.env.responses

/-! ## How a command's engine step ends -/

/-- Successful completion (R133): the engine is Idle, DONE is 1, ERRCODE and ERRINFO are 0, ERR stays. -/
def Completed (s t : State) : Prop :=
  t.eng = .idle ∧ t.done = true ∧ t.err = s.err ∧ t.errCode = 0#8 ∧ t.errInfo = 0#8

/-- Error completion with the given ERRCODE and ERRINFO (R134): nothing else changes. -/
def FailedWith (code info : BitVec 8) (s t : State) : Prop :=
  t.eng = .idle ∧ t.done = true ∧ t.err = true ∧ t.errCode = code ∧ t.errInfo = info ∧
    SameBut [] s t ∧ t.keyValid = s.keyValid ∧ SameMemory s t

/-- The command goes on (R132): it is Busy with the same command, and no register, flag or buffer has changed. -/
def GoesOn (s t : State) : Prop :=
  (∃ p, t.eng = .busy s.runCmd p) ∧ t.done = s.done ∧ t.err = s.err ∧ t.errCode = s.errCode ∧ t.errInfo = s.errInfo ∧
    SameBut [] s t ∧ t.keyValid = s.keyValid ∧ SameMemory s t

/-- A rejection of the loop numbered `loop` (R190): GENERATION_TIMEOUT(loop) when the count reaches a nonzero ITER_CAP,
else the command goes on in `phase` with one more rejection. -/
def Rejects (loop : BitVec 8) (phase : Phase) (s t : State) : Prop :=
  (s.iterCap ≠ 0#32 ∧ s.iterCap.toNat ≤ s.prog.rej + 1 → FailedWith 8#8 loop s t) ∧
    (¬(s.iterCap ≠ 0#32 ∧ s.iterCap.toNat ≤ s.prog.rej + 1) → GoesOn s t ∧ t.prog = ⟨s.prog.rej + 1, phase, []⟩)

/-- A phase change of KEYGEN: it goes on in `phase` with as many rejections as before (R212). -/
def Advances (phase : Phase) (s t : State) : Prop := GoesOn s t ∧ t.prog = ⟨s.prog.rej, phase, []⟩

/-! ## Draws -/

/-- The surroundings after `k` draws. -/
def Env.after (e : Env) (k : Nat) : Env := { e with draws := e.draws.drop k, drawCount := e.drawCount + k }

/-- The base that round `j` (from 0) of IsProbablyPrime(n) draws, for n ≥ 3 (R194). -/
def baseAt (e : Env) (n : Int) (j : Nat) : Int := drawIn 2 (n - 1).toNat (e.after j).nextRaw

/-- A Miller–Rabin round is inconclusive, in the words of R193: with n - 1 = d · 2^r and d odd, a^d mod n = 1, or
a^(d·2^i) mod n = n - 1 for some i in [0, r). -/
def Inconclusive (n a : Int) : Prop :=
  ∀ d r : Nat, d % 2 = 1 → n - 1 = d * 2 ^ r → a ^ d % n = 1 ∨ ∃ i, i < r ∧ a ^ (d * 2 ^ i) % n = n - 1

/-! ## The recurrence of R170 -/

/-- The loop of ExtGcdRaw as R170 writes it, from the values of (old_r, r), (old_s, s), (old_t, t) to the triple
returned. -/
inductive EuclidLoop : Int → Int → Int → Int → Int → Int → Int × Int × Int → Prop where
  | done (oldR oldS s oldT t : Int) : EuclidLoop oldR 0 oldS s oldT t (oldR, oldS, oldT)
  | turn (oldR r oldS s oldT t q : Int) (res : Int × Int × Int) : r ≠ 0 → q = Int.tdiv oldR r →
      EuclidLoop r (oldR - q * r) s (oldS - q * s) t (oldT - q * t) res → EuclidLoop oldR r oldS s oldT t res

/-! ## The exponent search (R211) -/

/-- No exponent that can be drawn is accepted for `lam` (R211, U24): each is at least `lam` or shares a factor with it. -/
def NoExponent (lam : Int) : Prop :=
  ∀ k : Nat, k ≤ 99 → lam ≤ 3 + 65535 * k / 100 ∨ Int.gcd (3 + 65535 * k / 100) lam ≠ 1

/-! ## What a command may write (R114) -/

/-- The big registers a command writes on success (R114). -/
def resultRegs : Instr → List BigReg
  | .nop => []
  | .modmul => [.res0]
  | .montmul => [.res0]
  | .modexp => [.res0]
  | .egcd => [.res0, .res1, .res2]
  | .lcm => [.res0]
  | .randrange => [.res0]
  | .candprime => [.res0]
  | .mrtest => [.res0]
  | .randprime => [.res0]
  | .keygen => [.res0, .res1, .res2, .res3, .keyN, .keyE, .keyD]
  | .keydigits => [.res0]
  | .encrypt => []
  | .decrypt => []

/-- The address of a byte of MSG[0..L-1], L = MSGLEN. -/
def inMessage (s : State) (a : Nat) : Prop := msgAddr 0 ≤ a ∧ a < msgAddr s.msgLen.toNat

/-- The address of a byte of CT[0..L-1], L = MSGLEN. -/
def inCiphertext (s : State) (a : Nat) : Prop :=
  ctWordAddr s.cfg 0 0 ≤ a ∧ a < ctWordAddr s.cfg s.msgLen.toNat 0

/-- The bytes of memory a command may write: ENCRYPT writes CT[0..L-1], DECRYPT writes MSG[0..L-1], no other command
writes memory (R114, D50). -/
def mayWrite (i : Instr) (s : State) (a : Nat) : Prop :=
  (i = .encrypt ∧ inCiphertext s a) ∨ (i = .decrypt ∧ inMessage s a)

/-! ## Cipher input (U9) -/

/-- Every byte MSG[0..L-1] has been written since reset. -/
def messageWritten (s : State) : Prop := ∀ i, i < s.msgLen.toNat → ∃ b, s.msgByte i = .ok b

/-- Every word of CT[0..L-1] has been written since reset. -/
def ciphertextWritten (s : State) : Prop := ∀ i, i < s.msgLen.toNat → ∃ ws, s.ctWords i = .ok ws

/-- `x[CT[i]] = v`: the element is written and its value is v (R47). -/
def ctIs (s : State) (i : Nat) (v : Int) : Prop := ∃ ws, s.ctWords i = .ok ws ∧ sint ws = v

/-! ## The invariant -/

/-- The (ERRCODE, ERRINFO) pairs of R251 and R252. -/
def errorPairOk (code info : Nat) : Bool :=
  match code with
  | 0 => info = 0
  | 1 => info = 1 || info = 2
  | 3 => info = 1 || info = 2 || info = 4 || info = 5 || info = 6
  | 4 => info = 1 || info = 2
  | 5 => info = 0
  | 6 => info = 1 || info = 2 || info = 3
  | 7 => info = 1 || info = 2
  | 8 => info = 1 || info = 2 || info = 3
  | _ => false

/-- A byte of the MSG buffer (R46). -/
def isMsgByte (p : Params) (a : Nat) : Prop := 0x004000 ≤ a ∧ a < 0x004000 + p.maxLen

/-- A byte of the CT buffer (R47). -/
def isCtByte (p : Params) (a : Nat) : Prop := 0x100000 ≤ a ∧ a < 0x100000 + 4 * (p.maxLen * p.nw)

/-- KEYGEN's bit length is within R210's bounds. -/
def keygenBitsOk (s : State) : Prop := 2 ≤ s.x .opa ∧ s.x .opa ≤ keygenMaxBits s.cfg.width

/-- A value KEYGEN can have found as p or q: at least 2 and of exactly the asked bit length (R191, R197). -/
def keygenPrimeOk (s : State) (p : Int) : Prop :=
  2 ≤ p ∧ 2 ^ ((s.x .opa).toNat - 1) ≤ p ∧ p < 2 ^ (s.x .opa).toNat

/-- What a running command's local variables can be (R49, R212). -/
def phaseOk (s : State) (cmd : Word) : Phase → Prop
  | .start => True
  | .keygenQ p => decode cmd = .ok .keygen ∧ keygenBitsOk s ∧ keygenPrimeOk s p
  | .keygenE n lam => decode cmd = .ok .keygen ∧ keygenBitsOk s ∧
      ∃ p q, keygenPrimeOk s p ∧ keygenPrimeOk s q ∧ n = p * q ∧ lcmValue s.lcmTrue (p - 1) (q - 1) = some lam

/-- What holds while the engine is Busy: DONE, ERR, ERRCODE and ERRINFO are 0 (R130, R136), LASTCMD is the running command
(R37), nothing is pending between steps (log 5), and the rejections have not reached a nonzero ITER_CAP (R190). -/
def busyOk (s : State) (cmd : Word) (p : Prog) : Prop :=
  s.done = false ∧ s.err = false ∧ s.errCode = 0#8 ∧ s.errInfo = 0#8 ∧ s.lastCmd = cmd ∧ p.pending = [] ∧
    (s.iterCap ≠ 0#32 → p.rej < s.iterCap.toNat) ∧ phaseOk s cmd p.phase

/-- What holds of the engine. -/
def engineOk (s : State) : Prop :=
  match s.eng with
  | .idle => True
  | .busy cmd p => busyOk s cmd p

/-- The invariant of the machine. -/
structure State.Inv (s : State) : Prop where
  /-- The build's parameters meet R7 and R8. -/
  cfg_wf : s.cfg.wf = true
  /-- Every big register is W bits wide (R30, R48). -/
  regs_length : ∀ r, (s.big r).length = s.cfg.nw
  /-- The memory is in its canonical form. -/
  mem_wf : s.mem.wf
  /-- Only bytes of MSG and CT are held (R46, R47). -/
  mem_inside : ∀ c ∈ s.mem, isMsgByte s.cfg c.1 ∨ isCtByte s.cfg c.1
  /-- CT's written marks are per word (R56). -/
  ct_marks : ∀ a k, isCtByte s.cfg a → a % 4 = 0 → k < 4 →
    (s.mem.read (a + k)).isSome = (s.mem.read a).isSome
  /-- ERRCODE and ERRINFO hold a pair of R251 and R252. -/
  error_pair : errorPairOk s.errCode.toNat s.errInfo.toNat = true
  /-- ERR is set only with an error code (R134). -/
  err_code : s.err = true → s.errCode ≠ 0#8
  /-- The engine. -/
  engine : engineOk s

end Sys2Proof.Machine
end

