-- ==== Sys2Proof/Certificates/Slice0/Obligations.lean ====
section
/-!
DEFINITION. The statements for the provers, from the numbered rules of spec/. Each docstring names its rule. A value that
comes from a draw is `(s.env.draw… ).1`, free for every state whose draws are not fixed (log 2): a statement about it
holds for every value. `exec i s` is an engine step of the running command (log 5).
-/

open Sys2Proof Sys2Proof.Machine

/-! ## Encoding (30_encoding.md) -/

/-- R113: the word of each of the fourteen commands; the match is the whole word, so no other word decodes to a command. -/
def Obligations.OpcodeMapWords : Prop :=
  decode 0x00000000#32 = .ok .nop ∧ decode 0x00000001#32 = .ok .modmul ∧ decode 0x00000002#32 = .ok .montmul ∧
    decode 0x00000003#32 = .ok .modexp ∧ decode 0x00000004#32 = .ok .egcd ∧ decode 0x00000005#32 = .ok .lcm ∧
    decode 0x00000006#32 = .ok .randrange ∧ decode 0x00000007#32 = .ok .candprime ∧
    decode 0x00000008#32 = .ok .mrtest ∧ decode 0x00000009#32 = .ok .randprime ∧
    decode 0x0000000A#32 = .ok .keygen ∧ decode 0x0000000B#32 = .ok .keydigits ∧
    decode 0x0000000C#32 = .ok .encrypt ∧ decode 0x0000000D#32 = .ok .decrypt ∧
    ∀ (w : Word) (i : Instr), decode w = .ok i → w.toNat ≤ 0x0D

/-- R111, R113, R116: over all 32-bit words, a word decodes to a command exactly when it is that command's one word; every
other word is illegal, by RSV first and then by OPC (R112, R115). -/
def Obligations.DecodeEncodeAgree : Prop :=
  ∀ w : Word, (∀ i : Instr, decode w = .ok i ↔ w = encode i) ∧
    (decode w = .error .reservedBits ↔ 256 ≤ w.toNat) ∧
    (decode w = .error .unassigned ↔ 0x0E ≤ w.toNat ∧ w.toNat < 256)

/-- R115: an illegal word written to CMD is stored in LASTCMD and makes the engine Busy, and its engine step completes with
ILLEGAL_COMMAND, ERRINFO 2 if RSV ≠ 0 and 1 otherwise, and writes no result. -/
def Obligations.IllegalWordCompletes : Prop :=
  ∀ (s : State) (w : Word), s.eng = .idle → s.env.events = [] → 0x0E ≤ w.toNat →
    let s1 := s.store 0x000010 w
    s1.lastCmd = w ∧ s1.busy = true ∧
      ∃ t, step s1 = .next t ∧ FailedWith 1#8 (if 256 ≤ w.toNat then 2#8 else 1#8) s1 t ∧ t.env = s1.env

/-! ## The machine's step (40_control.md) -/

/-- R111, R132: on the engine's turn, a Busy engine whose command word decodes runs that command: `step` is `exec`, at the
state whose turn event (if one was listed) is used up. `withFetchWord` makes exactly this the next step (log 6). -/
def Obligations.StepRunsDecodedCommand : Prop :=
  ∀ (s : State) (w : Word) (i : Instr), decode w = .ok i →
    (∀ p, s.eng = .busy w p → s.env.events = [] → step s = exec i s) ∧
    (∀ p es, s.eng = .busy w p → s.env.events = .engine :: es → step s = exec i (s.withEvents es)) ∧
    step (s.withFetchWord 32 w.toNat) = exec i ((s.withEvents []).issue w)

/-- R270: an Idle engine does nothing on its turn. -/
def Obligations.IdleEngineDoesNothing : Prop :=
  ∀ s : State, s.eng = .idle →
    (s.env.events = [] → step s = .next s) ∧
    (∀ es, s.env.events = .engine :: es → step s = .next (s.withEvents es))

/-- R130: a write to CMD while Idle is a command issue: LASTCMD, DONE, ERR, ERRCODE, ERRINFO and the engine change as said,
no other state does, and the engine then runs the decoded command. -/
def Obligations.CommandIssue : Prop :=
  ∀ (s : State) (v : Word) (es : List Event), s.eng = .idle →
    s.env.events = .access (.write 0x000010#24 4 v) :: es →
    ∃ t, step s = .next t ∧
      t = { s with
        lastCmd := v, done := false, err := false, errCode := 0#8, errInfo := 0#8, eng := .busy v ⟨0, .start, []⟩
        env := { s.env with events := es, responses := .ack :: s.env.responses } } ∧
      t.busy = true ∧ (∀ i, decode v = .ok i → es = [] → step t = exec i t)

/-- R131, R135: while Busy, a legal write to any address but STATUS stores nothing and only sets WWB; a write to STATUS takes
effect; a bus-error write changes nothing, WWB included. -/
def Obligations.WriteWhileBusy : Prop :=
  ∀ (s : State) (addr : Addr) (size : Nat) (v : Word) (es : List Event), s.busy = true →
    s.env.events = .access (.write addr size v) :: es →
    (size = 4 → addr.toNat % 4 = 0 → addr.toNat ≠ 0x00000C →
      step s = .next (({ s with wwb := true }.withEvents es).respond .ack)) ∧
    (size = 4 → addr.toNat = 0x00000C →
      step s = .next ((({ s with
        done := s.done && !v.getLsbD 1, err := s.err && !v.getLsbD 2, wwb := s.wwb && !v.getLsbD 3 }).withEvents
          es).respond .ack)) ∧
    (size ≠ 4 ∨ addr.toNat % 4 ≠ 0 → step s = .next ((s.withEvents es).respond .busError))

/-- R136, R138, R88: a legal read, Busy or not, answers the word its location holds and changes nothing in the block; it
stops only at an unwritten byte of MSG or CT (U9). -/
def Obligations.ReadsHaveNoSideEffect : Prop :=
  ∀ (s : State) (addr : Addr) (es : List Event), s.cfg.wf = true → s.env.events = .access (.read addr 4) :: es → addr.toNat % 4 = 0 →
    (∃ w, s.readLoc (locate s.cfg addr.toNat) = .ok w ∧ step s = .next ((s.withEvents es).respond (.data w))) ∨
    (∃ k, k < 4 ∧ (isMsgByte s.cfg (addr.toNat + k) ∨ isCtByte s.cfg (addr.toNat + k)) ∧
      s.mem.read (addr.toNat + k) = none ∧ step s = .fault (.unwrittenRead (addr.toNat + k)))

/-- R81: an access that is not 32 bits wide or not aligned gets an error response, and no state of the block changes. -/
def Obligations.BusErrorChangesNothing : Prop :=
  ∀ (s : State) (addr : Addr) (size : Nat) (v : Word) (es : List Event), size ≠ 4 ∨ addr.toNat % 4 ≠ 0 →
    (s.env.events = .access (.read addr size) :: es ∨ s.env.events = .access (.write addr size v) :: es) →
    step s = .next { s with env := { s.env with events := es, responses := .busError :: s.env.responses } }

/-- R92, R118 and the model's own choice (log 4): POLL reads STATUS; while BUSY is 1 the host polls again after a turn of the
engine, and with BUSY 0 the loop ends. -/
def Obligations.PollReadsStatusUntilIdle : Prop :=
  ∀ (s : State) (es : List Event), s.env.events = .poll :: es →
    ∃ t, step s = .next t ∧ t.env.responses = .data s.statusWord :: s.env.responses ∧
      (s.busy = true → s.statusWord.getLsbD 0 = true ∧ t.env.events = .engine :: .poll :: es) ∧
      (s.busy = false → s.statusWord.getLsbD 0 = false ∧ t.env.events = es) ∧
      t = { s with env := t.env }

/-! ## Registers and buffers on the bus (10_state.md, 20_memory.md) -/

/-- R33, R34: ID reads 0x52534131; PARAM reads NW in bits [15:0] and MAXLEN in bits [31:16]. -/
def Obligations.IdAndParamRead : Prop :=
  ∀ s : State, s.cfg.wf = true →
    s.readLoc (locate s.cfg 0x000000) = .ok 0x52534131#32 ∧
    ∃ w, s.readLoc (locate s.cfg 0x000004) = .ok w ∧ (w.extractLsb' 0 16).toNat = s.cfg.nw ∧
      (w.extractLsb' 16 16).toNat = s.cfg.maxLen

/-- R30, R32, R35 to R42: what a read of each other control register returns, reserved fields as 0. -/
def Obligations.ControlRegisterReads : Prop :=
  ∀ s : State,
    s.readLoc (locate s.cfg 0x000008) = .ok (BitVec.ofNat 32 (s.irqEn.toNat + 2 * s.lcmTrue.toNat)) ∧
    s.readLoc (locate s.cfg 0x00000C) =
      .ok (BitVec.ofNat 32 (s.busy.toNat + 2 * s.done.toNat + 4 * s.err.toNat + 8 * s.wwb.toNat)) ∧
    s.readLoc (locate s.cfg 0x000010) = .ok s.lastCmd ∧
    s.readLoc (locate s.cfg 0x000014) = .ok (BitVec.ofNat 32 s.errCode.toNat) ∧
    s.readLoc (locate s.cfg 0x000018) = .ok (BitVec.ofNat 32 s.errInfo.toNat) ∧
    s.readLoc (locate s.cfg 0x00001C) = .ok s.iterCap ∧
    s.readLoc (locate s.cfg 0x000020) = .ok s.msgLen ∧
    s.readLoc (locate s.cfg 0x000024) = .ok (BitVec.ofNat 32 s.keyValid.toNat)

/-- R31, R35, R40 to R42, R137: an Idle host write to each writable control register stores its defined fields and nothing
else; a STATUS write clears the W1C bits written 1; a write to a read-only register has no effect. -/
def Obligations.ControlRegisterWrites : Prop :=
  ∀ (s : State) (v : Word), s.eng = .idle →
    s.store 0x000008 v = { s with irqEn := v.getLsbD 0, lcmTrue := v.getLsbD 1 } ∧
    s.store 0x00000C v = { s with
      done := s.done && !v.getLsbD 1, err := s.err && !v.getLsbD 2, wwb := s.wwb && !v.getLsbD 3 } ∧
    s.store 0x00001C v = { s with iterCap := v } ∧
    s.store 0x000020 v = { s with msgLen := v } ∧
    s.store 0x000024 v = { s with keyValid := v.extractLsb' 0 3 } ∧
    s.store 0x000000 v = s ∧ s.store 0x000004 v = s ∧ s.store 0x000014 v = s ∧ s.store 0x000018 v = s ∧
    (∀ r j, r ∈ [BigReg.res0, .res1, .res2, .res3] → j < s.cfg.nw → s.cfg.wf = true →
      s.store (bigBase r + 4 * j) v = s)

/-- R32 with R30: a reserved address reads 0; an Idle write to it has no effect, and a Busy one only sets WWB. -/
def Obligations.ReservedAddresses : Prop :=
  ∀ (s : State) (a : Nat) (v : Word), s.cfg.wf = true → a % 4 = 0 → a < 0x1000000 →
    ((0x000028 ≤ a ∧ a < 0x000400) ∨
      (∃ r, bigBase r + 4 * s.cfg.nw ≤ a ∧ a < bigBase r + 0x400) ∨
      (0x002C00 ≤ a ∧ a < 0x004000) ∨
      (0x004000 + s.cfg.maxLen ≤ a ∧ a < 0x100000) ∨
      0x100000 + 4 * s.cfg.maxLen * s.cfg.nw ≤ a) →
    s.readLoc (locate s.cfg a) = .ok 0#32 ∧
      s.store a v = if s.busy then { s with wwb := true } else s

/-- R48: word j of a big register holds bits [32j+31:32j] of its two's-complement pattern, is what a read of base + 4·j
returns, and an Idle host write to word j of a writable register replaces exactly those 32 bits. -/
def Obligations.BigRegisterWords : Prop :=
  ∀ (s : State) (r : BigReg) (j : Nat), s.Inv → j < s.cfg.nw →
    (∃ w, s.readLoc (locate s.cfg (bigBase r + 4 * j)) = .ok w ∧
      (w.toNat : Int) = s.x r % 2 ^ s.cfg.width / 2 ^ (32 * j) % 2 ^ 32) ∧
    ∀ v : Word, s.eng = .idle → r ∈ [BigReg.opa, .opb, .opm, .keyE, .keyD, .keyN] →
      let t := s.store (bigBase r + 4 * j) v
      (∀ k, k < s.cfg.nw → t.readLoc (locate t.cfg (bigBase r + 4 * k)) =
        if k = j then .ok v else s.readLoc (locate s.cfg (bigBase r + 4 * k))) ∧
      (∀ q, q ≠ r → t.big q = s.big q) ∧ t = { s with regs := t.regs, keyValid := t.keyValid }

/-- R42, R44: an Idle host write to any word of KEY_E, KEY_D or KEY_N sets its KEYVALID bit and no other, and a write to an
operand register sets none. -/
def Obligations.KeyWriteSetsKeyValid : Prop :=
  ∀ (s : State) (j : Nat) (v : Word), s.cfg.wf = true → s.eng = .idle → j < s.cfg.nw →
    (s.store (bigBase .keyE + 4 * j) v).keyValid = s.keyValid ||| 1#3 ∧
    (s.store (bigBase .keyD + 4 * j) v).keyValid = s.keyValid ||| 2#3 ∧
    (s.store (bigBase .keyN + 4 * j) v).keyValid = s.keyValid ||| 4#3 ∧
    ∀ r, r ∈ [BigReg.opa, .opb, .opm] → (s.store (bigBase r + 4 * j) v).keyValid = s.keyValid

/-- R85: MSG word w is MSG[4w+3] ++ MSG[4w+2] ++ MSG[4w+1] ++ MSG[4w]; a read returns that, and an Idle write sets the four
bytes from lanes 0 to 3 and no other byte. -/
def Obligations.MsgPacking : Prop :=
  ∀ (s : State) (w : Nat), s.cfg.wf = true → 4 * w < s.cfg.maxLen →
    (∀ b0 b1 b2 b3 : Byte, s.msgByte (4 * w) = .ok b0 → s.msgByte (4 * w + 1) = .ok b1 →
      s.msgByte (4 * w + 2) = .ok b2 → s.msgByte (4 * w + 3) = .ok b3 →
      s.readLoc (locate s.cfg (0x004000 + 4 * w)) = .ok (b3 ++ b2 ++ b1 ++ b0)) ∧
    ∀ v : Word, s.eng = .idle →
      let t := s.store (0x004000 + 4 * w) v
      (∀ k, k < 4 → t.msgByte (4 * w + k) = .ok (v.extractLsb' (8 * k) 8)) ∧
      (∀ a, a < 0x004000 + 4 * w ∨ 0x004000 + 4 * w + 4 ≤ a → t.mem.read a = s.mem.read a) ∧
      t = { s with mem := t.mem }

/-- R86: word j of CT[i] lies at 0x100000 + 4·(i·NW + j); an Idle write there replaces that word and no other byte, and a
read there returns it. -/
def Obligations.CtLayout : Prop :=
  ∀ (s : State) (i j : Nat), s.cfg.wf = true → i < s.cfg.maxLen → j < s.cfg.nw →
    (∀ ws, s.ctWords i = .ok ws →
      ∃ w, ws[j]? = some w ∧ s.readLoc (locate s.cfg (0x100000 + 4 * (i * s.cfg.nw + j))) = .ok w) ∧
    ∀ v : Word, s.eng = .idle →
      let t := s.store (0x100000 + 4 * (i * s.cfg.nw + j)) v
      t.readLoc (locate t.cfg (0x100000 + 4 * (i * s.cfg.nw + j))) = .ok v ∧
      (∀ ws, s.ctWords i = .ok ws → t.ctWords i = .ok (ws.set j v)) ∧
      (∀ a, a < 0x100000 + 4 * (i * s.cfg.nw + j) ∨ 0x100000 + 4 * (i * s.cfg.nw + j) + 4 ≤ a →
        t.mem.read a = s.mem.read a) ∧
      t = { s with mem := t.mem }

/-- R118: the events of WRBIG put its value into the register: each is one bus write, and after the NW of them
`x[REG] = v`. -/
def Obligations.WrbigWritesValue : Prop :=
  ∀ (s : State) (r : BigReg) (v : Int) (es : List Event), s.Inv → s.eng = .idle →
    r ∈ [BigReg.opa, .opb, .opm, .keyE, .keyD, .keyN] → fits s.cfg.width v = true →
    s.env.events = HostLine.expand s.cfg (.wrBig r v) ++ es →
    ∃ t, Host.Core.run core s.cfg.nw s = .next t ∧ t.x r = v ∧ t.env.events = es ∧ t.eng = .idle ∧
      (∀ q, q ≠ r → t.big q = s.big q) ∧ SameMemory s t

/-! ## Reset, interrupt, draws -/

/-- R281, R283: the state after reset, for every legal build. -/
def Obligations.ResetValues : Prop :=
  ∀ (p : Params) (e : Env), p.wf = true →
    let s := State.resetOf p e
    s.readLoc (locate p 0x000000) = .ok 0x52534131#32 ∧
    s.readLoc (locate p 0x000004) = .ok (BitVec.ofNat 32 (p.maxLen * 65536 + p.nw)) ∧
    s.ctrlWord = 0#32 ∧ s.statusWord = 0#32 ∧ s.lastCmd = 0#32 ∧ s.errCode = 0#8 ∧ s.errInfo = 0#8 ∧
    s.iterCap = 0#32 ∧ s.msgLen = 0#32 ∧ s.keyValid = 0#3 ∧ (∀ r, s.x r = 0) ∧ s.eng = .idle ∧ s.irq = false ∧
    (∀ a, s.mem.read a = none)

/-- R280, R284: a hardware reset at any time, Busy or not, gives the state of R281: a running command is abandoned with no
completion and no interrupt. -/
def Obligations.HardResetAbandonsCommand : Prop :=
  ∀ (s : State) (es : List Event), s.env.events = .reset :: es →
    ∃ t, step s = .next t ∧ t.eng = .idle ∧ t.done = false ∧ t.err = false ∧ t.wwb = false ∧ t.irq = false ∧
      t.lastCmd = 0#32 ∧ t.errCode = 0#8 ∧ t.errInfo = 0#8 ∧ t.iterCap = 0#32 ∧ t.msgLen = 0#32 ∧
      t.keyValid = 0#3 ∧ t.irqEn = false ∧ t.lcmTrue = false ∧ (∀ r, t.x r = 0) ∧
      (∀ a, t.mem.read a = none) ∧ t.cfg = s.cfg ∧ t.env.events = es

/-- R259, R260: irq is IRQ_EN AND DONE. It rises at every completion with IRQ_EN = 1, and when IRQ_EN is set while DONE = 1;
it falls when DONE is cleared by a 1 in STATUS bit 1, when IRQ_EN is cleared, at a command issue and at reset. -/
def Obligations.InterruptOutput : Prop :=
  (∀ s : State, s.irq = true ↔ s.irqEn = true ∧ s.done = true) ∧
  (∀ (i : Instr) (s t : State), exec i s = .next t → t.eng = .idle → t.irq = s.irqEn) ∧
  (∀ (s : State) (why : Illegal), (s.illegal why).irq = s.irqEn) ∧
  (∀ (s : State) (v : Word), s.eng = .idle →
    (s.store 0x000008 v).irq = (v.getLsbD 0 && s.done) ∧ (s.store 0x000008 v).done = s.done) ∧
  (∀ (s : State) (v : Word), v.getLsbD 1 = true → (s.store 0x00000C v).irq = false) ∧
  (∀ (s : State) (v : Word), s.eng = .idle → (s.store 0x000010 v).irq = false) ∧
  (∀ s : State, s.hardReset.irq = false)

/-- R50: DrawBits(b) has exactly b bits, DrawRange(lo, hi) lies in lo..hi, DrawPercent in 0..99; and every such value can be
drawn. Each draw takes one input. -/
def Obligations.DrawsLieInRange : Prop :=
  (∀ (e : Env) (b : Nat), 1 ≤ b → 2 ^ (b - 1) ≤ (e.drawBits b).1 ∧ (e.drawBits b).1 ≤ 2 ^ b - 1) ∧
  (∀ (e : Env) (lo hi : Nat), lo ≤ hi → lo ≤ (e.drawRange lo hi).1 ∧ (e.drawRange lo hi).1 ≤ hi) ∧
  (∀ e : Env, e.drawPercent.1 ≤ 99) ∧
  (∀ (e : Env) (lo hi v : Nat), lo ≤ v → v ≤ hi →
    (({ e with draws := v :: e.draws } : Env).drawRange lo hi) = (v, { e with drawCount := e.drawCount + 1 })) ∧
  (∀ (e : Env) (b v : Nat), 1 ≤ b → 2 ^ (b - 1) ≤ v → v ≤ 2 ^ b - 1 →
    (({ e with draws := v :: e.draws } : Env).drawBits b) = (v, { e with drawCount := e.drawCount + 1 })) ∧
  (∀ (e : Env) (v : Nat), v ≤ 99 →
    (({ e with draws := v :: e.draws } : Env).drawPercent) = (v, { e with drawCount := e.drawCount + 1 }))

/-! ## NOP and the modular unit (40_control.md, 41_modarith.md) -/

/-- R139: NOP completes, and nothing but the status it reports in changes. Once issued, it leaves DONE = 1 and ERR, ERRCODE and
ERRINFO 0, whatever they were. -/
def Obligations.NopCompletes : Prop :=
  (∀ s : State, s.Inv → ∃ t, exec .nop s = .next t ∧ Completed s t ∧ SameBut [] s t ∧ t.keyValid = s.keyValid ∧
    SameMemory s t ∧ t.env = s.env) ∧
  ∀ s : State, s.Inv → ∃ t, exec .nop (s.issue 0x00000000#32) = .next t ∧
    t.done = true ∧ t.err = false ∧ t.errCode = 0#8 ∧ t.errInfo = 0#8 ∧ t.regs = s.regs ∧ t.mem = s.mem

/-- R152: MODMUL leaves emod(OPA · OPB, OPM) in RES0 when OPM > 0, and fails with INVALID_MODULUS(1) when OPM ≤ 0. -/
def Obligations.ModmulResult : Prop :=
  ∀ s : State, s.Inv →
    (0 < s.x .opm → ∃ t, exec .modmul s = .next t ∧ t.x .res0 = (s.x .opa * s.x .opb) % s.x .opm ∧ Completed s t ∧
      SameBut [.res0] s t ∧ t.keyValid = s.keyValid ∧ SameMemory s t ∧ t.env = s.env) ∧
    (s.x .opm ≤ 0 → ∃ t, exec .modmul s = .next t ∧ FailedWith 4#8 1#8 s t ∧ t.env = s.env)

/-- R153: for an odd OPM > 0, MONTMUL leaves emod(OPA · OPB · Rinv, OPM) in RES0, Rinv being the one integer in [0, OPM) with
Rinv · 2^W ≡ 1; it fails with INVALID_MODULUS(1) when OPM ≤ 0 and (2) when OPM > 0 is even. -/
def Obligations.MontmulResult : Prop :=
  ∀ s : State, s.Inv →
    (0 < s.x .opm → s.x .opm % 2 = 1 → ∃ t inv, exec .montmul s = .next t ∧
      (∀ v, (0 ≤ v ∧ v < s.x .opm ∧ v * 2 ^ s.cfg.width % s.x .opm = 1 % s.x .opm) ↔ v = inv) ∧
      t.x .res0 = (s.x .opa * s.x .opb * inv) % s.x .opm ∧ Completed s t ∧ SameBut [.res0] s t ∧
      t.keyValid = s.keyValid ∧ SameMemory s t ∧ t.env = s.env) ∧
    (s.x .opm ≤ 0 → ∃ t, exec .montmul s = .next t ∧ FailedWith 4#8 1#8 s t ∧ t.env = s.env) ∧
    (0 < s.x .opm → s.x .opm % 2 = 0 → ∃ t, exec .montmul s = .next t ∧ FailedWith 4#8 2#8 s t ∧ t.env = s.env)

/-- R154, R150: MODEXP leaves emod(OPA^OPB, OPM) in RES0 when OPM > 0 and OPB ≥ 0; INVALID_MODULUS(1) when OPM ≤ 0, checked
first; NEGATIVE_EXPONENT(0) when OPM > 0 and OPB < 0. -/
def Obligations.ModexpResult : Prop :=
  ∀ s : State, s.Inv →
    (0 < s.x .opm → 0 ≤ s.x .opb → ∃ t, exec .modexp s = .next t ∧
      t.x .res0 = (s.x .opa) ^ (s.x .opb).toNat % s.x .opm ∧ Completed s t ∧ SameBut [.res0] s t ∧
      t.keyValid = s.keyValid ∧ SameMemory s t ∧ t.env = s.env) ∧
    (s.x .opm ≤ 0 → ∃ t, exec .modexp s = .next t ∧ FailedWith 4#8 1#8 s t ∧ t.env = s.env) ∧
    (0 < s.x .opm → s.x .opb < 0 → ∃ t, exec .modexp s = .next t ∧ FailedWith 5#8 0#8 s t ∧ t.env = s.env)

/-! ## The extended-GCD unit (42_numtheory.md) -/

/-- R170, R171, R172: for all operands but (0, 0) and the three pairs whose gcd is 2^(W-1), EGCD leaves in RES0, RES1, RES2 the triple
that R170's recurrence returns, negated if its first is negative. It is g = gcd(|OPA|, |OPB|) with Bézout coefficients, for
(a, 0), (0, b) and a = b those R172 lists. -/
def Obligations.EgcdResult : Prop :=
  ∀ s : State, s.Inv → (s.x .opa ≠ 0 ∨ s.x .opb ≠ 0) →
    ((Int.gcd (s.x .opa) (s.x .opb) : Int) ≠ 2 ^ (s.cfg.width - 1)) →
    ∃ t, exec .egcd s = .next t ∧ t.x .res0 = Int.gcd (s.x .opa) (s.x .opb) ∧
      s.x .opa * t.x .res1 + s.x .opb * t.x .res2 = t.x .res0 ∧
      (∃ g x y, EuclidLoop (s.x .opa) (s.x .opb) 1 0 0 1 (g, x, y) ∧
        (t.x .res0, t.x .res1, t.x .res2) = if g < 0 then (-g, -x, -y) else (g, x, y)) ∧
      (s.x .opb = 0 → t.x .res1 = (s.x .opa).sign ∧ t.x .res2 = 0) ∧
      (s.x .opa = 0 → t.x .res1 = 0 ∧ t.x .res2 = (s.x .opb).sign) ∧
      (s.x .opa = s.x .opb → t.x .res1 = 0 ∧ t.x .res2 = (s.x .opa).sign) ∧
      Completed s t ∧ SameBut [.res0, .res1, .res2] s t ∧ t.keyValid = s.keyValid ∧ SameMemory s t ∧ t.env = s.env

/-- R172, R253: EGCD fails with ARITHMETIC_DOMAIN_ERROR(1) exactly for OPA = OPB = 0, and with (2) exactly for the pairs
(-2^(W-1), 0), (0, -2^(W-1)) and (-2^(W-1), -2^(W-1)). -/
def Obligations.EgcdErrors : Prop :=
  ∀ s : State, s.Inv →
    (s.x .opa = 0 → s.x .opb = 0 → ∃ t, exec .egcd s = .next t ∧ FailedWith 7#8 1#8 s t ∧ t.env = s.env) ∧
    ((s.x .opa = -2 ^ (s.cfg.width - 1) ∧ s.x .opb = 0) ∨ (s.x .opa = 0 ∧ s.x .opb = -2 ^ (s.cfg.width - 1)) ∨
        (s.x .opa = -2 ^ (s.cfg.width - 1) ∧ s.x .opb = -2 ^ (s.cfg.width - 1)) →
      ∃ t, exec .egcd s = .next t ∧ FailedWith 7#8 2#8 s t ∧ t.env = s.env) ∧
    (∀ t, exec .egcd s = .next t → t.errCode = 7#8 → t.errInfo = 1#8 → s.x .opa = 0 ∧ s.x .opb = 0) ∧
    (∀ t, exec .egcd s = .next t → t.errCode = 7#8 → t.errInfo = 2#8 →
      (s.x .opa = -2 ^ (s.cfg.width - 1) ∧ s.x .opb = 0) ∨ (s.x .opa = 0 ∧ s.x .opb = -2 ^ (s.cfg.width - 1)) ∨
        (s.x .opa = -2 ^ (s.cfg.width - 1) ∧ s.x .opb = -2 ^ (s.cfg.width - 1)))

/-- R173, R174: with v = |a · b| in mode 0 and v = lcm(a, b) in mode 1 (a, b not both 0), LCM leaves v in RES0 when it fits, and
fails with ARITHMETIC_DOMAIN_ERROR(2) when it does not; mode 1 with a = b = 0 fails with (1). -/
def Obligations.LcmResult : Prop :=
  ∀ s : State, s.Inv →
    (s.lcmTrue = true → s.x .opa = 0 → s.x .opb = 0 →
      ∃ t, exec .lcm s = .next t ∧ FailedWith 7#8 1#8 s t ∧ t.env = s.env) ∧
    (∀ v : Int, (s.lcmTrue = false ∧ v = |s.x .opa * s.x .opb|) ∨
        (s.lcmTrue = true ∧ (s.x .opa ≠ 0 ∨ s.x .opb ≠ 0) ∧
          v * Int.gcd (s.x .opa) (s.x .opb) = |s.x .opa * s.x .opb|) →
      (v ≤ 2 ^ (s.cfg.width - 1) - 1 → ∃ t, exec .lcm s = .next t ∧ t.x .res0 = v ∧ Completed s t ∧
        SameBut [.res0] s t ∧ t.keyValid = s.keyValid ∧ SameMemory s t ∧ t.env = s.env) ∧
      (2 ^ (s.cfg.width - 1) - 1 < v → ∃ t, exec .lcm s = .next t ∧ FailedWith 7#8 2#8 s t ∧ t.env = s.env))

/-- R175, R176: RANDRANGE leaves tdiv((OPB - OPA) · k, 100) + OPA in RES0 for a drawn k in 0..99, whatever the operands; the
value lies between them, and below OPB when OPA < OPB. -/
def Obligations.RandrangeResult : Prop :=
  ∀ s : State, s.Inv → ∃ t k, exec .randrange s = .next t ∧ k = s.env.drawPercent.1 ∧ k ≤ 99 ∧
    t.x .res0 = Int.tdiv ((s.x .opb - s.x .opa) * k) 100 + s.x .opa ∧
    min (s.x .opa) (s.x .opb) ≤ t.x .res0 ∧ t.x .res0 ≤ max (s.x .opa) (s.x .opb) ∧
    (s.x .opa < s.x .opb → t.x .res0 < s.x .opb) ∧
    Completed s t ∧ SameBut [.res0] s t ∧ t.keyValid = s.keyValid ∧ SameMemory s t ∧ t.env = s.env.after 1

/-! ## The primality engine (43_primality.md) -/

/-- R199 with R192, R198, R210: the bit-length bounds of CANDPRIME, RANDPRIME and KEYGEN, checked before any draw. -/
def Obligations.BitLengthChecks : Prop :=
  ∀ (s : State) (i : Instr) (lo hi : Int),
    (i = .candprime ∧ lo = 1 ∧ hi = s.cfg.width - 1) ∨ (i = .randprime ∧ lo = 2 ∧ hi = s.cfg.width - 1) ∨
      (i = .keygen ∧ lo = 2 ∧ hi = (s.cfg.width - 1) / 2) → s.Inv →
    (s.x .opa < lo → ∃ t, exec i s = .next t ∧ FailedWith 6#8 1#8 s t ∧ t.env = s.env) ∧
    (hi < s.x .opa → ∃ t, exec i s = .next t ∧ FailedWith 6#8 2#8 s t ∧ t.env = s.env)

/-- R191, R192: one iteration of CANDPRIME draws c of exactly b bits. c odd or below 4 completes the command with RES0 = c; an
even c from 4 on is a rejection of loop 1 (R190), in which case the command fails with GENERATION_TIMEOUT(1) or goes on. -/
def Obligations.CandprimeIteration : Prop :=
  ∀ s : State, s.Inv → 1 ≤ s.x .opa → s.x .opa ≤ s.cfg.width - 1 →
    let c := (s.env.drawBits (s.x .opa).toNat).1
    ∃ t, exec .candprime s = .next t ∧ t.env = s.env.after 1 ∧
      2 ^ ((s.x .opa).toNat - 1) ≤ c ∧ c ≤ 2 ^ (s.x .opa).toNat - 1 ∧
      (c % 2 = 1 ∨ c < 4 → t.x .res0 = c ∧ Completed s t ∧ SameBut [.res0] s t ∧ t.keyValid = s.keyValid ∧
        SameMemory s t) ∧
      (c % 2 = 0 → 4 ≤ c → Rejects 1#8 .start s t)

/-- R193, R194, R196: MRTEST gives 0 for n ≤ 1 and 1 for n = 2, with no draw. For n ≥ 3 it draws a fresh base in [2, n) per round:
1 after 20 inconclusive rounds, 0 at the first witness, with no draw after it. -/
def Obligations.MrtestVerdict : Prop :=
  ∀ s : State, s.Inv →
    ∃ t, exec .mrtest s = .next t ∧ Completed s t ∧ SameBut [.res0] s t ∧ t.keyValid = s.keyValid ∧ SameMemory s t ∧
      (s.x .opa ≤ 1 → t.x .res0 = 0 ∧ t.env = s.env) ∧
      (s.x .opa = 2 → t.x .res0 = 1 ∧ t.env = s.env) ∧
      (3 ≤ s.x .opa →
        (∀ j, 2 ≤ baseAt s.env (s.x .opa) j ∧ baseAt s.env (s.x .opa) j < s.x .opa) ∧
        ((∀ j, j < 20 → Inconclusive (s.x .opa) (baseAt s.env (s.x .opa) j)) →
          t.x .res0 = 1 ∧ t.env = s.env.after 20) ∧
        (∀ j, j < 20 → ¬Inconclusive (s.x .opa) (baseAt s.env (s.x .opa) j) →
          (∀ k, k < j → Inconclusive (s.x .opa) (baseAt s.env (s.x .opa) k)) →
          t.x .res0 = 0 ∧ t.env = s.env.after (j + 1)))

/-- R195: for a prime n, MRTEST's verdict is 1 whatever is drawn. -/
def Obligations.MrtestPrimeAlwaysOne : Prop :=
  ∀ s : State, s.Inv → (s.x .opa).toNat.Prime →
    ∃ t, exec .mrtest s = .next t ∧ t.x .res0 = 1 ∧ Completed s t

/-- R195: for n = 4, which has no strong liar, MRTEST's verdict is 0 whatever is drawn. -/
def Obligations.MrtestFourAlwaysZero : Prop :=
  ∀ s : State, s.Inv → s.x .opa = 4 →
    ∃ t, exec .mrtest s = .next t ∧ t.x .res0 = 0 ∧ Completed s t ∧ t.env = s.env.after 1

/-- R197, R198: one iteration of RANDPRIME draws a candidate c of exactly b bits. An even c from 4 on is a rejection of loop 1, a
c that IsProbablyPrime finds composite one of loop 2; else the command completes with RES0 = c. -/
def Obligations.RandprimeIteration : Prop :=
  ∀ s : State, s.Inv → 2 ≤ s.x .opa → s.x .opa ≤ s.cfg.width - 1 →
    let c := (s.env.drawBits (s.x .opa).toNat).1
    let v := isProbablyPrime c (s.env.after 1)
    ∃ t, exec .randprime s = .next t ∧ 2 ^ ((s.x .opa).toNat - 1) ≤ c ∧ c ≤ 2 ^ (s.x .opa).toNat - 1 ∧
      (c % 2 = 0 → 4 ≤ c → Rejects 1#8 .start s t ∧ t.env = s.env.after 1) ∧
      (c % 2 = 1 ∨ c < 4 → v.1 = false → Rejects 2#8 .start s t ∧ t.env = v.2) ∧
      (c % 2 = 1 ∨ c < 4 → v.1 = true → t.x .res0 = c ∧ Completed s t ∧ SameBut [.res0] s t ∧
        t.keyValid = s.keyValid ∧ SameMemory s t ∧ t.env = v.2)

/-! ## The key generator (44_keygen.md) -/

/-- R212: one iteration of KEYGEN's two prime searches: rejections of loops 1 and 2, and a found prime leads to the search for q,
then to n = p · q, λ (|(p-1)(q-1)| in mode 0, their lcm in mode 1) and the exponent search. -/
def Obligations.KeygenPrimeSearch : Prop :=
  ∀ s : State, s.Inv → 2 ≤ s.x .opa → s.x .opa ≤ (s.cfg.width - 1) / 2 →
    let c := (s.env.drawBits (s.x .opa).toNat).1
    let v := isProbablyPrime c (s.env.after 1)
    (s.prog.phase = .start ∨ ∃ p, s.prog.phase = .keygenQ p) →
    ∃ t, exec .keygen s = .next t ∧
      (c % 2 = 0 → 4 ≤ c → Rejects 1#8 s.prog.phase s t ∧ t.env = s.env.after 1) ∧
      (c % 2 = 1 ∨ c < 4 → v.1 = false → Rejects 2#8 s.prog.phase s t ∧ t.env = v.2) ∧
      (c % 2 = 1 ∨ c < 4 → v.1 = true → t.env = v.2 ∧
        (s.prog.phase = .start → Advances (.keygenQ c) s t) ∧
        (∀ p, s.prog.phase = .keygenQ p → ∃ lam : Int,
          (s.lcmTrue = false → lam = |(p - 1) * (c - 1)|) ∧
          (s.lcmTrue = true → lam * Int.gcd (p - 1) (c - 1) = |(p - 1) * (c - 1)|) ∧
          Advances (.keygenE (p * c) lam) s t))

/-- R211, R212, R213, R216: when the drawn exponent e = 3 + floor(65535 · k / 100) has e < λ and gcd(e, λ) = 1, KEYGEN completes with
n, e, d, λ in RES0 to RES3, the key registers loaded and KEYVALID = 0b111; 1 ≤ d < λ and e · d mod λ = 1. -/
def Obligations.KeygenCompletes : Prop :=
  ∀ (s : State) (n lam : Int), s.Inv → s.prog.phase = .keygenE n lam →
    let e : Int := 3 + 65535 * s.env.drawPercent.1 / 100
    e < lam → Int.gcd e lam = 1 →
    ∃ t, exec .keygen s = .next t ∧ t.env = s.env.after 1 ∧
      t.x .res0 = n ∧ t.x .res1 = e ∧ t.x .res3 = lam ∧ 1 ≤ t.x .res2 ∧ t.x .res2 < lam ∧
      e * t.x .res2 % lam = 1 ∧
      t.x .keyN = n ∧ t.x .keyE = e ∧ t.x .keyD = t.x .res2 ∧ t.keyValid = 7#3 ∧
      Completed s t ∧ SameBut [.res0, .res1, .res2, .res3, .keyN, .keyE, .keyD] s t ∧ SameMemory s t

/-- R211: a drawn exponent with e ≥ λ or gcd(e, λ) ≠ 1 is a rejection of loop 3. -/
def Obligations.KeygenExponentRejected : Prop :=
  ∀ (s : State) (n lam : Int), s.Inv → s.prog.phase = .keygenE n lam →
    let e : Int := 3 + 65535 * s.env.drawPercent.1 / 100
    (lam ≤ e ∨ Int.gcd e lam ≠ 1) →
    ∃ t, exec .keygen s = .next t ∧ t.env = s.env.after 1 ∧ Rejects 3#8 (.keygenE n lam) s t

/-- R210, R213: KEYGEN never fails with ARITHMETIC_DOMAIN_ERROR; its only errors are INVALID_LENGTH and GENERATION_TIMEOUT. -/
def Obligations.KeygenErrors : Prop :=
  ∀ s t : State, s.Inv → exec .keygen s = .next t → t.err = true → s.err = false → t.errCode = 6#8 ∨ t.errCode = 8#8

/-- R290, R213, U24: with ITER_CAP = 0 and a λ for which no exponent is acceptable (such as λ ≤ 3, or λ = 780 of p = 61, q = 53 with
LCM_TRUE = 1), the engine stays Busy in the exponent search however long it runs. -/
def Obligations.KeygenStuckWithoutExponent : Prop :=
  (∀ lam : Int, lam ≤ 3 → NoExponent lam) ∧ NoExponent 780 ∧
  ∀ (s : State) (n lam : Int), s.Inv → s.env.events = [] → s.prog.phase = .keygenE n lam → NoExponent lam →
    s.iterCap = 0#32 → ∀ k, ∃ t, Host.Core.run core k s = .next t ∧ t.busy = true ∧ t.prog.phase = .keygenE n lam

/-- R214, R215: KEYDIGITS leaves in RES0 the least k ≥ 1 with 2^b < 10^k, for b = OPA ≥ 0; it fails with INVALID_LENGTH(1) for b < 0. -/
def Obligations.KeydigitsResult : Prop :=
  ∀ s : State, s.Inv →
    (0 ≤ s.x .opa → ∃ t, ∃ k : Nat, exec .keydigits s = .next t ∧ t.x .res0 = k ∧ 1 ≤ k ∧
      2 ^ (s.x .opa).toNat < 10 ^ k ∧ (∀ j, 1 ≤ j → 2 ^ (s.x .opa).toNat < 10 ^ j → k ≤ j) ∧
      Completed s t ∧ SameBut [.res0] s t ∧ t.keyValid = s.keyValid ∧ SameMemory s t ∧ t.env = s.env) ∧
    (s.x .opa < 0 → ∃ t, exec .keydigits s = .next t ∧ FailedWith 6#8 1#8 s t ∧ t.env = s.env)

/-! ## The cipher datapath (45_cipher.md) -/

/-- R231: with the key present, L ≤ MAXLEN, n > 0, e ≥ 0 and MSG[0..L-1] written, ENCRYPT completes with CT[i] = MSG[i]^e mod n for
i < L, and changes no byte outside CT[0..L-1]. -/
def Obligations.EncryptResult : Prop :=
  ∀ s : State, s.Inv → s.keyValid &&& 5#3 = 5#3 → s.msgLen.toNat ≤ s.cfg.maxLen → 0 < s.x .keyN → 0 ≤ s.x .keyE →
    messageWritten s →
    ∃ t, exec .encrypt s = .next t ∧ Completed s t ∧
      (∀ i m, i < s.msgLen.toNat → s.msgByte i = .ok m →
        ctIs t i ((m.toNat : Int) ^ (s.x .keyE).toNat % s.x .keyN)) ∧
      (∀ a, ¬inCiphertext s a → t.mem.read a = s.mem.read a) ∧
      SameBut [] s t ∧ t.keyValid = s.keyValid ∧ t.env = s.env

/-- R232: with the key present, L ≤ MAXLEN, n > 0, d ≥ 0 and CT[0..L-1] written, DECRYPT completes with MSG[i] = (CT[i]^d mod n) mod 256
for i < L, and changes no byte outside MSG[0..L-1]. -/
def Obligations.DecryptResult : Prop :=
  ∀ s : State, s.Inv → s.keyValid &&& 6#3 = 6#3 → s.msgLen.toNat ≤ s.cfg.maxLen → 0 < s.x .keyN → 0 ≤ s.x .keyD →
    ciphertextWritten s →
    ∃ t, exec .decrypt s = .next t ∧ Completed s t ∧
      (∀ i c, i < s.msgLen.toNat → ctIs s i c →
        ∃ b, t.msgByte i = .ok b ∧ (b.toNat : Int) = c ^ (s.x .keyD).toNat % s.x .keyN % 256) ∧
      (∀ a, ¬inMessage s a → t.mem.read a = s.mem.read a) ∧
      SameBut [] s t ∧ t.keyValid = s.keyValid ∧ t.env = s.env

/-- R230, R256: the checks of ENCRYPT (key register KEY_E, KEYVALID mask 5) and DECRYPT (KEY_D, mask 6), in order, each before any
element is read: missing key material with the mask of the missing bits, MSGLEN > MAXLEN, modulus ≤ 0, exponent < 0. -/
def Obligations.CipherChecksInOrder : Prop :=
  ∀ (s : State) (i : Instr) (key : BigReg) (need : BitVec 3), s.Inv →
    (i = .encrypt ∧ key = .keyE ∧ need = 5#3) ∨ (i = .decrypt ∧ key = .keyD ∧ need = 6#3) →
    (need &&& ~~~s.keyValid ≠ 0#3 →
      ∃ t, exec i s = .next t ∧ FailedWith 3#8 ((need &&& ~~~s.keyValid).setWidth 8) s t ∧ t.env = s.env) ∧
    (need &&& ~~~s.keyValid = 0#3 → s.cfg.maxLen < s.msgLen.toNat →
      ∃ t, exec i s = .next t ∧ FailedWith 6#8 3#8 s t ∧ t.env = s.env) ∧
    (need &&& ~~~s.keyValid = 0#3 → s.msgLen.toNat ≤ s.cfg.maxLen → s.x .keyN ≤ 0 →
      ∃ t, exec i s = .next t ∧ FailedWith 4#8 1#8 s t ∧ t.env = s.env) ∧
    (need &&& ~~~s.keyValid = 0#3 → s.msgLen.toNat ≤ s.cfg.maxLen → 0 < s.x .keyN → s.x key < 0 →
      ∃ t, exec i s = .next t ∧ FailedWith 5#8 0#8 s t ∧ t.env = s.env)

/-- U9 with R231, R232: a cipher command that passes its checks faults exactly when an element it would read was never written. Which
byte the fault names is the model's own (log 7): the first unwritten one of that input. -/
def Obligations.CipherUnwrittenInputFaults : Prop :=
  ∀ s : State, s.Inv → s.msgLen.toNat ≤ s.cfg.maxLen → 0 < s.x .keyN →
    (s.keyValid &&& 5#3 = 5#3 → 0 ≤ s.x .keyE →
      ((∃ f, exec .encrypt s = .fault f) ↔ ¬messageWritten s) ∧
      ∀ f, exec .encrypt s = .fault f → ∃ a, f = .unwrittenRead a ∧ inMessage s a ∧ s.mem.read a = none ∧
        ∀ b, inMessage s b → b < a → (s.mem.read b).isSome) ∧
    (s.keyValid &&& 6#3 = 6#3 → 0 ≤ s.x .keyD →
      ((∃ f, exec .decrypt s = .fault f) ↔ ¬ciphertextWritten s) ∧
      ∀ f, exec .decrypt s = .fault f → ∃ a, f = .unwrittenRead a ∧ inCiphertext s a ∧ s.mem.read a = none ∧
        ∀ b, inCiphertext s b → b < a → (s.mem.read b).isSome)

/-- R233: with n = p · q for distinct primes and e · d ≡ 1 modulo a multiple of lcm(p-1, q-1), ENCRYPT followed by DECRYPT restores
every message byte below n. Between them the host may read, and write STATUS: so DONE, ERR, WWB and the surroundings are
any. -/
def Obligations.CipherRoundTrip : Prop :=
  ∀ (s : State) (p q lam : Nat), s.Inv → s.keyValid = 7#3 → s.msgLen.toNat ≤ s.cfg.maxLen → messageWritten s →
    p.Prime → q.Prime → p ≠ q → s.x .keyN = p * q → 0 ≤ s.x .keyE → 0 ≤ s.x .keyD →
    (p - 1).lcm (q - 1) ∣ lam → s.x .keyE * s.x .keyD % lam = 1 % lam →
    (∀ i m, i < s.msgLen.toNat → s.msgByte i = .ok m → (m.toNat : Int) < s.x .keyN) →
    ∃ t, exec .encrypt s = .next t ∧ ∀ (d e w : Bool) (env : Env),
      let t' := ({ t with done := d, err := e, wwb := w, env := env } : State).issue 0x0000000D#32
      ∃ u, exec .decrypt t' = .next u ∧ Completed t' u ∧ ∀ i, i < s.msgLen.toNat → u.msgByte i = s.msgByte i

/-! ## Rules over all commands -/

/-- R134, R250, R254: whatever command ends in an error commits nothing: no register, KEYVALID bit or buffer byte changes, and the
error is a pair of R251 and R252. -/
def Obligations.ErrorCommitsNothing : Prop :=
  ∀ (i : Instr) (s t : State), exec i s = .next t → s.err = false → t.err = true →
    FailedWith t.errCode t.errInfo s t ∧ errorPairOk t.errCode.toNat t.errInfo.toNat = true ∧ t.errCode ≠ 0#8

/-- R93, R136: an engine step that does not complete its command changes nothing the host can read, and only the commands with an
unbounded loop have one. -/
def Obligations.UnfinishedStepIsInvisible : Prop :=
  ∀ (i : Instr) (s t : State), s.busy = true → exec i s = .next t → t.busy = true →
    GoesOn s t ∧ (i = .candprime ∨ i = .randprime ∨ i = .keygen) ∧
      ∀ a, t.readLoc (locate t.cfg a) = s.readLoc (locate s.cfg a)

/-- R43, R45, R114, D50: a command writes no big register outside its row of R114, KEYVALID only in KEYGEN, and no byte of memory but
CT[0..L-1] in ENCRYPT and MSG[0..L-1] in DECRYPT. -/
def Obligations.CommandWritesOnlyItsTargets : Prop :=
  ∀ (i : Instr) (s t : State), s.Inv → exec i s = .next t →
    SameBut (resultRegs i) s t ∧ (i ≠ .keygen → t.keyValid = s.keyValid) ∧
      ∀ a, ¬mayWrite i s a → t.mem.read a = s.mem.read a

/-- D10, U9: an engine step never refuses, and it faults only in ENCRYPT or DECRYPT, on an unwritten byte of the input. -/
def Obligations.OnlyUnwrittenInputStops : Prop :=
  ∀ (i : Instr) (s : State), (∃ t, exec i s = .next t) ∨
    ∃ a, exec i s = .fault (.unwrittenRead a) ∧ s.mem.read a = none ∧
      ((i = .encrypt ∧ inMessage s a) ∨ (i = .decrypt ∧ inCiphertext s a))

/-- R190, R257, R290: with ITER_CAP = c ≠ 0, a running command completes, or stops at an unwritten byte of its input. That c + 2 engine
steps are enough is the model's choice of a step (log 5); R132 and R291 leave the number of engine steps open. -/
def Obligations.IterCapBoundsEveryCommand : Prop :=
  ∀ s : State, s.Inv → s.env.events = [] → s.busy = true → s.iterCap ≠ 0#32 →
    ∃ k, k ≤ s.iterCap.toNat + 2 ∧
      ((∃ t, Host.Core.run core k s = .next t ∧ t.eng = .idle ∧ t.done = true) ∨
        ∃ a, Host.Core.run core k s = .fault (.unwrittenRead a) ∧ s.mem.read a = none ∧ (inMessage s a ∨ inCiphertext s a))

/-- Every step of the machine, whether the host's, the engine's or a reset, keeps the invariant. -/
def Obligations.StepKeepsInvariant : Prop :=
  ∀ s t : State, s.Inv → step s = .next t → t.Inv

/-- The invariant holds after reset in every legal build; `State.reset` is the reference build's, which is the model's choice
(log 1), with no input fixed (log 2, log 3). -/
def Obligations.ResetHasInvariant : Prop :=
  State.reset = State.resetOf ⟨2, 64⟩ ⟨[], [], [], 0⟩ ∧ State.reset.Inv ∧ ∀ (p : Params) (e : Env), p.wf = true → (State.resetOf p e).Inv

/-- P6 of 95_test_vectors.md with R132, R135, R291: a write racing a NOP has both allowed end states, by who moves first. -/
def Obligations.WriteRacesNop : Prop :=
  (∃ t, Host.Core.run core 3 (State.reset.withEvents [writeEvent 0x000010 0#32, .engine, writeEvent 0x000400 5#32]) =
      .next t ∧ t.x .opa = 5 ∧ t.statusWord = 0x2#32) ∧
    ∃ t, Host.Core.run core 3 (State.reset.withEvents [writeEvent 0x000010 0#32, writeEvent 0x000400 5#32, .engine]) =
      .next t ∧ t.x .opa = 0 ∧ t.statusWord = 0xA#32

/-! ## Accesses of an Idle block, and RDBIG -/

/-- R80, R137: while Idle, a legal write is acknowledged and does to the block what a store at its address does (what that is, each
statement about `store` says); nothing else happens. -/
def Obligations.WriteWhileIdle : Prop :=
  ∀ (s : State) (addr : Addr) (v : Word) (es : List Event), s.eng = .idle → addr.toNat % 4 = 0 →
    s.env.events = .access (.write addr 4 v) :: es →
    step s = .next { s.store addr.toNat v with
      env := { s.env with events := es, responses := .ack :: s.env.responses } }

/-- R118: RDBIG's bus reads, in any state, change nothing and answer NW words, and the value it names, formed from those answers, is
`x[REG]`. -/
def Obligations.RdbigNamesValue : Prop :=
  ∀ (s : State) (r : BigReg) (name : String) (es : List Event), s.Inv →
    s.env.events = HostLine.expand s.cfg (.rdBig r name) ++ es →
    ∃ answers : List Response, HostLine.bindings s.cfg (.rdBig r name) answers = some ([(name, s.x r)], []) ∧
      Host.Core.run core s.cfg.nw s =
        .next { s with env := { s.env with events := es, responses := answers.reverse ++ s.env.responses } }
end

