-- ==== Sys2Proof/Laws/Words.lean ====
section
/-!
SUPPORT. What the bus-word form of a big register says: lengths, the round trip of `enc` and `sint` (R11, R12), the range
of `sint`, and the division primitives (R13) as the library's.
-/
namespace Sys2Proof.Machine

@[simp] theorem length_wordsOf (n v : Nat) : (wordsOf n v).length = n := by
  induction n generalizing v with
  | zero => rfl
  | succ n ih => simp [wordsOf, ih]

@[simp] theorem length_enc (nw : Nat) (v : Int) : (enc nw v).length = nw := length_wordsOf _ _

theorem uval_lt (ws : List Word) : uval ws < 2 ^ (32 * ws.length) := by
  induction ws with
  | nil => simp [uval]
  | cons w ws ih =>
    have hw := w.isLt
    have e : 2 ^ (32 * (w :: ws).length) = 2 ^ 32 * 2 ^ (32 * ws.length) := by
      rw [← pow_add]; congr 1; simp; ring
    rw [e, uval]
    have := Nat.mul_le_mul_left (2 ^ 32) ih
    omega

theorem uval_wordsOf (n v : Nat) : uval (wordsOf n v) = v % 2 ^ (32 * n) := by
  induction n generalizing v with
  | zero => simp [wordsOf, uval, Nat.mod_one]
  | succ n ih =>
    have e : 2 ^ (32 * (n + 1)) = 2 ^ 32 * 2 ^ (32 * n) := by rw [← pow_add]; congr 1; ring
    rw [wordsOf, uval, ih, BitVec.toNat_ofNat, e, Nat.mod_mul]

theorem uval_enc (nw : Nat) (v : Int) : (uval (enc nw v) : Int) = v % 2 ^ (32 * nw) := by
  have hp : (0 : Int) < 2 ^ (32 * nw) := by positivity
  have h0 := Int.emod_nonneg v hp.ne'
  have h1 := Int.emod_lt_of_pos v hp
  rw [enc, uval_wordsOf, Nat.mod_eq_of_lt]
  · exact Int.toNat_of_nonneg h0
  · zify; rw [Int.toNat_of_nonneg h0]; exact h1

theorem uval_append (a b : List Word) : uval (a ++ b) = uval a + 2 ^ (32 * a.length) * uval b := by
  induction a with
  | nil => simp [uval]
  | cons w a ih =>
    simp only [List.cons_append, uval, ih, List.length_cons]
    have e : 2 ^ (32 * (a.length + 1)) = 2 ^ 32 * 2 ^ (32 * a.length) := by rw [← pow_add]; congr 1; ring
    rw [e]; ring

theorem uval_replicate_zero (n : Nat) : uval (List.replicate n 0#32) = 0 := by
  induction n with
  | zero => rfl
  | succ n ih => simp [List.replicate_succ, uval, ih]

@[simp] theorem sint_replicate_zero (n : Nat) : sint (List.replicate n 0#32) = 0 := by
  simp [sint, uval_replicate_zero]

/-- `sint_W` lies in [-2^(W-1), 2^(W-1) - 1] (R11). -/
theorem sint_range (ws : List Word) (h : ws ≠ []) :
    -2 ^ (32 * ws.length - 1) ≤ sint ws ∧ sint ws ≤ 2 ^ (32 * ws.length - 1) - 1 := by
  have hl : 0 < 32 * ws.length := by
    have := List.length_pos_iff.2 h; omega
  obtain ⟨k, hk⟩ : ∃ k, 32 * ws.length = k + 1 := ⟨32 * ws.length - 1, by omega⟩
  have hu := uval_lt ws
  have hlt : (uval ws : Int) < 2 ^ (k + 1) := by rw [← hk]; exact_mod_cast hu
  have h0 : (0 : Int) ≤ uval ws := Int.natCast_nonneg _
  unfold sint
  rw [hk, pow_succ] at *
  simp only [Nat.add_sub_cancel]
  split
  · next hc =>
    have : 2 * (uval ws : Int) < 2 ^ (k + 1) := by exact_mod_cast hc
    rw [pow_succ] at this
    constructor <;> linarith
  · next hc =>
    have : (2 : Int) ^ (k + 1) ≤ 2 * (uval ws : Int) := by exact_mod_cast not_lt.1 hc
    rw [pow_succ] at this ⊢
    constructor <;> linarith

theorem fits_iff (w : Nat) (v : Int) : fits w v = true ↔ -2 ^ (w - 1) ≤ v ∧ v ≤ 2 ^ (w - 1) - 1 := by
  simp [fits]

/-- Writing a value that fits and reading it back gives the value (R11, R12). -/
theorem sint_enc (nw : Nat) (v : Int) (hn : 0 < nw) (h : fits (32 * nw) v = true) : sint (enc nw v) = v := by
  obtain ⟨k, hk⟩ : ∃ k, 32 * nw = k + 1 := ⟨32 * nw - 1, by omega⟩
  rw [fits_iff, hk, Nat.add_sub_cancel] at h
  have hu := uval_enc nw v
  have hp : (0 : Int) < 2 ^ k := by positivity
  unfold sint
  simp only [length_enc, hk] at hu ⊢
  rw [pow_succ] at hu
  by_cases h0 : 0 ≤ v
  · have hm : v % (2 ^ k * 2) = v := Int.emod_eq_of_lt h0 (by linarith [h.2])
    rw [hm] at hu
    rw [if_pos]
    · exact hu
    · zify; rw [hu, pow_succ]; linarith [h.2]
  · have hm : v % (2 ^ k * 2) = v + 2 ^ k * 2 := by
      rw [← Int.add_emod_right, Int.emod_eq_of_lt] <;> linarith [h.1]
    rw [hm] at hu
    rw [if_neg]
    · rw [hu, pow_succ]; ring
    · zify; rw [hu, pow_succ]; linarith [h.1]

/-! ## Division primitives -/

theorem tmod_eq (a b : Int) : tmod a b = Int.tmod a b := by
  unfold tmod tdiv
  have := Int.mul_tdiv_add_tmod a b
  linarith

/-- The Euclidean residue of R13 is the library's. -/
theorem emod_eq (a m : Int) (h : 0 < m) : emod a m = a % m := by
  unfold emod
  rw [tmod_eq]
  have hs := Int.tmod_eq_emod (a := a) (b := m)
  have h0 := Int.emod_nonneg a h.ne'
  have h1 := Int.emod_lt_of_pos a h
  have hm : (m.natAbs : Int) = m := Int.natAbs_of_nonneg h.le
  split at hs
  · rw [hs]; simp [h0]
  · rw [hs, hm]; rw [if_neg (by linarith)]; ring

theorem tdiv_nonneg_eq (a b : Int) (ha : 0 ≤ a) : tdiv a b = a / b := Int.tdiv_eq_ediv_of_nonneg ha

/-! ## Words of a register -/

theorem length_set_word (ws : List Word) (j : Nat) (v : Word) : (ws.set j v).length = ws.length := by simp

theorem getD_set_word (ws : List Word) (j k : Nat) (v : Word) (h : j < ws.length) :
    (ws.set j v).getD k 0#32 = if k = j then v else ws.getD k 0#32 := by
  simp only [List.getD_eq_getElem?_getD, List.getElem?_set]
  split
  · next e => subst e; simp
  · next e => rw [if_neg (fun h' => e h'.symm)]

/-- Word j holds bits [32j+31:32j] of the register (R48). -/
theorem getD_eq_uval (ws : List Word) (j : Nat) : (ws.getD j 0#32).toNat = uval ws / 2 ^ (32 * j) % 2 ^ 32 := by
  induction ws generalizing j with
  | nil => simp [uval]
  | cons w ws ih =>
    have hw := w.isLt
    cases j with
    | zero => rw [List.getD_cons_zero, uval, Nat.mul_zero, pow_zero, Nat.div_one, Nat.add_mul_mod_self_left, Nat.mod_eq_of_lt hw]
    | succ j =>
      have e : 2 ^ (32 * (j + 1)) = 2 ^ 32 * 2 ^ (32 * j) := by rw [← pow_add]; congr 1; ring
      have h2 : (w.toNat + 2 ^ 32 * uval ws) / 2 ^ 32 = uval ws := by omega
      rw [List.getD_cons_succ, ih, uval, e, ← Nat.div_div_eq_div_mul, h2]

/-! ## Byte lanes -/

@[simp] theorem ofLanes_lane (w : Word) : ofLanes (lane w 0) (lane w 1) (lane w 2) (lane w 3) = w := by
  unfold ofLanes lane
  ext i hi
  simp only [BitVec.getElem_append, BitVec.getElem_extractLsb']
  by_cases h1 : i < 8
  · simp [h1, BitVec.getLsbD_eq_getElem, hi]
  · by_cases h2 : i < 16
    · have : i - 8 < 8 := by omega
      simp [h1, this]
      rw [show 8 + (i - 8) = i by omega, BitVec.getLsbD_eq_getElem hi]
    · by_cases h3 : i < 24
      · have a1 : ¬ i - 8 < 8 := by omega
        have a2 : i - 8 - 8 < 8 := by omega
        simp [h1, a1, a2]
        rw [show 16 + (i - 8 - 8) = i by omega, BitVec.getLsbD_eq_getElem hi]
      · have a1 : ¬ i - 8 < 8 := by omega
        have a2 : ¬ i - 8 - 8 < 8 := by omega
        simp [h1, a1, a2]
        rw [show 24 + (i - 8 - 8 - 8) = i by omega, BitVec.getLsbD_eq_getElem hi]

end Sys2Proof.Machine
end

