-- ==== Sys2Proof/Laws/Arith.lean ====
section
/-!
SUPPORT. One spec lemma per arithmetic function: ModPow (R150), the Montgomery inverse (R153), the extended GCD
(R170, R171), the draws (R50), the decomposition and the round of Miller–Rabin (R193), and KeyDigits (R214).
Each shows that the bound on the function's iterations is never reached (log 10).
-/
namespace Sys2Proof.Machine

/-! ## ModPow -/

theorem modPowLoop_eq {m : Int} (hm : 0 < m) (fuel : Nat) :
    ∀ (exp : Nat) (b r : Int), exp < 2 ^ fuel → 0 ≤ r → r < m → modPowLoop m fuel exp b r = r * b ^ exp % m := by
  induction fuel with
  | zero =>
    intro exp b r he h0 h1
    have : exp = 0 := by simpa using he
    subst this
    simp [modPowLoop, Int.emod_eq_of_lt h0 h1]
  | succ fuel ih =>
    intro exp b r he h0 h1
    unfold modPowLoop
    by_cases hz : exp = 0
    · simp [hz, Int.emod_eq_of_lt h0 h1]
    · rw [if_neg hz]
      have he' : exp / 2 < 2 ^ fuel := by rw [pow_succ] at he; omega
      have hbb : ∀ k : Nat, (emod (b * b) m) ^ k % m = (b * b) ^ k % m := fun k => by
        rw [emod_eq _ _ hm]; exact (Int.mod_modEq _ _).pow k
      have hpow : ∀ (c : Int) (k : Nat), c * (emod (b * b) m) ^ k % m = c * (b * b) ^ k % m := fun c k => by
        rw [Int.mul_emod, hbb, ← Int.mul_emod]
      by_cases hodd : exp % 2 = 1
      · rw [if_pos hodd, emod_eq (r * b) m hm,
          ih _ _ _ he' (Int.emod_nonneg _ hm.ne') (Int.emod_lt_of_pos _ hm), hpow]
        have e : exp = 2 * (exp / 2) + 1 := by omega
        conv_rhs => rw [e]
        rw [Int.mul_emod, Int.emod_emod, ← Int.mul_emod]
        congr 1
        rw [pow_succ, pow_mul]; ring
      · rw [if_neg hodd, ih _ _ _ he' h0 h1, hpow]
        have e : exp = 2 * (exp / 2) := by omega
        conv_rhs => rw [e]
        rw [pow_mul, sq]

/-- ModPow is base^exp mod m, in [0, m) (R150). -/
theorem modPow_eq (base : Int) (exp : Nat) {m : Int} (hm : 0 < m) : modPow base exp m = base ^ exp % m := by
  unfold modPow
  rw [emod_eq 1 m hm, modPowLoop_eq hm _ _ _ _ Nat.lt_log2_self (Int.emod_nonneg _ hm.ne') (Int.emod_lt_of_pos _ hm),
    emod_eq _ _ hm, Int.mul_emod, Int.emod_emod, ((Int.mod_modEq base m).pow exp : _ % m = _ % m), ← Int.mul_emod,
    one_mul]

theorem modPow_nonneg (base : Int) (exp : Nat) {m : Int} (hm : 0 < m) : 0 ≤ modPow base exp m := by
  rw [modPow_eq _ _ hm]; exact Int.emod_nonneg _ hm.ne'

theorem modPow_lt (base : Int) (exp : Nat) {m : Int} (hm : 0 < m) : modPow base exp m < m := by
  rw [modPow_eq _ _ hm]; exact Int.emod_lt_of_pos _ hm

/-! ## The Montgomery inverse -/

/-- `montInverse w m` inverts 2^w modulo an odd m > 0 (R153). -/
theorem montInverse_spec (w : Nat) {m : Int} (hm : 0 < m) (hodd : m % 2 = 1) :
    montInverse w m * 2 ^ w % m = 1 % m := by
  unfold montInverse
  rw [modPow_eq _ _ hm, Int.mul_emod, Int.emod_emod, ← Int.mul_emod, ← mul_pow]
  have h2 : tdiv (m + 1) 2 * 2 = m + 1 := by
    rw [tdiv_nonneg_eq _ _ (by omega)]; omega
  rw [h2]
  have : (m + 1) ≡ 1 [ZMOD m] := by simp [Int.ModEq]
  have h1 := this.pow w
  rwa [one_pow] at h1

theorem montInverse_range (w : Nat) {m : Int} (hm : 0 < m) : 0 ≤ montInverse w m ∧ montInverse w m < m :=
  ⟨modPow_nonneg _ _ hm, modPow_lt _ _ hm⟩

/-! ## The extended GCD -/

theorem natAbs_sub_tdiv_lt (a : Int) {b : Int} (hb : b ≠ 0) : (a - tdiv a b * b).natAbs < b.natAbs := by
  have h : a - tdiv a b * b = Int.tmod a b := by rw [← tmod_eq]; unfold tmod; ring
  rw [h, Int.natAbs_tmod]
  exact Nat.mod_lt _ (Int.natAbs_pos.2 hb)

/-- What the loop of ExtGcdRaw keeps (R170): both Bézout equations and the gcd; it ends before its bound. -/
theorem extGcdLoop_spec (a b : Int) (fuel : Nat) :
    ∀ (oldR r oldS s oldT t : Int), r.natAbs < fuel → a * oldS + b * oldT = oldR → a * s + b * t = r →
      ∀ g x y, extGcdLoop fuel oldR r oldS s oldT t = (g, x, y) →
        a * x + b * y = g ∧ g.natAbs = Int.gcd oldR r := by
  induction fuel with
  | zero => intro oldR r oldS s oldT t h; omega
  | succ fuel ih =>
    intro oldR r oldS s oldT t hf h1 h2 g x y he
    unfold extGcdLoop at he
    split at he
    · next hr => injection he with e1 e2; injection e2 with e2 e3; subst e1 e2 e3 hr; simp [h1]
    · next hr =>
      have hlt := natAbs_sub_tdiv_lt oldR hr
      have := ih _ _ _ _ _ _ (by omega) h2 (by rw [← h1, ← h2]; ring) g x y he
      refine ⟨this.1, ?_⟩
      rw [this.2, Int.gcd_comm, Int.gcd_sub_mul_right_left]

/-- ExtGcdRaw's results satisfy a·x + b·y = g and |g| = gcd(a, b) (R170). -/
theorem extGcdRaw_spec (a b : Int) {g x y : Int} (h : extGcdRaw a b = (g, x, y)) :
    a * x + b * y = g ∧ g.natAbs = Int.gcd a b :=
  extGcdLoop_spec a b _ a b 1 0 0 1 (by omega) (by ring) (by ring) g x y h

/-- ExtGcd fails exactly on (0, 0) (R171). -/
theorem extGcd_eq_none (a b : Int) : extGcd a b = none ↔ a = 0 ∧ b = 0 := by
  unfold extGcd
  by_cases h : a = 0 ∧ b = 0
  · simp [h]
  · rw [if_neg h]; simp only [h, iff_false]; split <;> simp

/-- ExtGcd's results satisfy a·x + b·y = g = gcd(|a|, |b|) > 0 (R171). -/
theorem extGcd_spec {a b g x y : Int} (h : extGcd a b = some (g, x, y)) :
    a * x + b * y = g ∧ g = Int.gcd a b ∧ 0 < g := by
  unfold extGcd at h
  split at h
  · cases h
  · next hz =>
    have hg : 0 < Int.gcd a b := Nat.pos_of_ne_zero (by rw [Ne, Int.gcd_eq_zero_iff]; exact hz)
    split at h
    next g' x' y' he =>
      have := extGcdRaw_spec a b he
      split at h
      · next hneg =>
        injection h with h; injection h with e1 h; injection h with e2 e3; subst e1 e2 e3
        refine ⟨by linarith [this.1], by omega, by omega⟩
      · next hneg =>
        injection h with h; injection h with e1 h; injection h with e2 e3; subst e1 e2 e3
        refine ⟨this.1, by omega, by omega⟩

/-- From the second iteration on, the coefficients of `a` only grow, and |s|·|oldR| + |oldS|·|r| stays (R170). -/
theorem extGcdLoop_bound (c : Int) (fuel : Nat) :
    ∀ (oldR r oldS s oldT t : Int), r.natAbs < fuel → |r| < |oldR| → |oldS| ≤ |s| →
      oldS * s * (oldR * r) ≤ 0 → |s| * |oldR| + |oldS| * |r| = c →
      ∀ g x y, extGcdLoop fuel oldR r oldS s oldT t = (g, x, y) → |x| * |g| ≤ c := by
  induction fuel with
  | zero => intro oldR r oldS s oldT t h; omega
  | succ fuel ih =>
    intro oldR r oldS s oldT t hf hlt hle hsg hc g x y he
    unfold extGcdLoop at he
    split at he
    · next hr =>
      injection he with e1 e2; injection e2 with e2 e3; subst e1 e2 e3 hr
      have h1 := mul_le_mul_of_nonneg_right hle (abs_nonneg oldR)
      simp only [abs_zero, mul_zero, add_zero] at hc
      linarith
    · next hr =>
      have hr' := natAbs_sub_tdiv_lt oldR hr
      have hq : tdiv oldR r = Int.tdiv oldR r := rfl
      set q := tdiv oldR r with hqdef
      have hmod : oldR - q * r = Int.tmod oldR r := by rw [← tmod_eq]; unfold tmod; rw [hqdef]; ring
      have hoR : 0 < |oldR| := lt_of_le_of_lt (abs_nonneg r) hlt
      have hrp : 0 < |r| := abs_pos.2 hr
      -- the sizes follow Euclid's algorithm on |oldR| and |r|
      have hqabs : |q| * |r| + |oldR - q * r| = |oldR| := by
        rw [hmod, hq]
        have e := Nat.div_add_mod' oldR.natAbs r.natAbs
        have e1 : (oldR.tdiv r).natAbs = oldR.natAbs / r.natAbs := Int.natAbs_tdiv ..
        rw [← Int.natAbs_tmod, ← e1] at e
        zify at e
        exact e
      have hq1 : 1 ≤ |q| := by
        by_contra hcon
        have hq0 : |q| = 0 := by have := abs_nonneg q; omega
        rw [hq0, zero_mul, zero_add] at hqabs
        rw [← Int.natCast_natAbs, ← Int.natCast_natAbs] at hqabs
        rw [← Int.natCast_natAbs, ← Int.natCast_natAbs] at hlt
        omega
      -- signs
      have hqs : 0 ≤ q * (oldR * r) := by
        have h1 : q * (oldR * r) = (q * r) * (q * r) + (q * r) * (oldR - q * r) := by ring
        have h2 : 0 ≤ (q * r) * oldR := by
          rcases le_total 0 oldR with h | h
          · have h3 := Int.tmod_nonneg r h
            rw [← hmod] at h3
            rw [abs_of_nonneg h, abs_of_nonneg h3] at hqabs
            have : 0 ≤ |q| * |r| := mul_nonneg (abs_nonneg _) (abs_nonneg _)
            exact mul_nonneg (by linarith) h
          · have h3 := Int.tmod_nonneg r (a := -oldR) (by linarith)
            rw [Int.neg_tmod, ← hmod] at h3
            rw [abs_of_nonpos h, abs_of_nonpos (show oldR - q * r ≤ 0 by linarith)] at hqabs
            have : 0 ≤ |q| * |r| := mul_nonneg (abs_nonneg _) (abs_nonneg _)
            exact mul_nonneg_of_nonpos_of_nonpos (by linarith) h
        linarith [mul_comm q (oldR * r), show (q * r) * oldR = q * (oldR * r) by ring]
      have hprod : oldS * (q * s) ≤ 0 := by
        have hne : 0 < oldR * r * (oldR * r) := by
          have : oldR * r ≠ 0 := mul_ne_zero (abs_pos.1 hoR) hr
          exact mul_self_pos.2 this
        have h3 : oldS * (q * s) * (oldR * r * (oldR * r)) = (oldS * s * (oldR * r)) * (q * (oldR * r)) := by ring
        have h4 : (oldS * s * (oldR * r)) * (q * (oldR * r)) ≤ 0 := mul_nonpos_of_nonpos_of_nonneg hsg hqs
        by_contra hcon
        have := mul_pos (not_le.1 hcon) hne
        linarith
      have habs : |oldS - q * s| = |oldS| + |q| * |s| := by
        rw [← abs_mul, sub_eq_add_neg, ← abs_neg (q * s)]
        apply (abs_add_eq_add_abs_iff _ _).2
        rcases le_total 0 oldS with h | h
        · rcases eq_or_lt_of_le h with h0 | h0
          · rcases le_total 0 (-(q * s)) with h5 | h5
            · exact .inl ⟨h, h5⟩
            · exact .inr ⟨h0.symm.le, h5⟩
          · refine .inl ⟨h, ?_⟩
            by_contra hcon
            have := mul_pos h0 (show 0 < q * s by linarith)
            linarith
        · rcases eq_or_lt_of_le h with h0 | h0
          · rcases le_total 0 (-(q * s)) with h5 | h5
            · exact .inl ⟨h0.symm.le, h5⟩
            · exact .inr ⟨h, h5⟩
          · refine .inr ⟨h, ?_⟩
            by_contra hcon
            have := mul_pos_of_neg_of_neg h0 (show q * s < 0 by linarith)
            linarith
      have hsgn' : 0 ≤ oldR * (oldR - q * r) := by
        rcases le_total 0 oldR with h | h
        · exact mul_nonneg h (by rw [hmod]; exact Int.tmod_nonneg _ h)
        · refine mul_nonneg_of_nonpos_of_nonpos h ?_
          have := Int.tmod_nonneg r (a := -oldR) (by linarith)
          rw [Int.neg_tmod, ← hmod] at this; linarith
      refine ih r (oldR - q * r) s (oldS - q * s) t (oldT - q * t) (by omega) ?_ ?_ ?_ ?_ g x y he
      · rw [← Int.natCast_natAbs, ← Int.natCast_natAbs]; exact_mod_cast hr'
      · rw [habs]
        have := mul_le_mul_of_nonneg_right hq1 (abs_nonneg s)
        have := abs_nonneg oldS
        linarith
      · have hne : 0 < oldR * oldR := mul_self_pos.2 (abs_pos.1 hoR)
        have h3 : s * (oldS - q * s) * (r * (oldR - q * r)) * (oldR * oldR)
            = (oldS * s * (oldR * r)) * (oldR * (oldR - q * r))
              - (s * s) * ((q * (oldR * r)) * (oldR * (oldR - q * r))) := by ring
        have h4 := mul_nonpos_of_nonpos_of_nonneg hsg hsgn'
        have h5 := mul_nonneg (mul_self_nonneg s) (mul_nonneg hqs hsgn')
        by_contra hcon
        have := mul_pos (not_le.1 hcon) hne
        linarith
      · rw [habs, ← hc]
        have : |oldR| = |q| * |r| + |oldR - q * r| := hqabs.symm
        rw [this]; ring

/-- The Bézout coefficient of `a` is at most |b| / g in size (R172, R216). -/
theorem extGcdRaw_coeff {a b g x y : Int} (hb : b ≠ 0) (h : extGcdRaw a b = (g, x, y)) : |x| * |g| ≤ |b| := by
  unfold extGcdRaw extGcdLoop at h
  rw [if_neg hb] at h
  have hlt := natAbs_sub_tdiv_lt a hb
  refine extGcdLoop_bound |b| b.natAbs _ _ _ _ _ _ hlt ?_ ?_ ?_ ?_ g x y h
  · rw [← Int.natCast_natAbs, ← Int.natCast_natAbs]; exact_mod_cast hlt
  · simp
  · simp
  · simp

theorem extGcd_coeff {a b g x y : Int} (hb : b ≠ 0) (h : extGcd a b = some (g, x, y)) : |x| * g ≤ |b| := by
  have hg := (extGcd_spec h).2.2
  unfold extGcd at h
  rw [if_neg (fun hh => hb hh.2)] at h
  split at h
  next g' x' y' he =>
    have := extGcdRaw_coeff hb he
    split at h
    · injection h with h; injection h with e1 h; injection h with e2 e3; subst e1 e2 e3
      rw [abs_neg]; rwa [abs_of_neg (show g' < 0 by assumption)] at this
    · injection h with h; injection h with e1 h; injection h with e2 e3; subst e1 e2 e3
      rwa [abs_of_pos hg] at this

/-! ## Draws -/

theorem drawIn_range {lo hi : Nat} (h : lo ≤ hi) (raw : Nat) : lo ≤ drawIn lo hi raw ∧ drawIn lo hi raw ≤ hi := by
  unfold drawIn
  split
  · assumption
  · have := Nat.mod_lt raw (show 0 < hi + 1 - lo by omega); omega

/-- Every value of the range is drawn for some raw value (R50). -/
theorem drawIn_self {lo hi v : Nat} (h : lo ≤ v ∧ v ≤ hi) : drawIn lo hi v = v := by simp [drawIn, h]

/-- `DrawBits(b)` has exactly b bits (R50). -/
theorem drawBits_range (e : Env) {b : Nat} (hb : 1 ≤ b) : 2 ^ (b - 1) ≤ (e.drawBits b).1 ∧ (e.drawBits b).1 < 2 ^ b := by
  have h1 : 2 ^ (b - 1) ≤ 2 ^ b - 1 := by
    obtain ⟨k, rfl⟩ : ∃ k, b = k + 1 := ⟨b - 1, by omega⟩
    have : 0 < 2 ^ k := by positivity
    rw [Nat.add_sub_cancel, pow_succ]; omega
  have h2 := drawIn_range h1 e.nextRaw
  have h3 : 0 < 2 ^ b := by positivity
  exact ⟨h2.1, by have := h2.2; show drawIn _ _ _ < _; omega⟩

theorem drawPercent_range (e : Env) : e.drawPercent.1 ≤ 99 := (drawIn_range (by omega) _).2

/-! ## Miller–Rabin -/

theorem splitTwos_spec (fuel : Nat) : ∀ d r : Nat, 0 < d → d < 2 ^ fuel →
    (splitTwos fuel d r).1 % 2 = 1 ∧ d * 2 ^ r = (splitTwos fuel d r).1 * 2 ^ (splitTwos fuel d r).2 := by
  induction fuel with
  | zero => intro d r h0 h1; simp at h1; omega
  | succ fuel ih =>
    intro d r h0 h1
    unfold splitTwos
    split
    · next he =>
      have := ih (d / 2) (r + 1) (by omega) (by rw [pow_succ] at h1; omega)
      refine ⟨this.1, ?_⟩
      rw [← this.2, pow_succ]
      have hd : d = d / 2 * 2 := by omega
      conv_lhs => rw [hd]
      ring
    · next he => exact ⟨by omega, rfl⟩

/-- n - 1 = d · 2^r with d odd (R193). -/
theorem decompose_spec {n : Int} (hn : 2 ≤ n) :
    (decompose n).1 % 2 = 1 ∧ n - 1 = (decompose n).1 * 2 ^ (decompose n).2 := by
  have h := splitTwos_spec ((n - 1).toNat.log2 + 1) (n - 1).toNat 0 (by omega) Nat.lt_log2_self
  refine ⟨h.1, ?_⟩
  have h2 := h.2
  rw [pow_zero, mul_one] at h2
  have : ((n - 1).toNat : Int) = n - 1 := Int.toNat_of_nonneg (by omega)
  rw [← this, h2]; rfl

/-- A round is inconclusive exactly when a^d ≡ 1, or a^(d·2^i) ≡ n - 1 for some i < r (R193). -/
theorem strongProbe_iff {n : Int} (hn : 0 < n) (a : Int) :
    strongProbe n a = true ↔ a ^ (decompose n).1 % n = 1 ∨
      ∃ i, i < (decompose n).2 ∧ a ^ ((decompose n).1 * 2 ^ i) % n = n - 1 := by
  unfold strongProbe
  simp [List.any_eq_true, modPow_eq _ _ hn]

/-! ## KeyDigits -/

theorem digitsFrom_spec (v : Nat) (fuel : Nat) : ∀ k ten : Nat, 1 ≤ k → ten = 10 ^ k → 10 ^ (k - 1) ≤ v ∨ k = 1 →
    v < 10 ^ (k + fuel) →
    1 ≤ digitsFrom v fuel k ten ∧ v < 10 ^ digitsFrom v fuel k ten ∧
      ∀ j, 1 ≤ j → v < 10 ^ j → digitsFrom v fuel k ten ≤ j := by
  induction fuel with
  | zero =>
    intro k ten hk ht hlow hv
    refine ⟨hk, (by simpa using hv : v < 10 ^ k), fun j hj hvj => ?_⟩
    show k ≤ j
    rcases hlow with h | h
    · by_contra hc
      have : 10 ^ j ≤ 10 ^ (k - 1) := Nat.pow_le_pow_right (by norm_num) (by omega)
      omega
    · omega
  | succ fuel ih =>
    intro k ten hk ht hlow hv
    unfold digitsFrom
    split
    · next hlt =>
      refine ⟨hk, by rw [← ht]; exact hlt, fun j hj hvj => ?_⟩
      rcases hlow with h | h
      · by_contra hc
        have : 10 ^ j ≤ 10 ^ (k - 1) := Nat.pow_le_pow_right (by norm_num) (by omega)
        omega
      · omega
    · next hge =>
      refine ih (k + 1) (ten * 10) (by omega) (by rw [ht, pow_succ]) (.inl ?_) ?_
      · rw [Nat.add_sub_cancel, ← ht]; omega
      · rw [show k + 1 + fuel = k + (fuel + 1) by ring]; exact hv

/-- KeyDigits(b) is the least k ≥ 1 with 2^b < 10^k (R214). -/
theorem keyDigitsOf_spec (b : Nat) :
    1 ≤ keyDigitsOf b ∧ 2 ^ b < 10 ^ keyDigitsOf b ∧ ∀ j, 1 ≤ j → 2 ^ b < 10 ^ j → keyDigitsOf b ≤ j := by
  refine digitsFrom_spec (2 ^ b) b 1 10 le_rfl (by norm_num) (.inr rfl) ?_
  calc 2 ^ b ≤ 10 ^ b := Nat.pow_le_pow_left (by norm_num) b
    _ < 10 ^ (1 + b) := Nat.pow_lt_pow_right (by norm_num) (by omega)

/-! ## Prime searches -/

/-- The filter rejects exactly the even candidates from 4 on (R191). -/
theorem filtered_iff (c : Nat) : filtered c = true ↔ c % 2 = 0 ∧ 4 ≤ c := by
  simp only [filtered, Config.smallPrimes, List.cons_append, Bool.and_eq_true, decide_eq_true_eq, tmod_eq]
  rw [Int.tmod_eq_emod_of_nonneg (by omega)]
  omega

theorem probeRounds_one_lt {n : Int} {e e' : Env} (h : isProbablyPrime n e = (true, e')) : 2 ≤ n := by
  unfold isProbablyPrime at h
  split at h
  · simp at h
  · omega

/-- A found prime has exactly b bits and is at least 2 (R197, R198). -/
theorem primeIteration_found {b : Nat} (hb : 1 ≤ b) {e e' : Env} {c : Nat} (h : primeIteration b e = (.found c, e')) :
    2 ≤ c ∧ 2 ^ (b - 1) ≤ c ∧ c < 2 ^ b := by
  unfold primeIteration at h
  simp only at h
  split at h
  · simp at h
  · split at h
    · next hv =>
      simp only [Prod.mk.injEq, Search.found.injEq] at h
      obtain ⟨rfl, -⟩ := h
      have := probeRounds_one_lt (Prod.ext hv rfl : _ = (true, _))
      exact ⟨by exact_mod_cast this, drawBits_range e hb⟩
    · simp at h

/-- A prime search's rejection is numbered 1 or 2 (R190). -/
theorem primeIteration_rejected {b : Nat} {e e' : Env} {l : BitVec 8} (h : primeIteration b e = (.rejected l, e')) :
    l = 1#8 ∨ l = 2#8 := by
  unfold primeIteration at h
  simp only at h
  split at h
  · simp only [Prod.mk.injEq, Search.rejected.injEq] at h; exact .inl h.1.symm
  · split at h
    · simp at h
    · simp only [Prod.mk.injEq, Search.rejected.injEq] at h; exact .inr h.1.symm

/-! ## More on the arithmetic units and the opcode map -/

/-- ExtGcd when b divides a: the loop ends after one quotient (R170). -/
theorem extGcd_of_dvd {a b : Int} (hb : b ≠ 0) (h : b ∣ a) : extGcd a b = some (|b|, 0, b.sign) := by
  have hr : a - tdiv a b * b = 0 := by
    unfold tdiv; rw [Int.tdiv_mul_cancel h]; ring
  have : extGcdRaw a b = (b, 0, 1) := by
    unfold extGcdRaw
    obtain ⟨k, hk⟩ : ∃ k, b.natAbs = k + 1 := ⟨b.natAbs - 1, by omega⟩
    rw [hk]
    unfold extGcdLoop
    rw [if_neg hb]
    simp only [hr]
    unfold extGcdLoop; simp
  unfold extGcd
  rw [if_neg (by tauto), this]
  simp only
  split
  · next h => rw [abs_of_neg h, Int.sign_eq_neg_one_of_neg h]; simp
  · next h => have : 0 < b := by omega
              rw [abs_of_pos this, Int.sign_eq_one_of_pos this]

/-- ExtGcd(a, 0) (R170). -/
theorem extGcd_right_zero {a : Int} (ha : a ≠ 0) : extGcd a 0 = some (|a|, a.sign, 0) := by
  have : extGcdRaw a 0 = (a, 1, 0) := by
    unfold extGcdRaw extGcdLoop; simp
  unfold extGcd
  rw [if_neg (by tauto), this]
  simp only
  split
  · next h => rw [abs_of_neg h, Int.sign_eq_neg_one_of_neg h]; simp
  · next h => have : 0 < a := by omega
              rw [abs_of_pos this, Int.sign_eq_one_of_pos this]

/-- A coefficient bounded by M / g, and not M itself, fits. -/
theorem coeff_fits {M g x b : Int} (hM : 4 ≤ M) (hx : |x| * g ≤ |b|) (hb : |b| ≤ M) (hg : 1 ≤ g) (h1 : g = 1 → |x| = M → False) : |x| ≤ M - 1 := by
  have h0 := abs_nonneg x
  rcases (by omega : g = 1 ∨ 2 ≤ g) with rfl | h
  · have : |x| ≠ M := h1 rfl
    omega
  · nlinarith

/-- Unless the gcd is 2^(W-1), EGCD's three results fit (R172). -/
theorem egcd_fits {W : Nat} {a b g x y : Int} (hW : 3 ≤ W) (ha : fits W a = true) (hb : fits W b = true)
   (hne : (Int.gcd a b : Int) ≠ 2 ^ (W - 1)) (h : extGcd a b = some (g, x, y)) :
   fits W g = true ∧ fits W x = true ∧ fits W y = true := by
  obtain ⟨hg0, hg, hbz⟩ : 0 < g ∧ g = Int.gcd a b ∧ a * x + b * y = g := by
    have := extGcd_spec h; tauto
  simp only [fits_iff] at *
  have hM : (4:Int) ≤ 2 ^ (W - 1) := by
    calc (4:Int) = 2 ^ 2 := by norm_num
      _ ≤ 2 ^ (W-1) := pow_le_pow_right₀ (by norm_num) (by omega)
  have hga : g ∣ a := by rw [hg]; exact Int.gcd_dvd_left _ _
  have hgb : g ∣ b := by rw [hg]; exact Int.gcd_dvd_right _ _
  generalize (2:Int) ^ (W - 1) = M at *
  have haA : |a| ≤ M := by rw [abs_le]; omega
  have hbA : |b| ≤ M := by rw [abs_le]; omega
  have hgM : g ≤ M := by
    rcases eq_or_ne b 0 with rfl | h0
    · rcases eq_or_ne a 0 with rfl | h1
      · rw [hg] at hg0; simp at hg0
      · exact le_trans (Int.le_of_dvd (by positivity) ((dvd_abs _ _).2 hga)) haA
    · exact le_trans (Int.le_of_dvd (by positivity) ((dvd_abs _ _).2 hgb)) hbA
  refine ⟨by omega, ?_⟩
  have fin : |x| ≤ M - 1 ∧ |y| ≤ M - 1 := by
    have hs : ∀ z : Int, |z.sign| ≤ M - 1 := fun z => by
      rcases lt_trichotomy z 0 with h | h | h
      · rw [Int.sign_eq_neg_one_of_neg h]; simp; omega
      · rw [h]; simp; omega
      · rw [Int.sign_eq_one_of_pos h]; simp; omega
    rcases eq_or_ne b 0 with rfl | h0
    · have ha0 : a ≠ 0 := by rintro rfl; rw [hg] at hg0; simp at hg0
      rw [extGcd_right_zero ha0] at h
      simp at h; obtain ⟨-, rfl, rfl⟩ := h
      exact ⟨hs _, by simp; omega⟩
    · by_cases hd : b ∣ a
      · rw [extGcd_of_dvd h0 hd] at h
        simp at h; obtain ⟨-, rfl, rfl⟩ := h
        exact ⟨by simp; omega, hs _⟩
      · have hx := extGcd_coeff h0 h
        have hb0 : 0 < |b| := abs_pos.2 h0
        have hgb' : g < |b| := by
          rcases lt_or_eq_of_le (Int.le_of_dvd hb0 ((dvd_abs _ _).2 hgb)) with h | h
          · exact h
          · exfalso; apply hd; rw [h] at hga; exact (abs_dvd _ _).1 hga
        have unitM : ∀ u v p q : Int, u * p + v * q = 1 → |p| = M → |v| = M → False := by
          intro u v p q h1 h2 h3
          have e1 : M ∣ p := by rw [← h2]; exact (abs_dvd _ _).2 dvd_rfl
          have e2 : M ∣ v := by rw [← h3]; exact (abs_dvd _ _).2 dvd_rfl
          have : M ∣ 1 := by rw [← h1]; exact dvd_add (e1.mul_left _) (e2.mul_right _)
          have := Int.le_of_dvd (by norm_num) this
          omega
        refine ⟨coeff_fits hM hx hbA (by omega) fun e1 e2 => ?_, ?_⟩
        · have : |b| = M := by rw [e1, e2] at hx; omega
          exact unitM a b x y (by rw [hbz, e1]) e2 this
        · -- |y| * |b| ≤ g + |a| |x|
          have h1 : |y| * |b| ≤ g + |a| * |x| := by
            rw [← abs_mul, ← abs_mul]
            have : y * b = g - a * x := by rw [← hbz]; ring
            rw [this]
            calc |g - a * x| ≤ |g| + |a * x| := abs_sub _ _
              _ = _ := by rw [abs_of_pos hg0]
          have h2 : |y| * g ≤ |a| := by
            obtain ⟨k, hk⟩ := hga
            have hka : |a| = g * |k| := by rw [hk, abs_mul, abs_of_pos hg0]
            have : |y| ≤ |k| := by
              by_contra hn
              have h3 : |y| ≥ |k| + 1 := by omega
              have h4 : |a| * |x| ≤ |k| * |b| := by
                rw [hka]; have := abs_nonneg k; nlinarith
              nlinarith
            rw [hka]; nlinarith
          refine coeff_fits hM h2 haA (by omega) fun e1 e2 => ?_
          have : |a| = M := by rw [e1, e2] at h2; omega
          exact unitM b a y x (by rw [← e1, ← hbz]; ring) e2 this
  rw [abs_le, abs_le] at fin
  omega

/-- Lcm of a, b not both 0 (R173). -/
theorem lcmValue_some (b : Bool) {p q : Int} (hp : p ≠ 0) : ∃ lam, lcmValue b p q = some lam ∧ (b = false → lam = |p * q|) ∧ (b = true → lam * Int.gcd p q = |p * q|) := by
  cases b with
  | false => exact ⟨_, rfl, fun _ => rfl, fun h => (by cases h)⟩
  | true =>
    unfold lcmValue
    cases hx : extGcd p q with
    | none => rw [extGcd_eq_none] at hx; tauto
    | some r =>
      obtain ⟨g, x, y⟩ := r
      have hg := extGcd_spec hx
      refine ⟨_, rfl, fun h => (by cases h), fun _ => ?_⟩
      rw [← hg.2.1]; unfold tdiv
      rw [Int.tdiv_mul_cancel]
      rw [dvd_abs, hg.2.1]
      exact (Int.gcd_dvd_left _ _).mul_right _

/-- RandInRange lies between its ends (R175). -/
theorem randInRange_between (min max : Int) (k : Nat) (hk : k ≤ 99) :
   min ⊓ max ≤ randInRange min max k ∧ randInRange min max k ≤ min ⊔ max ∧ (min < max → randInRange min max k < max) := by
  unfold randInRange tdiv Config.rangeSteps
  rcases le_or_gt min max with h | h
  · have : 0 ≤ (max - min) * k := by apply mul_nonneg <;> omega
    rw [Int.tdiv_eq_ediv_of_nonneg this]
    have h1 : (max - min) * k ≤ (max - min) * 99 := by apply mul_le_mul_of_nonneg_left <;> omega
    generalize (max - min) * (k:Int) = z at *
    rw [inf_eq_left.2 h, sup_eq_right.2 h]
    omega
  · have h2 : ((max - min) * k).tdiv 100 = -(((min - max) * k).tdiv 100) := by
      rw [← Int.neg_tdiv]; congr 1; ring
    have : 0 ≤ (min - max) * k := by apply mul_nonneg <;> omega
    rw [h2, Int.tdiv_eq_ediv_of_nonneg this]
    have h1 : (min - max) * k ≤ (min - max) * 99 := by apply mul_le_mul_of_nonneg_left <;> omega
    generalize (min - max) * (k:Int) = z at *
    rw [inf_eq_right.2 h.le, sup_eq_left.2 h.le]
    omega

/-- The parity test of MONTMUL (R153). -/
theorem tmod_two (m : Int) (h : 0 < m) : tmod m 2 = m % 2 := by rw [tmod_eq]; exact Int.tmod_eq_emod_of_nonneg (by omega)

/-- RSV = 0 exactly for the words below 256 (R110). -/
theorem rsvField_eq_zero (w : Word) : rsvField w = 0#24 ↔ w.toNat < 256 := by
  unfold rsvField
  rw [← BitVec.toNat_inj]
  simp [BitVec.extractLsb'_toNat]
  have := w.isLt
  omega

/-- The two readings of the opcode map agree (R113). -/
theorem opcodeInstr_iff (n : Nat) (i : Instr) : opcodeInstr n = some i ↔ n = (opcodeOf i).toNat := by
  constructor
  · intro h
    unfold opcodeInstr at h
    split at h <;> first | (injection h with h; subst h; rfl) | cases h
  · intro h; subst h; cases i <;> rfl

/-- The unassigned opcodes (R115). -/
theorem opcodeInstr_none (n : Nat) : opcodeInstr n = none ↔ 14 ≤ n := by
  constructor
  · intro h
    by_contra hn
    have : n < 14 := by omega
    interval_cases n <;> simp [opcodeInstr] at h
  · intro h
    unfold opcodeInstr
    split <;> first | omega | rfl

/-- The exponent a drawn k gives (R211). -/
theorem exponent_value (k : Nat) : randInRange Config.eMin Config.eMax k = 3 + 65535 * k / 100 := by
  unfold randInRange Config.eMin Config.eMax Config.rangeSteps
  have : ((65538 - 3) * (k:Int)) = 65535 * k := by norm_num
  rw [this, tdiv_nonneg_eq _ _ (by omega)]; omega

/-- ChooseExponent's test (R211). -/
theorem acceptsExponent_iff (e lam : Int) (he : 0 < e) : acceptsExponent e lam = true ↔ e < lam ∧ Int.gcd e lam = 1 := by
  unfold acceptsExponent
  cases hx : extGcd e lam with
  | none => rw [extGcd_eq_none] at hx; omega
  | some r =>
    obtain ⟨g, x, y⟩ := r
    have hg := extGcd_spec hx
    simp only [Bool.and_eq_true, decide_eq_true_eq]
    omega

/-- The decomposition d · 2^r with d odd is unique (R193). -/
theorem odd_two_pow_unique {d d' r r' : Nat} (h : d % 2 = 1) (h' : d' % 2 = 1) (e : d * 2 ^ r = d' * 2 ^ r') : d = d' ∧ r = r' := by
  induction r generalizing r' with
  | zero =>
    cases r' with
    | zero => simpa using e
    | succ r' => rw [pow_succ, ← mul_assoc, pow_zero, mul_one] at e; omega
  | succ r ih =>
    cases r' with
    | zero => rw [pow_succ, ← mul_assoc, pow_zero, mul_one] at e; omega
    | succ r' =>
      have : d * 2 ^ r = d' * 2 ^ r' := by
        rw [pow_succ, pow_succ, ← mul_assoc, ← mul_assoc] at e; omega
      have := ih this
      omega

end Sys2Proof.Machine
end

