-- ==== Sys2Proof/Laws/Memory.lean ====
section
/-!
SUPPORT. What the memory operations do: a read after a write, byte by byte and word by word; every write keeps the
canonical form and lists nothing but what it wrote and what was listed before.
-/
namespace Sys2Proof.Machine

/-- A byte read after a byte write (the basic law). -/
theorem Memory.read_write (m : Memory) (a : Nat) (b : Byte) (x : Nat) :
    (m.write a b).read x = if x = a then some b else m.read x := by
  induction m with
  | nil =>
    by_cases h : x = a
    · simp [Memory.write, Memory.read, h]
    · simp [Memory.write, Memory.read, h, Ne.symm h]
  | cons c m ih =>
    unfold Memory.write
    split
    · by_cases h : x = a
      · simp [Memory.read, h]
      · simp [Memory.read, h, Ne.symm h]
    · split
      · next e =>
        by_cases h : x = a
        · simp [Memory.read, h]
        · simp [Memory.read, h, Ne.symm h, ← e]
      · next e =>
        by_cases hc : c.1 = x
        · have : x ≠ a := fun h => e (by rw [hc, h])
          simp [Memory.read, hc, this]
        · simp [Memory.read, hc, ih]

theorem Memory.mem_write {m : Memory} {a : Nat} {b : Byte} {c : Host.Cell} (h : c ∈ m.write a b) :
    c = (a, b) ∨ c ∈ m := by
  induction m with
  | nil => simpa [Memory.write] using h
  | cons d m ih =>
    unfold Memory.write at h
    split at h
    · simpa using h
    · split at h
      · simp at h; rcases h with h | h
        · exact .inl h
        · exact .inr (by simp [h])
      · simp at h; rcases h with h | h
        · exact .inr (by simp [h])
        · rcases ih h with h | h
          · exact .inl h
          · exact .inr (by simp [h])

/-- Every byte write keeps the canonical form. -/
theorem Memory.wf_write {m : Memory} (h : m.wf) (a : Nat) (b : Byte) : (m.write a b).wf := by
  induction m with
  | nil => simp [Memory.write, Memory.wf]
  | cons c m ih =>
    have hc : ∀ {d : Host.Cell}, d ∈ m → c.1 < d.1 := List.rel_of_pairwise_cons h
    have ht : Memory.wf m := List.Pairwise.of_cons h
    unfold Memory.write
    split
    · next hlt =>
      refine List.Pairwise.cons (fun d hd => ?_) h
      rcases List.mem_cons.1 hd with rfl | hd
      · exact hlt
      · exact lt_trans hlt (hc hd)
    · split
      · next e =>
        refine List.Pairwise.cons (fun d hd => ?_) ht
        rw [e]; exact hc hd
      · next h1 h2 =>
        refine List.Pairwise.cons (fun d hd => ?_) (ih ht)
        rcases Memory.mem_write hd with rfl | hd
        · exact lt_of_le_of_ne (not_lt.1 h1) (Ne.symm h2)
        · exact hc hd

/-- Reading finds exactly the listed entries, in a canonical memory. -/
theorem Memory.read_eq_some {m : Memory} (h : m.wf) {a : Nat} {b : Byte} : m.read a = some b ↔ (a, b) ∈ m := by
  induction m with
  | nil => simp [Memory.read]
  | cons c m ih =>
    have hc : ∀ {d : Host.Cell}, d ∈ m → c.1 < d.1 := List.rel_of_pairwise_cons h
    have ht : Memory.wf m := List.Pairwise.of_cons h
    unfold Memory.read
    split
    · next e =>
      constructor
      · intro hb; simp at hb; subst e hb; simp
      · intro hm
        rcases List.mem_cons.1 hm with hm | hm
        · rw [← hm]
        · have := hc hm; simp at this; omega
    · next e =>
      rw [ih ht]
      constructor
      · intro hm; simp [hm]
      · intro hm
        rcases List.mem_cons.1 hm with hm | hm
        · exact absurd (by rw [← hm]) e
        · exact hm

/-- Two canonical memories that read alike are equal data. -/
theorem Memory.ext_read {m n : Memory} (hm : m.wf) (hn : n.wf) (h : ∀ a, m.read a = n.read a) : m = n := by
  have hmem : ∀ c : Host.Cell, c ∈ m ↔ c ∈ n := by
    intro c
    rw [show c = (c.1, c.2) from rfl, ← Memory.read_eq_some hm, ← Memory.read_eq_some hn, h]
  have hnd : ∀ {l : Memory}, l.wf → l.Nodup := fun hl =>
    List.Pairwise.imp (fun hab e => by rw [e] at hab; exact lt_irrefl _ hab) hl
  exact List.Perm.eq_of_pairwise (le := fun c d => c.1 < d.1)
    (fun a b _ _ hab hba => absurd (lt_trans hab hba) (lt_irrefl _)) hm hn
    ((List.perm_ext_iff_of_nodup (hnd hm) (hnd hn)).2 hmem)

theorem Memory.wf_write32 {m : Memory} (h : m.wf) (a : Nat) (w : Word) : (m.write32 a w).wf :=
  Memory.wf_write (Memory.wf_write (Memory.wf_write (Memory.wf_write h _ _) _ _) _ _) _ _

theorem Memory.wf_writeWords {m : Memory} (h : m.wf) (a : Nat) (ws : List Word) : (m.writeWords a ws).wf := by
  induction ws generalizing m a with
  | nil => exact h
  | cons w ws ih => exact ih (Memory.wf_write32 h a w) _

/-- A byte outside a written word reads as before. -/
theorem Memory.read_write32_other (m : Memory) {a x : Nat} (w : Word) (h : x < a ∨ a + 4 ≤ x) :
    (m.write32 a w).read x = m.read x := by
  unfold Memory.write32
  rw [Memory.read_write, if_neg (by omega), Memory.read_write, if_neg (by omega), Memory.read_write,
    if_neg (by omega), Memory.read_write, if_neg (by omega)]

/-- Byte lane k of a written word lies at its k-th byte (R83). -/
theorem Memory.read_write32_lane (m : Memory) (a : Nat) (w : Word) {k : Nat} (h : k < 4) :
    (m.write32 a w).read (a + k) = some (lane w k) := by
  unfold Memory.write32
  simp only [Memory.read_write]
  have hk : k = 0 ∨ k = 1 ∨ k = 2 ∨ k = 3 := by omega
  rcases hk with rfl | rfl | rfl | rfl <;> simp

/-- A word read from four written bytes. -/
theorem Memory.read32_of_reads {m : Memory} {a : Nat} {b0 b1 b2 b3 : Byte} (h0 : m.read a = some b0)
    (h1 : m.read (a + 1) = some b1) (h2 : m.read (a + 2) = some b2) (h3 : m.read (a + 3) = some b3) :
    m.read32 a = .ok (ofLanes b0 b1 b2 b3) := by
  simp [Memory.read32, Memory.fetch, h0, h1, h2, h3]

/-- A word read depends on its four bytes alone. -/
theorem Memory.read32_congr {m n : Memory} {a : Nat} (h : ∀ k < 4, m.read (a + k) = n.read (a + k)) :
    m.read32 a = n.read32 a := by
  have h0 := h 0 (by omega)
  have h1 := h 1 (by omega)
  have h2 := h 2 (by omega)
  have h3 := h 3 (by omega)
  simp only [Nat.add_zero] at h0
  simp only [Memory.read32, Memory.fetch, h0, h1, h2, h3]

/-- A word read after a word write to the same place gives the word written. -/
theorem Memory.read32_write32_same (m : Memory) (a : Nat) (w : Word) : (m.write32 a w).read32 a = .ok w := by
  have h0 := Memory.read_write32_lane m a w (k := 0) (by omega)
  rw [Nat.add_zero] at h0
  rw [Memory.read32_of_reads h0 (Memory.read_write32_lane m a w (k := 1) (by omega))
    (Memory.read_write32_lane m a w (k := 2) (by omega)) (Memory.read_write32_lane m a w (k := 3) (by omega)),
    ofLanes_lane]

/-- A word read after a word write elsewhere gives what it gave before. -/
theorem Memory.read32_write32_other (m : Memory) {a x : Nat} (w : Word) (h : x + 4 ≤ a ∨ a + 4 ≤ x) :
    (m.write32 a w).read32 x = m.read32 x :=
  Memory.read32_congr fun k hk => Memory.read_write32_other m w (by omega)

/-- A byte outside written words reads as before. -/
theorem Memory.read_writeWords_other (m : Memory) {a x : Nat} (ws : List Word) (h : x < a ∨ a + 4 * ws.length ≤ x) :
    (m.writeWords a ws).read x = m.read x := by
  induction ws generalizing m a with
  | nil => rfl
  | cons w ws ih =>
    simp only [List.length_cons] at h
    rw [Memory.writeWords, ih _ (by omega), Memory.read_write32_other _ _ (by omega)]

/-- Every byte of written words is listed afterwards. -/
theorem Memory.read_writeWords_isSome (m : Memory) {a x : Nat} (ws : List Word) (h : a ≤ x ∧ x < a + 4 * ws.length) :
    ((m.writeWords a ws).read x).isSome = true := by
  induction ws generalizing m a with
  | nil => simp at h; omega
  | cons w ws ih =>
    simp only [List.length_cons] at h
    rw [Memory.writeWords]
    by_cases hx : x < a + 4
    · rw [Memory.read_writeWords_other _ _ (by omega), show x = a + (x - a) by omega,
        Memory.read_write32_lane _ _ _ (by omega)]; rfl
    · exact ih _ (by omega)

theorem Memory.read32_writeWords_other (m : Memory) {a x : Nat} (ws : List Word)
    (h : x + 4 ≤ a ∨ a + 4 * ws.length ≤ x) : (m.writeWords a ws).read32 x = m.read32 x :=
  Memory.read32_congr fun k hk => Memory.read_writeWords_other m ws (by omega)

/-- Words read after they were written. -/
theorem Memory.readWords_writeWords_same (m : Memory) (a : Nat) (ws : List Word) :
    (m.writeWords a ws).readWords a ws.length = .ok ws := by
  induction ws generalizing m a with
  | nil => rfl
  | cons w ws ih =>
    simp only [Memory.writeWords, List.length_cons, Memory.readWords]
    rw [Memory.read32_writeWords_other _ _ (by omega), Memory.read32_write32_same]
    simp [ih]

/-- Words read depend on their bytes alone. -/
theorem Memory.readWords_congr {m m' : Memory} {a n : Nat} (h : ∀ x, a ≤ x → x < a + 4 * n → m.read x = m'.read x) :
    m.readWords a n = m'.readWords a n := by
  induction n generalizing a with
  | zero => rfl
  | succ n ih =>
    simp only [Memory.readWords]
    rw [Memory.read32_congr (n := m') fun k hk => h _ (by omega) (by omega), ih fun x h1 h2 => h x (by omega) (by omega)]

/-- Words read after words were written elsewhere. -/
theorem Memory.readWords_writeWords_other (m : Memory) {a x n : Nat} (ws : List Word)
    (h : x + 4 * n ≤ a ∨ a + 4 * ws.length ≤ x) : (m.writeWords a ws).readWords x n = m.readWords x n :=
  Memory.readWords_congr fun y h1 h2 => Memory.read_writeWords_other m ws (by omega)

theorem Memory.length_readWords {m : Memory} {a n : Nat} {ws : List Word} (h : m.readWords a n = .ok ws) :
    ws.length = n := by
  induction n generalizing a ws with
  | zero => simp [Memory.readWords] at h; simp [← h]
  | succ n ih =>
    simp only [Memory.readWords] at h
    split at h
    · cases h
    · split at h
      · cases h
      · next hw => injection h with h; rw [← h, List.length_cons, ih hw]

/-- The only fault of a memory read is the unwritten byte, inside what was read (U9). -/
theorem Memory.fetch_error {m : Memory} {a : Nat} {f : Fault} (h : m.fetch a = .error f) :
    f = .unwrittenRead a ∧ m.read a = none := by
  unfold Memory.fetch at h
  split at h
  · cases h
  · next hr => injection h with h; exact ⟨h.symm, hr⟩

theorem Memory.fetch_ok {m : Memory} {a : Nat} {b : Byte} : m.fetch a = .ok b ↔ m.read a = some b := by
  unfold Memory.fetch; cases m.read a <;> simp

/-- `a` is the first unwritten byte of lo..hi-1. -/
def Memory.FirstUnwritten (m : Memory) (lo hi a : Nat) : Prop :=
  lo ≤ a ∧ a < hi ∧ m.read a = none ∧ ∀ b, lo ≤ b → b < a → (m.read b).isSome

/-- Every byte of lo..hi-1 is written. -/
def Memory.Written (m : Memory) (lo hi : Nat) : Prop := ∀ b, lo ≤ b → b < hi → (m.read b).isSome

/-- After a written range, the first unwritten byte of the rest is the first of the whole. -/
theorem Memory.FirstUnwritten.extend {m : Memory} {lo mid hi a : Nat} (hw : m.Written lo mid)
    (h : m.FirstUnwritten mid hi a) (hle : lo ≤ mid) : m.FirstUnwritten lo hi a :=
  ⟨by have := h.1; omega, h.2.1, h.2.2.1, fun b h1 h2 =>
    if hb : b < mid then hw b h1 hb else h.2.2.2 b (by omega) h2⟩

theorem Memory.FirstUnwritten.widen {m : Memory} {lo hi hi' a : Nat} (h : m.FirstUnwritten lo hi a) (hle : hi ≤ hi') :
    m.FirstUnwritten lo hi' a := ⟨h.1, by have := h.2.1; omega, h.2.2.1, h.2.2.2⟩

theorem Memory.Written.append {m : Memory} {lo mid hi : Nat} (h1 : m.Written lo mid) (h2 : m.Written mid hi) :
    m.Written lo hi := fun b hl hh => if hb : b < mid then h1 b hl hb else h2 b (by omega) hh

theorem Memory.fetch_written {m : Memory} {a : Nat} {b : Byte} (h : m.fetch a = .ok b) : m.Written a (a + 1) :=
  fun x h1 h2 => by rw [show x = a by omega, Memory.fetch_ok.1 h]; rfl

theorem Memory.fetch_first {m : Memory} {a : Nat} {f : Fault} (h : m.fetch a = .error f) :
    ∃ x, f = .unwrittenRead x ∧ m.FirstUnwritten a (a + 1) x :=
  ⟨a, (Memory.fetch_error h).1, le_rfl, by omega, (Memory.fetch_error h).2, fun b h1 h2 => by omega⟩

theorem Memory.read32_written {m : Memory} {a : Nat} {w : Word} (h : m.read32 a = .ok w) : m.Written a (a + 4) := by
  unfold Memory.read32 at h
  split at h
  · cases h
  · next h0 =>
    split at h
    · cases h
    · next h1 =>
      split at h
      · cases h
      · next h2 =>
        split at h
        · cases h
        · next h3 =>
          exact (((Memory.fetch_written h0).append (Memory.fetch_written h1)).append (Memory.fetch_written h2)).append
            (Memory.fetch_written h3)

/-- A word read faults at its first unwritten byte. -/
theorem Memory.read32_first {m : Memory} {a : Nat} {f : Fault} (h : m.read32 a = .error f) :
    ∃ x, f = .unwrittenRead x ∧ m.FirstUnwritten a (a + 4) x := by
  unfold Memory.read32 at h
  split at h
  · next hf =>
    injection h with h; subst h
    obtain ⟨x, e, hx⟩ := Memory.fetch_first hf
    exact ⟨x, e, hx.widen (by omega)⟩
  · next h0 =>
    have w0 := Memory.fetch_written h0
    split at h
    · next hf =>
      injection h with h; subst h
      obtain ⟨x, e, hx⟩ := Memory.fetch_first hf
      exact ⟨x, e, (hx.extend w0 (by omega)).widen (by omega)⟩
    · next h1 =>
      have w1 := w0.append (Memory.fetch_written h1)
      split at h
      · next hf =>
        injection h with h; subst h
        obtain ⟨x, e, hx⟩ := Memory.fetch_first hf
        exact ⟨x, e, (hx.extend w1 (by omega)).widen (by omega)⟩
      · next h2 =>
        have w2 := w1.append (Memory.fetch_written h2)
        split at h
        · next hf =>
          injection h with h; subst h
          obtain ⟨x, e, hx⟩ := Memory.fetch_first hf
          exact ⟨x, e, hx.extend w2 (by omega)⟩
        · cases h

theorem Memory.readWords_written {m : Memory} {n : Nat} : ∀ {a : Nat} {ws : List Word}, m.readWords a n = .ok ws →
    m.Written a (a + 4 * n) := by
  induction n with
  | zero => intro a ws _ b h1 h2; omega
  | succ n ih =>
    intro a ws h
    unfold Memory.readWords at h
    split at h
    · cases h
    · next hw =>
      split at h
      · cases h
      · next hws =>
        have := (Memory.read32_written hw).append (ih hws)
        rwa [show a + 4 + 4 * n = a + 4 * (n + 1) by ring] at this

/-- A read of words faults at its first unwritten byte. -/
theorem Memory.readWords_first {m : Memory} {n : Nat} : ∀ {a : Nat} {f : Fault}, m.readWords a n = .error f →
    ∃ x, f = .unwrittenRead x ∧ m.FirstUnwritten a (a + 4 * n) x := by
  induction n with
  | zero => intro a f h; cases h
  | succ n ih =>
    intro a f h
    unfold Memory.readWords at h
    split at h
    · next hf =>
      injection h with h; subst h
      obtain ⟨x, e, hx⟩ := Memory.read32_first hf
      exact ⟨x, e, hx.widen (by omega)⟩
    · next hw =>
      split at h
      · next hf =>
        injection h with h; subst h
        obtain ⟨x, e, hx⟩ := ih hf
        exact ⟨x, e, (hx.extend (Memory.read32_written hw) (by omega)).widen (by omega)⟩
      · cases h

end Sys2Proof.Machine
end

