-- ==== Sys2Proof/Laws/State.lean ====
section
/-!
SUPPORT. What each update of the state does to each field, by rfl, and how the registers' get and set meet: later proofs
never unfold a record update.
-/
namespace Sys2Proof.Machine

variable (s : State)

/-! `State.setBig` -/

@[simp] theorem State.setBig_cfg (r : BigReg) (ws : List Word) : (s.setBig r ws).cfg = s.cfg := rfl
@[simp] theorem State.setBig_irqEn (r : BigReg) (ws : List Word) : (s.setBig r ws).irqEn = s.irqEn := rfl
@[simp] theorem State.setBig_lcmTrue (r : BigReg) (ws : List Word) : (s.setBig r ws).lcmTrue = s.lcmTrue := rfl
@[simp] theorem State.setBig_done (r : BigReg) (ws : List Word) : (s.setBig r ws).done = s.done := rfl
@[simp] theorem State.setBig_err (r : BigReg) (ws : List Word) : (s.setBig r ws).err = s.err := rfl
@[simp] theorem State.setBig_wwb (r : BigReg) (ws : List Word) : (s.setBig r ws).wwb = s.wwb := rfl
@[simp] theorem State.setBig_lastCmd (r : BigReg) (ws : List Word) : (s.setBig r ws).lastCmd = s.lastCmd := rfl
@[simp] theorem State.setBig_errCode (r : BigReg) (ws : List Word) : (s.setBig r ws).errCode = s.errCode := rfl
@[simp] theorem State.setBig_errInfo (r : BigReg) (ws : List Word) : (s.setBig r ws).errInfo = s.errInfo := rfl
@[simp] theorem State.setBig_iterCap (r : BigReg) (ws : List Word) : (s.setBig r ws).iterCap = s.iterCap := rfl
@[simp] theorem State.setBig_msgLen (r : BigReg) (ws : List Word) : (s.setBig r ws).msgLen = s.msgLen := rfl
@[simp] theorem State.setBig_keyValid (r : BigReg) (ws : List Word) : (s.setBig r ws).keyValid = s.keyValid := rfl
@[simp] theorem State.setBig_regs (r : BigReg) (ws : List Word) : (s.setBig r ws).regs = s.regs.set r ws := rfl
@[simp] theorem State.setBig_mem (r : BigReg) (ws : List Word) : (s.setBig r ws).mem = s.mem := rfl
@[simp] theorem State.setBig_eng (r : BigReg) (ws : List Word) : (s.setBig r ws).eng = s.eng := rfl
@[simp] theorem State.setBig_env (r : BigReg) (ws : List Word) : (s.setBig r ws).env = s.env := rfl

/-! `State.setX` -/

@[simp] theorem State.setX_cfg (r : BigReg) (v : Int) : (s.setX r v).cfg = s.cfg := rfl
@[simp] theorem State.setX_irqEn (r : BigReg) (v : Int) : (s.setX r v).irqEn = s.irqEn := rfl
@[simp] theorem State.setX_lcmTrue (r : BigReg) (v : Int) : (s.setX r v).lcmTrue = s.lcmTrue := rfl
@[simp] theorem State.setX_done (r : BigReg) (v : Int) : (s.setX r v).done = s.done := rfl
@[simp] theorem State.setX_err (r : BigReg) (v : Int) : (s.setX r v).err = s.err := rfl
@[simp] theorem State.setX_wwb (r : BigReg) (v : Int) : (s.setX r v).wwb = s.wwb := rfl
@[simp] theorem State.setX_lastCmd (r : BigReg) (v : Int) : (s.setX r v).lastCmd = s.lastCmd := rfl
@[simp] theorem State.setX_errCode (r : BigReg) (v : Int) : (s.setX r v).errCode = s.errCode := rfl
@[simp] theorem State.setX_errInfo (r : BigReg) (v : Int) : (s.setX r v).errInfo = s.errInfo := rfl
@[simp] theorem State.setX_iterCap (r : BigReg) (v : Int) : (s.setX r v).iterCap = s.iterCap := rfl
@[simp] theorem State.setX_msgLen (r : BigReg) (v : Int) : (s.setX r v).msgLen = s.msgLen := rfl
@[simp] theorem State.setX_keyValid (r : BigReg) (v : Int) : (s.setX r v).keyValid = s.keyValid := rfl
@[simp] theorem State.setX_regs (r : BigReg) (v : Int) : (s.setX r v).regs = s.regs.set r (enc s.cfg.nw v) := rfl
@[simp] theorem State.setX_mem (r : BigReg) (v : Int) : (s.setX r v).mem = s.mem := rfl
@[simp] theorem State.setX_eng (r : BigReg) (v : Int) : (s.setX r v).eng = s.eng := rfl
@[simp] theorem State.setX_env (r : BigReg) (v : Int) : (s.setX r v).env = s.env := rfl

/-! `State.setBigWord` -/

@[simp] theorem State.setBigWord_cfg (r : BigReg) (j : Nat) (v : Word) : (s.setBigWord r j v).cfg = s.cfg := rfl
@[simp] theorem State.setBigWord_irqEn (r : BigReg) (j : Nat) (v : Word) : (s.setBigWord r j v).irqEn = s.irqEn := rfl
@[simp] theorem State.setBigWord_lcmTrue (r : BigReg) (j : Nat) (v : Word) : (s.setBigWord r j v).lcmTrue = s.lcmTrue := rfl
@[simp] theorem State.setBigWord_done (r : BigReg) (j : Nat) (v : Word) : (s.setBigWord r j v).done = s.done := rfl
@[simp] theorem State.setBigWord_err (r : BigReg) (j : Nat) (v : Word) : (s.setBigWord r j v).err = s.err := rfl
@[simp] theorem State.setBigWord_wwb (r : BigReg) (j : Nat) (v : Word) : (s.setBigWord r j v).wwb = s.wwb := rfl
@[simp] theorem State.setBigWord_lastCmd (r : BigReg) (j : Nat) (v : Word) : (s.setBigWord r j v).lastCmd = s.lastCmd := rfl
@[simp] theorem State.setBigWord_errCode (r : BigReg) (j : Nat) (v : Word) : (s.setBigWord r j v).errCode = s.errCode := rfl
@[simp] theorem State.setBigWord_errInfo (r : BigReg) (j : Nat) (v : Word) : (s.setBigWord r j v).errInfo = s.errInfo := rfl
@[simp] theorem State.setBigWord_iterCap (r : BigReg) (j : Nat) (v : Word) : (s.setBigWord r j v).iterCap = s.iterCap := rfl
@[simp] theorem State.setBigWord_msgLen (r : BigReg) (j : Nat) (v : Word) : (s.setBigWord r j v).msgLen = s.msgLen := rfl
@[simp] theorem State.setBigWord_keyValid (r : BigReg) (j : Nat) (v : Word) : (s.setBigWord r j v).keyValid = s.keyValid := rfl
@[simp] theorem State.setBigWord_regs (r : BigReg) (j : Nat) (v : Word) : (s.setBigWord r j v).regs = s.regs.set r ((s.big r).set j v) := rfl
@[simp] theorem State.setBigWord_mem (r : BigReg) (j : Nat) (v : Word) : (s.setBigWord r j v).mem = s.mem := rfl
@[simp] theorem State.setBigWord_eng (r : BigReg) (j : Nat) (v : Word) : (s.setBigWord r j v).eng = s.eng := rfl
@[simp] theorem State.setBigWord_env (r : BigReg) (j : Nat) (v : Word) : (s.setBigWord r j v).env = s.env := rfl

/-! `State.ackStatus` -/

@[simp] theorem State.ackStatus_cfg (v : Word) : (s.ackStatus v).cfg = s.cfg := rfl
@[simp] theorem State.ackStatus_irqEn (v : Word) : (s.ackStatus v).irqEn = s.irqEn := rfl
@[simp] theorem State.ackStatus_lcmTrue (v : Word) : (s.ackStatus v).lcmTrue = s.lcmTrue := rfl
@[simp] theorem State.ackStatus_done (v : Word) : (s.ackStatus v).done = (s.done && !v.getLsbD 1) := rfl
@[simp] theorem State.ackStatus_err (v : Word) : (s.ackStatus v).err = (s.err && !v.getLsbD 2) := rfl
@[simp] theorem State.ackStatus_wwb (v : Word) : (s.ackStatus v).wwb = (s.wwb && !v.getLsbD 3) := rfl
@[simp] theorem State.ackStatus_lastCmd (v : Word) : (s.ackStatus v).lastCmd = s.lastCmd := rfl
@[simp] theorem State.ackStatus_errCode (v : Word) : (s.ackStatus v).errCode = s.errCode := rfl
@[simp] theorem State.ackStatus_errInfo (v : Word) : (s.ackStatus v).errInfo = s.errInfo := rfl
@[simp] theorem State.ackStatus_iterCap (v : Word) : (s.ackStatus v).iterCap = s.iterCap := rfl
@[simp] theorem State.ackStatus_msgLen (v : Word) : (s.ackStatus v).msgLen = s.msgLen := rfl
@[simp] theorem State.ackStatus_keyValid (v : Word) : (s.ackStatus v).keyValid = s.keyValid := rfl
@[simp] theorem State.ackStatus_regs (v : Word) : (s.ackStatus v).regs = s.regs := rfl
@[simp] theorem State.ackStatus_mem (v : Word) : (s.ackStatus v).mem = s.mem := rfl
@[simp] theorem State.ackStatus_eng (v : Word) : (s.ackStatus v).eng = s.eng := rfl
@[simp] theorem State.ackStatus_env (v : Word) : (s.ackStatus v).env = s.env := rfl

/-! `State.writeCtrl` -/

@[simp] theorem State.writeCtrl_cfg (v : Word) : (s.writeCtrl v).cfg = s.cfg := rfl
@[simp] theorem State.writeCtrl_irqEn (v : Word) : (s.writeCtrl v).irqEn = v.getLsbD 0 := rfl
@[simp] theorem State.writeCtrl_lcmTrue (v : Word) : (s.writeCtrl v).lcmTrue = v.getLsbD 1 := rfl
@[simp] theorem State.writeCtrl_done (v : Word) : (s.writeCtrl v).done = s.done := rfl
@[simp] theorem State.writeCtrl_err (v : Word) : (s.writeCtrl v).err = s.err := rfl
@[simp] theorem State.writeCtrl_wwb (v : Word) : (s.writeCtrl v).wwb = s.wwb := rfl
@[simp] theorem State.writeCtrl_lastCmd (v : Word) : (s.writeCtrl v).lastCmd = s.lastCmd := rfl
@[simp] theorem State.writeCtrl_errCode (v : Word) : (s.writeCtrl v).errCode = s.errCode := rfl
@[simp] theorem State.writeCtrl_errInfo (v : Word) : (s.writeCtrl v).errInfo = s.errInfo := rfl
@[simp] theorem State.writeCtrl_iterCap (v : Word) : (s.writeCtrl v).iterCap = s.iterCap := rfl
@[simp] theorem State.writeCtrl_msgLen (v : Word) : (s.writeCtrl v).msgLen = s.msgLen := rfl
@[simp] theorem State.writeCtrl_keyValid (v : Word) : (s.writeCtrl v).keyValid = s.keyValid := rfl
@[simp] theorem State.writeCtrl_regs (v : Word) : (s.writeCtrl v).regs = s.regs := rfl
@[simp] theorem State.writeCtrl_mem (v : Word) : (s.writeCtrl v).mem = s.mem := rfl
@[simp] theorem State.writeCtrl_eng (v : Word) : (s.writeCtrl v).eng = s.eng := rfl
@[simp] theorem State.writeCtrl_env (v : Word) : (s.writeCtrl v).env = s.env := rfl

/-! `State.writeKeyValid` -/

@[simp] theorem State.writeKeyValid_cfg (v : Word) : (s.writeKeyValid v).cfg = s.cfg := rfl
@[simp] theorem State.writeKeyValid_irqEn (v : Word) : (s.writeKeyValid v).irqEn = s.irqEn := rfl
@[simp] theorem State.writeKeyValid_lcmTrue (v : Word) : (s.writeKeyValid v).lcmTrue = s.lcmTrue := rfl
@[simp] theorem State.writeKeyValid_done (v : Word) : (s.writeKeyValid v).done = s.done := rfl
@[simp] theorem State.writeKeyValid_err (v : Word) : (s.writeKeyValid v).err = s.err := rfl
@[simp] theorem State.writeKeyValid_wwb (v : Word) : (s.writeKeyValid v).wwb = s.wwb := rfl
@[simp] theorem State.writeKeyValid_lastCmd (v : Word) : (s.writeKeyValid v).lastCmd = s.lastCmd := rfl
@[simp] theorem State.writeKeyValid_errCode (v : Word) : (s.writeKeyValid v).errCode = s.errCode := rfl
@[simp] theorem State.writeKeyValid_errInfo (v : Word) : (s.writeKeyValid v).errInfo = s.errInfo := rfl
@[simp] theorem State.writeKeyValid_iterCap (v : Word) : (s.writeKeyValid v).iterCap = s.iterCap := rfl
@[simp] theorem State.writeKeyValid_msgLen (v : Word) : (s.writeKeyValid v).msgLen = s.msgLen := rfl
@[simp] theorem State.writeKeyValid_keyValid (v : Word) : (s.writeKeyValid v).keyValid = v.extractLsb' 0 3 := rfl
@[simp] theorem State.writeKeyValid_regs (v : Word) : (s.writeKeyValid v).regs = s.regs := rfl
@[simp] theorem State.writeKeyValid_mem (v : Word) : (s.writeKeyValid v).mem = s.mem := rfl
@[simp] theorem State.writeKeyValid_eng (v : Word) : (s.writeKeyValid v).eng = s.eng := rfl
@[simp] theorem State.writeKeyValid_env (v : Word) : (s.writeKeyValid v).env = s.env := rfl

/-! `State.setWwb` -/

@[simp] theorem State.setWwb_cfg : s.setWwb.cfg = s.cfg := rfl
@[simp] theorem State.setWwb_irqEn : s.setWwb.irqEn = s.irqEn := rfl
@[simp] theorem State.setWwb_lcmTrue : s.setWwb.lcmTrue = s.lcmTrue := rfl
@[simp] theorem State.setWwb_done : s.setWwb.done = s.done := rfl
@[simp] theorem State.setWwb_err : s.setWwb.err = s.err := rfl
@[simp] theorem State.setWwb_wwb : s.setWwb.wwb = true := rfl
@[simp] theorem State.setWwb_lastCmd : s.setWwb.lastCmd = s.lastCmd := rfl
@[simp] theorem State.setWwb_errCode : s.setWwb.errCode = s.errCode := rfl
@[simp] theorem State.setWwb_errInfo : s.setWwb.errInfo = s.errInfo := rfl
@[simp] theorem State.setWwb_iterCap : s.setWwb.iterCap = s.iterCap := rfl
@[simp] theorem State.setWwb_msgLen : s.setWwb.msgLen = s.msgLen := rfl
@[simp] theorem State.setWwb_keyValid : s.setWwb.keyValid = s.keyValid := rfl
@[simp] theorem State.setWwb_regs : s.setWwb.regs = s.regs := rfl
@[simp] theorem State.setWwb_mem : s.setWwb.mem = s.mem := rfl
@[simp] theorem State.setWwb_eng : s.setWwb.eng = s.eng := rfl
@[simp] theorem State.setWwb_env : s.setWwb.env = s.env := rfl

/-! `State.markKey` -/

@[simp] theorem State.markKey_cfg (r : BigReg) : (s.markKey r).cfg = s.cfg := rfl
@[simp] theorem State.markKey_irqEn (r : BigReg) : (s.markKey r).irqEn = s.irqEn := rfl
@[simp] theorem State.markKey_lcmTrue (r : BigReg) : (s.markKey r).lcmTrue = s.lcmTrue := rfl
@[simp] theorem State.markKey_done (r : BigReg) : (s.markKey r).done = s.done := rfl
@[simp] theorem State.markKey_err (r : BigReg) : (s.markKey r).err = s.err := rfl
@[simp] theorem State.markKey_wwb (r : BigReg) : (s.markKey r).wwb = s.wwb := rfl
@[simp] theorem State.markKey_lastCmd (r : BigReg) : (s.markKey r).lastCmd = s.lastCmd := rfl
@[simp] theorem State.markKey_errCode (r : BigReg) : (s.markKey r).errCode = s.errCode := rfl
@[simp] theorem State.markKey_errInfo (r : BigReg) : (s.markKey r).errInfo = s.errInfo := rfl
@[simp] theorem State.markKey_iterCap (r : BigReg) : (s.markKey r).iterCap = s.iterCap := rfl
@[simp] theorem State.markKey_msgLen (r : BigReg) : (s.markKey r).msgLen = s.msgLen := rfl
@[simp] theorem State.markKey_keyValid (r : BigReg) : (s.markKey r).keyValid = s.keyValid ||| keyBit r := rfl
@[simp] theorem State.markKey_regs (r : BigReg) : (s.markKey r).regs = s.regs := rfl
@[simp] theorem State.markKey_mem (r : BigReg) : (s.markKey r).mem = s.mem := rfl
@[simp] theorem State.markKey_eng (r : BigReg) : (s.markKey r).eng = s.eng := rfl
@[simp] theorem State.markKey_env (r : BigReg) : (s.markKey r).env = s.env := rfl

/-! `State.setMsg` -/

@[simp] theorem State.setMsg_cfg (i : Nat) (b : Byte) : (s.setMsg i b).cfg = s.cfg := rfl
@[simp] theorem State.setMsg_irqEn (i : Nat) (b : Byte) : (s.setMsg i b).irqEn = s.irqEn := rfl
@[simp] theorem State.setMsg_lcmTrue (i : Nat) (b : Byte) : (s.setMsg i b).lcmTrue = s.lcmTrue := rfl
@[simp] theorem State.setMsg_done (i : Nat) (b : Byte) : (s.setMsg i b).done = s.done := rfl
@[simp] theorem State.setMsg_err (i : Nat) (b : Byte) : (s.setMsg i b).err = s.err := rfl
@[simp] theorem State.setMsg_wwb (i : Nat) (b : Byte) : (s.setMsg i b).wwb = s.wwb := rfl
@[simp] theorem State.setMsg_lastCmd (i : Nat) (b : Byte) : (s.setMsg i b).lastCmd = s.lastCmd := rfl
@[simp] theorem State.setMsg_errCode (i : Nat) (b : Byte) : (s.setMsg i b).errCode = s.errCode := rfl
@[simp] theorem State.setMsg_errInfo (i : Nat) (b : Byte) : (s.setMsg i b).errInfo = s.errInfo := rfl
@[simp] theorem State.setMsg_iterCap (i : Nat) (b : Byte) : (s.setMsg i b).iterCap = s.iterCap := rfl
@[simp] theorem State.setMsg_msgLen (i : Nat) (b : Byte) : (s.setMsg i b).msgLen = s.msgLen := rfl
@[simp] theorem State.setMsg_keyValid (i : Nat) (b : Byte) : (s.setMsg i b).keyValid = s.keyValid := rfl
@[simp] theorem State.setMsg_regs (i : Nat) (b : Byte) : (s.setMsg i b).regs = s.regs := rfl
@[simp] theorem State.setMsg_mem (i : Nat) (b : Byte) : (s.setMsg i b).mem = s.mem.write (msgAddr i) b := rfl
@[simp] theorem State.setMsg_eng (i : Nat) (b : Byte) : (s.setMsg i b).eng = s.eng := rfl
@[simp] theorem State.setMsg_env (i : Nat) (b : Byte) : (s.setMsg i b).env = s.env := rfl

/-! `State.setCt` -/

@[simp] theorem State.setCt_cfg (i : Nat) (v : Int) : (s.setCt i v).cfg = s.cfg := rfl
@[simp] theorem State.setCt_irqEn (i : Nat) (v : Int) : (s.setCt i v).irqEn = s.irqEn := rfl
@[simp] theorem State.setCt_lcmTrue (i : Nat) (v : Int) : (s.setCt i v).lcmTrue = s.lcmTrue := rfl
@[simp] theorem State.setCt_done (i : Nat) (v : Int) : (s.setCt i v).done = s.done := rfl
@[simp] theorem State.setCt_err (i : Nat) (v : Int) : (s.setCt i v).err = s.err := rfl
@[simp] theorem State.setCt_wwb (i : Nat) (v : Int) : (s.setCt i v).wwb = s.wwb := rfl
@[simp] theorem State.setCt_lastCmd (i : Nat) (v : Int) : (s.setCt i v).lastCmd = s.lastCmd := rfl
@[simp] theorem State.setCt_errCode (i : Nat) (v : Int) : (s.setCt i v).errCode = s.errCode := rfl
@[simp] theorem State.setCt_errInfo (i : Nat) (v : Int) : (s.setCt i v).errInfo = s.errInfo := rfl
@[simp] theorem State.setCt_iterCap (i : Nat) (v : Int) : (s.setCt i v).iterCap = s.iterCap := rfl
@[simp] theorem State.setCt_msgLen (i : Nat) (v : Int) : (s.setCt i v).msgLen = s.msgLen := rfl
@[simp] theorem State.setCt_keyValid (i : Nat) (v : Int) : (s.setCt i v).keyValid = s.keyValid := rfl
@[simp] theorem State.setCt_regs (i : Nat) (v : Int) : (s.setCt i v).regs = s.regs := rfl
@[simp] theorem State.setCt_mem (i : Nat) (v : Int) : (s.setCt i v).mem = s.mem.writeWords (ctWordAddr s.cfg i 0) (enc s.cfg.nw v) := rfl
@[simp] theorem State.setCt_eng (i : Nat) (v : Int) : (s.setCt i v).eng = s.eng := rfl
@[simp] theorem State.setCt_env (i : Nat) (v : Int) : (s.setCt i v).env = s.env := rfl

/-! `State.issue` -/

@[simp] theorem State.issue_cfg (v : Word) : (s.issue v).cfg = s.cfg := rfl
@[simp] theorem State.issue_irqEn (v : Word) : (s.issue v).irqEn = s.irqEn := rfl
@[simp] theorem State.issue_lcmTrue (v : Word) : (s.issue v).lcmTrue = s.lcmTrue := rfl
@[simp] theorem State.issue_done (v : Word) : (s.issue v).done = false := rfl
@[simp] theorem State.issue_err (v : Word) : (s.issue v).err = false := rfl
@[simp] theorem State.issue_wwb (v : Word) : (s.issue v).wwb = s.wwb := rfl
@[simp] theorem State.issue_lastCmd (v : Word) : (s.issue v).lastCmd = v := rfl
@[simp] theorem State.issue_errCode (v : Word) : (s.issue v).errCode = 0#8 := rfl
@[simp] theorem State.issue_errInfo (v : Word) : (s.issue v).errInfo = 0#8 := rfl
@[simp] theorem State.issue_iterCap (v : Word) : (s.issue v).iterCap = s.iterCap := rfl
@[simp] theorem State.issue_msgLen (v : Word) : (s.issue v).msgLen = s.msgLen := rfl
@[simp] theorem State.issue_keyValid (v : Word) : (s.issue v).keyValid = s.keyValid := rfl
@[simp] theorem State.issue_regs (v : Word) : (s.issue v).regs = s.regs := rfl
@[simp] theorem State.issue_mem (v : Word) : (s.issue v).mem = s.mem := rfl
@[simp] theorem State.issue_eng (v : Word) : (s.issue v).eng = .busy v Prog.start := rfl
@[simp] theorem State.issue_env (v : Word) : (s.issue v).env = s.env := rfl

/-! `State.raise` -/

@[simp] theorem State.raise_cfg (e : ErrorKind) (info : BitVec 8) : (s.raise e info).cfg = s.cfg := rfl
@[simp] theorem State.raise_irqEn (e : ErrorKind) (info : BitVec 8) : (s.raise e info).irqEn = s.irqEn := rfl
@[simp] theorem State.raise_lcmTrue (e : ErrorKind) (info : BitVec 8) : (s.raise e info).lcmTrue = s.lcmTrue := rfl
@[simp] theorem State.raise_done (e : ErrorKind) (info : BitVec 8) : (s.raise e info).done = true := rfl
@[simp] theorem State.raise_err (e : ErrorKind) (info : BitVec 8) : (s.raise e info).err = true := rfl
@[simp] theorem State.raise_wwb (e : ErrorKind) (info : BitVec 8) : (s.raise e info).wwb = s.wwb := rfl
@[simp] theorem State.raise_lastCmd (e : ErrorKind) (info : BitVec 8) : (s.raise e info).lastCmd = s.lastCmd := rfl
@[simp] theorem State.raise_errCode (e : ErrorKind) (info : BitVec 8) : (s.raise e info).errCode = e.code := rfl
@[simp] theorem State.raise_errInfo (e : ErrorKind) (info : BitVec 8) : (s.raise e info).errInfo = info := rfl
@[simp] theorem State.raise_iterCap (e : ErrorKind) (info : BitVec 8) : (s.raise e info).iterCap = s.iterCap := rfl
@[simp] theorem State.raise_msgLen (e : ErrorKind) (info : BitVec 8) : (s.raise e info).msgLen = s.msgLen := rfl
@[simp] theorem State.raise_keyValid (e : ErrorKind) (info : BitVec 8) : (s.raise e info).keyValid = s.keyValid := rfl
@[simp] theorem State.raise_regs (e : ErrorKind) (info : BitVec 8) : (s.raise e info).regs = s.regs := rfl
@[simp] theorem State.raise_mem (e : ErrorKind) (info : BitVec 8) : (s.raise e info).mem = s.mem := rfl
@[simp] theorem State.raise_eng (e : ErrorKind) (info : BitVec 8) : (s.raise e info).eng = .idle := rfl
@[simp] theorem State.raise_env (e : ErrorKind) (info : BitVec 8) : (s.raise e info).env = s.env := rfl

/-! `State.goOn` -/

@[simp] theorem State.goOn_cfg (phase : Phase) (rej : Nat) : (s.goOn phase rej).cfg = s.cfg := rfl
@[simp] theorem State.goOn_irqEn (phase : Phase) (rej : Nat) : (s.goOn phase rej).irqEn = s.irqEn := rfl
@[simp] theorem State.goOn_lcmTrue (phase : Phase) (rej : Nat) : (s.goOn phase rej).lcmTrue = s.lcmTrue := rfl
@[simp] theorem State.goOn_done (phase : Phase) (rej : Nat) : (s.goOn phase rej).done = s.done := rfl
@[simp] theorem State.goOn_err (phase : Phase) (rej : Nat) : (s.goOn phase rej).err = s.err := rfl
@[simp] theorem State.goOn_wwb (phase : Phase) (rej : Nat) : (s.goOn phase rej).wwb = s.wwb := rfl
@[simp] theorem State.goOn_lastCmd (phase : Phase) (rej : Nat) : (s.goOn phase rej).lastCmd = s.lastCmd := rfl
@[simp] theorem State.goOn_errCode (phase : Phase) (rej : Nat) : (s.goOn phase rej).errCode = s.errCode := rfl
@[simp] theorem State.goOn_errInfo (phase : Phase) (rej : Nat) : (s.goOn phase rej).errInfo = s.errInfo := rfl
@[simp] theorem State.goOn_iterCap (phase : Phase) (rej : Nat) : (s.goOn phase rej).iterCap = s.iterCap := rfl
@[simp] theorem State.goOn_msgLen (phase : Phase) (rej : Nat) : (s.goOn phase rej).msgLen = s.msgLen := rfl
@[simp] theorem State.goOn_keyValid (phase : Phase) (rej : Nat) : (s.goOn phase rej).keyValid = s.keyValid := rfl
@[simp] theorem State.goOn_regs (phase : Phase) (rej : Nat) : (s.goOn phase rej).regs = s.regs := rfl
@[simp] theorem State.goOn_mem (phase : Phase) (rej : Nat) : (s.goOn phase rej).mem = s.mem := rfl
@[simp] theorem State.goOn_eng (phase : Phase) (rej : Nat) : (s.goOn phase rej).eng = .busy s.runCmd ⟨rej, phase, s.prog.pending⟩ := rfl
@[simp] theorem State.goOn_env (phase : Phase) (rej : Nat) : (s.goOn phase rej).env = s.env := rfl

/-! `State.withEnv` -/

@[simp] theorem State.withEnv_cfg (e : Env) : (s.withEnv e).cfg = s.cfg := rfl
@[simp] theorem State.withEnv_irqEn (e : Env) : (s.withEnv e).irqEn = s.irqEn := rfl
@[simp] theorem State.withEnv_lcmTrue (e : Env) : (s.withEnv e).lcmTrue = s.lcmTrue := rfl
@[simp] theorem State.withEnv_done (e : Env) : (s.withEnv e).done = s.done := rfl
@[simp] theorem State.withEnv_err (e : Env) : (s.withEnv e).err = s.err := rfl
@[simp] theorem State.withEnv_wwb (e : Env) : (s.withEnv e).wwb = s.wwb := rfl
@[simp] theorem State.withEnv_lastCmd (e : Env) : (s.withEnv e).lastCmd = s.lastCmd := rfl
@[simp] theorem State.withEnv_errCode (e : Env) : (s.withEnv e).errCode = s.errCode := rfl
@[simp] theorem State.withEnv_errInfo (e : Env) : (s.withEnv e).errInfo = s.errInfo := rfl
@[simp] theorem State.withEnv_iterCap (e : Env) : (s.withEnv e).iterCap = s.iterCap := rfl
@[simp] theorem State.withEnv_msgLen (e : Env) : (s.withEnv e).msgLen = s.msgLen := rfl
@[simp] theorem State.withEnv_keyValid (e : Env) : (s.withEnv e).keyValid = s.keyValid := rfl
@[simp] theorem State.withEnv_regs (e : Env) : (s.withEnv e).regs = s.regs := rfl
@[simp] theorem State.withEnv_mem (e : Env) : (s.withEnv e).mem = s.mem := rfl
@[simp] theorem State.withEnv_eng (e : Env) : (s.withEnv e).eng = s.eng := rfl
@[simp] theorem State.withEnv_env (e : Env) : (s.withEnv e).env = e := rfl

/-! `State.respond` -/

@[simp] theorem State.respond_cfg (r : Response) : (s.respond r).cfg = s.cfg := rfl
@[simp] theorem State.respond_irqEn (r : Response) : (s.respond r).irqEn = s.irqEn := rfl
@[simp] theorem State.respond_lcmTrue (r : Response) : (s.respond r).lcmTrue = s.lcmTrue := rfl
@[simp] theorem State.respond_done (r : Response) : (s.respond r).done = s.done := rfl
@[simp] theorem State.respond_err (r : Response) : (s.respond r).err = s.err := rfl
@[simp] theorem State.respond_wwb (r : Response) : (s.respond r).wwb = s.wwb := rfl
@[simp] theorem State.respond_lastCmd (r : Response) : (s.respond r).lastCmd = s.lastCmd := rfl
@[simp] theorem State.respond_errCode (r : Response) : (s.respond r).errCode = s.errCode := rfl
@[simp] theorem State.respond_errInfo (r : Response) : (s.respond r).errInfo = s.errInfo := rfl
@[simp] theorem State.respond_iterCap (r : Response) : (s.respond r).iterCap = s.iterCap := rfl
@[simp] theorem State.respond_msgLen (r : Response) : (s.respond r).msgLen = s.msgLen := rfl
@[simp] theorem State.respond_keyValid (r : Response) : (s.respond r).keyValid = s.keyValid := rfl
@[simp] theorem State.respond_regs (r : Response) : (s.respond r).regs = s.regs := rfl
@[simp] theorem State.respond_mem (r : Response) : (s.respond r).mem = s.mem := rfl
@[simp] theorem State.respond_eng (r : Response) : (s.respond r).eng = s.eng := rfl
@[simp] theorem State.respond_env (r : Response) : (s.respond r).env = { s.env with responses := r :: s.env.responses } := rfl

/-! `State.withEvents` -/

@[simp] theorem State.withEvents_cfg (es : List Event) : (s.withEvents es).cfg = s.cfg := rfl
@[simp] theorem State.withEvents_irqEn (es : List Event) : (s.withEvents es).irqEn = s.irqEn := rfl
@[simp] theorem State.withEvents_lcmTrue (es : List Event) : (s.withEvents es).lcmTrue = s.lcmTrue := rfl
@[simp] theorem State.withEvents_done (es : List Event) : (s.withEvents es).done = s.done := rfl
@[simp] theorem State.withEvents_err (es : List Event) : (s.withEvents es).err = s.err := rfl
@[simp] theorem State.withEvents_wwb (es : List Event) : (s.withEvents es).wwb = s.wwb := rfl
@[simp] theorem State.withEvents_lastCmd (es : List Event) : (s.withEvents es).lastCmd = s.lastCmd := rfl
@[simp] theorem State.withEvents_errCode (es : List Event) : (s.withEvents es).errCode = s.errCode := rfl
@[simp] theorem State.withEvents_errInfo (es : List Event) : (s.withEvents es).errInfo = s.errInfo := rfl
@[simp] theorem State.withEvents_iterCap (es : List Event) : (s.withEvents es).iterCap = s.iterCap := rfl
@[simp] theorem State.withEvents_msgLen (es : List Event) : (s.withEvents es).msgLen = s.msgLen := rfl
@[simp] theorem State.withEvents_keyValid (es : List Event) : (s.withEvents es).keyValid = s.keyValid := rfl
@[simp] theorem State.withEvents_regs (es : List Event) : (s.withEvents es).regs = s.regs := rfl
@[simp] theorem State.withEvents_mem (es : List Event) : (s.withEvents es).mem = s.mem := rfl
@[simp] theorem State.withEvents_eng (es : List Event) : (s.withEvents es).eng = s.eng := rfl
@[simp] theorem State.withEvents_env (es : List Event) : (s.withEvents es).env = { s.env with events := es } := rfl

/-! `State.hardReset` -/

@[simp] theorem State.hardReset_cfg : s.hardReset.cfg = s.cfg := rfl
@[simp] theorem State.hardReset_irqEn : s.hardReset.irqEn = false := rfl
@[simp] theorem State.hardReset_lcmTrue : s.hardReset.lcmTrue = false := rfl
@[simp] theorem State.hardReset_done : s.hardReset.done = false := rfl
@[simp] theorem State.hardReset_err : s.hardReset.err = false := rfl
@[simp] theorem State.hardReset_wwb : s.hardReset.wwb = false := rfl
@[simp] theorem State.hardReset_lastCmd : s.hardReset.lastCmd = 0#32 := rfl
@[simp] theorem State.hardReset_errCode : s.hardReset.errCode = 0#8 := rfl
@[simp] theorem State.hardReset_errInfo : s.hardReset.errInfo = 0#8 := rfl
@[simp] theorem State.hardReset_iterCap : s.hardReset.iterCap = 0#32 := rfl
@[simp] theorem State.hardReset_msgLen : s.hardReset.msgLen = 0#32 := rfl
@[simp] theorem State.hardReset_keyValid : s.hardReset.keyValid = 0#3 := rfl
@[simp] theorem State.hardReset_regs : s.hardReset.regs = BigRegs.zero s.cfg.nw := rfl
@[simp] theorem State.hardReset_mem : s.hardReset.mem = [] := rfl
@[simp] theorem State.hardReset_eng : s.hardReset.eng = .idle := rfl
@[simp] theorem State.hardReset_env : s.hardReset.env = s.env := rfl

/-! The big registers -/

theorem BigRegs.get_set (g : BigRegs) (r q : BigReg) (ws : List Word) :
    (g.set r ws).get q = if q = r then ws else g.get q := by
  cases r <;> cases q <;> rfl

@[simp] theorem BigRegs.get_set_same (g : BigRegs) (r : BigReg) (ws : List Word) : (g.set r ws).get r = ws := by
  simp [BigRegs.get_set]

theorem BigRegs.get_set_other (g : BigRegs) {r q : BigReg} (ws : List Word) (h : q ≠ r) :
    (g.set r ws).get q = g.get q := by
  simp [BigRegs.get_set, h]

@[simp] theorem BigRegs.get_zero (nw : Nat) (r : BigReg) : (BigRegs.zero nw).get r = List.replicate nw 0#32 := by
  cases r <;> rfl

theorem State.big_setBig (r q : BigReg) (ws : List Word) :
    (s.setBig r ws).big q = if q = r then ws else s.big q := BigRegs.get_set _ _ _ _

theorem State.big_setX (r q : BigReg) (v : Int) :
    (s.setX r v).big q = if q = r then enc s.cfg.nw v else s.big q := BigRegs.get_set _ _ _ _

@[simp] theorem State.ackStatus_big (v : Word) (q : BigReg) : (s.ackStatus v).big q = s.big q := rfl
@[simp] theorem State.ackStatus_x (v : Word) (q : BigReg) : (s.ackStatus v).x q = s.x q := rfl
@[simp] theorem State.writeCtrl_big (v : Word) (q : BigReg) : (s.writeCtrl v).big q = s.big q := rfl
@[simp] theorem State.writeCtrl_x (v : Word) (q : BigReg) : (s.writeCtrl v).x q = s.x q := rfl
@[simp] theorem State.writeKeyValid_big (v : Word) (q : BigReg) : (s.writeKeyValid v).big q = s.big q := rfl
@[simp] theorem State.writeKeyValid_x (v : Word) (q : BigReg) : (s.writeKeyValid v).x q = s.x q := rfl
@[simp] theorem State.setWwb_big (q : BigReg) : s.setWwb.big q = s.big q := rfl
@[simp] theorem State.setWwb_x (q : BigReg) : s.setWwb.x q = s.x q := rfl
@[simp] theorem State.markKey_big (r : BigReg) (q : BigReg) : (s.markKey r).big q = s.big q := rfl
@[simp] theorem State.markKey_x (r : BigReg) (q : BigReg) : (s.markKey r).x q = s.x q := rfl
@[simp] theorem State.setMsg_big (i : Nat) (b : Byte) (q : BigReg) : (s.setMsg i b).big q = s.big q := rfl
@[simp] theorem State.setMsg_x (i : Nat) (b : Byte) (q : BigReg) : (s.setMsg i b).x q = s.x q := rfl
@[simp] theorem State.setCt_big (i : Nat) (v : Int) (q : BigReg) : (s.setCt i v).big q = s.big q := rfl
@[simp] theorem State.setCt_x (i : Nat) (v : Int) (q : BigReg) : (s.setCt i v).x q = s.x q := rfl
@[simp] theorem State.issue_big (v : Word) (q : BigReg) : (s.issue v).big q = s.big q := rfl
@[simp] theorem State.issue_x (v : Word) (q : BigReg) : (s.issue v).x q = s.x q := rfl
@[simp] theorem State.raise_big (e : ErrorKind) (info : BitVec 8) (q : BigReg) : (s.raise e info).big q = s.big q := rfl
@[simp] theorem State.raise_x (e : ErrorKind) (info : BitVec 8) (q : BigReg) : (s.raise e info).x q = s.x q := rfl
@[simp] theorem State.goOn_big (phase : Phase) (rej : Nat) (q : BigReg) : (s.goOn phase rej).big q = s.big q := rfl
@[simp] theorem State.goOn_x (phase : Phase) (rej : Nat) (q : BigReg) : (s.goOn phase rej).x q = s.x q := rfl
@[simp] theorem State.withEnv_big (e : Env) (q : BigReg) : (s.withEnv e).big q = s.big q := rfl
@[simp] theorem State.withEnv_x (e : Env) (q : BigReg) : (s.withEnv e).x q = s.x q := rfl
@[simp] theorem State.respond_big (r : Response) (q : BigReg) : (s.respond r).big q = s.big q := rfl
@[simp] theorem State.respond_x (r : Response) (q : BigReg) : (s.respond r).x q = s.x q := rfl
@[simp] theorem State.withEvents_big (es : List Event) (q : BigReg) : (s.withEvents es).big q = s.big q := rfl
@[simp] theorem State.withEvents_x (es : List Event) (q : BigReg) : (s.withEvents es).x q = s.x q := rfl

/-! The engine's progress -/

@[simp] theorem State.prog_issue (v : Word) : (s.issue v).prog = Prog.start := rfl
@[simp] theorem State.runCmd_issue (v : Word) : (s.issue v).runCmd = v := rfl
@[simp] theorem State.busy_issue (v : Word) : (s.issue v).busy = true := rfl
@[simp] theorem State.busy_raise (e : ErrorKind) (info : BitVec 8) : (s.raise e info).busy = false := rfl
@[simp] theorem State.busy_goOn (phase : Phase) (rej : Nat) : (s.goOn phase rej).busy = true := rfl
@[simp] theorem State.prog_withEnv (e : Env) : (s.withEnv e).prog = s.prog := rfl
@[simp] theorem State.runCmd_withEnv (e : Env) : (s.withEnv e).runCmd = s.runCmd := rfl
@[simp] theorem State.busy_withEnv (e : Env) : (s.withEnv e).busy = s.busy := rfl
@[simp] theorem State.reject_withEnv (e : Env) (loop : BitVec 8) (phase : Phase) :
    (s.withEnv e).reject loop phase = s.reject loop phase := rfl

theorem State.busy_iff : s.busy = true ↔ ∃ c p, s.eng = .busy c p := by
  unfold State.busy; cases s.eng <;> simp

theorem State.not_busy_iff : s.busy = false ↔ s.eng = .idle := by
  unfold State.busy; cases s.eng <;> simp

end Sys2Proof.Machine
end

