-- ==== Sys2Proof/Laws/Ops.lean ====
section
/-!
SUPPORT. What the shared operations can do, said once: commit and completion (R133), error completion (R134), going on
(R132), rejection (R190), the draws' surroundings, the cipher's writes (R231, R232); and one lemma that says everything
an engine step of a command can come to (`exec_next`).
-/
namespace Sys2Proof.Machine

/-! ## Legal builds -/

theorem Params.wf_iff (p : Params) : p.wf = true ↔
    64 ≤ p.width ∧ p.width ≤ 8192 ∧ p.maxLen % 4 = 0 ∧ 4 ≤ p.maxLen ∧ p.maxLen ≤ 16384 ∧
      p.maxLen * p.nw * 4 ≤ 0x100000 := by
  simp [Params.wf, Params.widthOk, Params.maxLenOk, Params.windowOk, and_assoc]

theorem Params.nw_pos {p : Params} (h : p.wf = true) : 2 ≤ p.nw ∧ p.nw ≤ 256 := by
  have := (Params.wf_iff p).1 h
  unfold Params.width at this
  omega

/-! ## Same... relations -/

theorem SameMemory.rfl' (s : State) : SameMemory s s := fun _ => rfl

theorem SameBut.rfl' (rs : List BigReg) (s : State) : SameBut rs s s := by
  simp [SameBut]

theorem SameBut.mono {rs rs' : List BigReg} {s t : State} (h : SameBut rs s t) (hs : ∀ r ∈ rs, r ∈ rs') :
    SameBut rs' s t :=
  ⟨fun r hr => h.1 r fun hm => hr (hs r hm), h.2⟩

/-! ## Commit and completion -/

/-- One pending write leaves every other field alone. -/
theorem commitOne_fields (s : State) (w : PendingWrite) :
    (s.commitOne w).cfg = s.cfg ∧ (s.commitOne w).irqEn = s.irqEn ∧ (s.commitOne w).lcmTrue = s.lcmTrue ∧
      (s.commitOne w).done = s.done ∧ (s.commitOne w).err = s.err ∧ (s.commitOne w).wwb = s.wwb ∧
      (s.commitOne w).lastCmd = s.lastCmd ∧ (s.commitOne w).iterCap = s.iterCap ∧
      (s.commitOne w).msgLen = s.msgLen ∧ (s.commitOne w).eng = s.eng ∧ (s.commitOne w).env = s.env := by
  cases w <;> simp [State.commitOne]

theorem commit_fields (ws : List PendingWrite) : ∀ s : State,
    (s.commit ws).cfg = s.cfg ∧ (s.commit ws).irqEn = s.irqEn ∧ (s.commit ws).lcmTrue = s.lcmTrue ∧
      (s.commit ws).done = s.done ∧ (s.commit ws).err = s.err ∧ (s.commit ws).wwb = s.wwb ∧
      (s.commit ws).lastCmd = s.lastCmd ∧ (s.commit ws).iterCap = s.iterCap ∧
      (s.commit ws).msgLen = s.msgLen ∧ (s.commit ws).eng = s.eng ∧ (s.commit ws).env = s.env := by
  induction ws with
  | nil => intro s; simp [State.commit]
  | cons w ws ih =>
    intro s
    have h1 := ih (s.commitOne w)
    have h2 := commitOne_fields s w
    have e : s.commit (w :: ws) = (s.commitOne w).commit ws := rfl
    rw [e]
    simp only [h1, h2, and_self]

@[simp] theorem commit_nil (s : State) : s.commit [] = s := rfl
@[simp] theorem commit_cons (s : State) (w : PendingWrite) (ws : List PendingWrite) :
    s.commit (w :: ws) = (s.commitOne w).commit ws := rfl

/-- The fields a completion reports in (R133). -/
theorem complete_completed (s : State) (ws : List PendingWrite) : Completed s (s.complete ws) :=
  ⟨rfl, rfl, (commit_fields ws s).2.2.2.2.1, rfl, rfl⟩

@[simp] theorem complete_env (s : State) (ws : List PendingWrite) : (s.complete ws).env = s.env :=
  (commit_fields ws s).2.2.2.2.2.2.2.2.2.2

/-- Which target a pending write has: a big register. -/
def PendingWrite.isBig (r : BigReg) : PendingWrite → Bool
  | .big q _ => q = r
  | .keyValid _ => false
  | .ct _ _ => false
  | .msg _ _ => false

theorem commit_big_other (r : BigReg) (ws : List PendingWrite) : ∀ s : State,
    (∀ w ∈ ws, w.isBig r = false) → (s.commit ws).big r = s.big r := by
  induction ws with
  | nil => intro s _; rfl
  | cons w ws ih =>
    intro s h
    rw [commit_cons, ih _ fun w' hw' => h w' (by simp [hw'])]
    have := h w (by simp)
    cases w with
    | big q v =>
      simp only [PendingWrite.isBig, decide_eq_false_iff_not] at this
      simp only [State.commitOne, State.big_setX, if_neg (Ne.symm this)]
    | keyValid b => rfl
    | ct k v => rfl
    | msg k b => rfl

theorem commit_keyValid_other (ws : List PendingWrite) : ∀ s : State,
    (∀ w ∈ ws, ∀ b, w ≠ .keyValid b) → (s.commit ws).keyValid = s.keyValid := by
  induction ws with
  | nil => intro s _; rfl
  | cons w ws ih =>
    intro s h
    rw [commit_cons, ih _ fun w' hw' => h w' (by simp [hw'])]
    have := h w (by simp)
    cases w <;> simp [State.commitOne] at this ⊢

/-- The bytes a pending write reaches. -/
def PendingWrite.reaches (p : Params) (a : Nat) : PendingWrite → Prop
  | .big _ _ => False
  | .keyValid _ => False
  | .ct i _ => ctWordAddr p i 0 ≤ a ∧ a < ctWordAddr p i 0 + 4 * p.nw
  | .msg i _ => a = msgAddr i

theorem commitOne_read (s : State) (w : PendingWrite) {a : Nat} (h : ¬ w.reaches s.cfg a) :
    (s.commitOne w).mem.read a = s.mem.read a := by
  cases w with
  | big r v => rfl
  | keyValid b => rfl
  | ct i v =>
    simp only [PendingWrite.reaches] at h
    exact Memory.read_writeWords_other _ _ (by rw [length_enc]; omega)
  | msg i b =>
    simp only [PendingWrite.reaches] at h
    simp [State.commitOne, Memory.read_write, h]

/-- A byte that no pending write reaches reads as before. -/
theorem commit_read (ws : List PendingWrite) {a : Nat} : ∀ s : State, (∀ w ∈ ws, ¬ w.reaches s.cfg a) →
    (s.commit ws).mem.read a = s.mem.read a := by
  induction ws with
  | nil => intro s _; rfl
  | cons w ws ih =>
    intro s h
    rw [commit_cons, ih, commitOne_read _ _ (h w (by simp))]
    intro w' hw'
    rw [(commitOne_fields s w).1]
    exact h w' (by simp [hw'])

theorem complete_sameBut (s : State) (ws : List PendingWrite) (rs : List BigReg)
    (h : ∀ r, r ∉ rs → ∀ w ∈ ws, w.isBig r = false) : SameBut rs s (s.complete ws) := by
  have hf := commit_fields ws s
  refine ⟨fun r hr => commit_big_other r ws s (h r hr), hf.1, hf.2.1, hf.2.2.1, hf.2.2.2.2.2.1, hf.2.2.2.2.2.2.1,
    hf.2.2.2.2.2.2.2.1, hf.2.2.2.2.2.2.2.2.1, ?_, ?_⟩
  · rw [complete_env]
  · rw [complete_env]

/-! ## Error completion and going on -/

theorem raise_failedWith (s : State) (e : ErrorKind) (info : BitVec 8) : FailedWith e.code info s (s.raise e info) :=
  ⟨rfl, rfl, rfl, rfl, rfl, by simp [SameBut], rfl, fun _ => rfl⟩

theorem goOn_goesOn (s : State) (phase : Phase) (rej : Nat) : GoesOn s (s.goOn phase rej) :=
  ⟨⟨_, rfl⟩, rfl, rfl, rfl, rfl, by simp [SameBut], rfl, fun _ => rfl⟩

/-- A rejection either raises GENERATION_TIMEOUT, having reached a nonzero ITER_CAP, or goes on with one more (R190). -/
theorem reject_cases (s : State) (loop : BitVec 8) (phase : Phase) :
    (s.reject loop phase = .raise .generationTimeout loop ∧ s.iterCap ≠ 0#32 ∧ s.iterCap.toNat ≤ s.prog.rej + 1) ∨
      (s.reject loop phase = .again phase (s.prog.rej + 1) ∧
        (s.iterCap ≠ 0#32 → s.prog.rej + 1 < s.iterCap.toNat)) := by
  unfold State.reject
  split
  · next h => exact .inl ⟨rfl, h⟩
  · next h =>
    refine .inr ⟨rfl, fun hc => ?_⟩
    by_contra hn
    exact h ⟨hc, not_lt.1 hn⟩

/-! ## Draws leave the host's side alone -/

/-- Two surroundings with the same accesses to come and the same answers. -/
def SameHost (e e' : Env) : Prop := e'.events = e.events ∧ e'.responses = e.responses

theorem SameHost.refl (e : Env) : SameHost e e := ⟨rfl, rfl⟩
theorem SameHost.trans {a b c : Env} (h : SameHost a b) (h' : SameHost b c) : SameHost a c :=
  ⟨h'.1.trans h.1, h'.2.trans h.2⟩

theorem draw_sameHost (e : Env) (lo hi : Nat) : SameHost e (e.draw lo hi).2 := ⟨rfl, rfl⟩

theorem probeRounds_sameHost (n : Int) (rounds : Nat) : ∀ e : Env, SameHost e (probeRounds n rounds e).2 := by
  induction rounds with
  | zero => intro e; exact .refl e
  | succ k ih =>
    intro e
    unfold probeRounds
    simp only
    split
    · exact (draw_sameHost e _ _).trans (ih _)
    · exact ⟨rfl, rfl⟩

theorem isProbablyPrime_sameHost (n : Int) (e : Env) : SameHost e (isProbablyPrime n e).2 := by
  unfold isProbablyPrime
  split
  · exact .refl e
  · split
    · exact .refl e
    · exact probeRounds_sameHost _ _ _

theorem primeIteration_sameHost (b : Nat) (e : Env) : SameHost e (primeIteration b e).2 := by
  unfold primeIteration
  simp only
  split
  · exact ⟨rfl, rfl⟩
  · split
    · exact (draw_sameHost e _ _).trans (isProbablyPrime_sameHost _ _)
    · exact (draw_sameHost e _ _).trans (isProbablyPrime_sameHost _ _)

/-! ## The cipher's writes -/

/-- A missing-key mask of ENCRYPT or DECRYPT is a sub-cause of R252. -/
theorem missing_pairOk : ∀ kv : BitVec 3,
    (missingKeys (keyBit .keyE ||| keyBit .keyN) kv ≠ 0#3 →
      errorPairOk 3 ((missingKeys (keyBit .keyE ||| keyBit .keyN) kv).setWidth 8).toNat = true) ∧
    (missingKeys (keyBit .keyD ||| keyBit .keyN) kv ≠ 0#3 →
      errorPairOk 3 ((missingKeys (keyBit .keyD ||| keyBit .keyN) kv).setWidth 8).toNat = true) := by
  decide

theorem encryptWrites_ok {s : State} {n : Int} {e : Nat} (count : Nat) : ∀ {i : Nat} {ws : List PendingWrite},
    encryptWrites s n e count i = .ok ws →
      ∀ w ∈ ws, ∃ k m, i ≤ k ∧ k < i + count ∧ s.msgByte k = .ok m ∧ w = .ct k (modPow m.toNat e n) := by
  induction count with
  | zero => intro i ws h; simp [encryptWrites] at h; subst h; simp
  | succ c ih =>
    intro i ws h
    unfold encryptWrites at h
    split at h
    · cases h
    · next m hm =>
      split at h
      · cases h
      · next ws' hw =>
        injection h with h; subst h
        intro w hwm
        rcases List.mem_cons.1 hwm with rfl | hwm
        · exact ⟨i, m, le_rfl, by omega, hm, rfl⟩
        · obtain ⟨k, m', h1, h2, h3⟩ := ih hw w hwm
          exact ⟨k, m', by omega, by omega, h3⟩

theorem decryptWrites_ok {s : State} {n : Int} {d : Nat} (count : Nat) : ∀ {i : Nat} {ws : List PendingWrite},
    decryptWrites s n d count i = .ok ws →
      ∀ w ∈ ws, ∃ k c, i ≤ k ∧ k < i + count ∧ s.ctWords k = .ok c ∧
        w = .msg k (BitVec.ofInt 8 (modPow (sint c) d n)) := by
  induction count with
  | zero => intro i ws h; simp [decryptWrites] at h; subst h; simp
  | succ c ih =>
    intro i ws h
    unfold decryptWrites at h
    split at h
    · cases h
    · next m hm =>
      split at h
      · cases h
      · next ws' hw =>
        injection h with h; subst h
        intro w hwm
        rcases List.mem_cons.1 hwm with rfl | hwm
        · exact ⟨i, m, le_rfl, by omega, hm, rfl⟩
        · obtain ⟨k, m', h1, h2, h3⟩ := ih hw w hwm
          exact ⟨k, m', by omega, by omega, h3⟩

/-- Where the cipher's checks pass, the key is present, the length fits, and modulus and exponent are usable (R230). -/
theorem cipherChecks_ok {s : State} {key : BigReg} {len : Nat} {n : Int} {k : Nat}
    (h : cipherChecks s key = .ok (len, n, k)) :
    missingKeys (keyBit key ||| keyBit .keyN) s.keyValid = 0#3 ∧ len = s.msgLen.toNat ∧ len ≤ s.cfg.maxLen ∧
      n = s.x .keyN ∧ 0 < n ∧ 0 ≤ s.x key ∧ (k : Int) = s.x key := by
  unfold cipherChecks at h
  simp only [ne_eq] at h
  split at h
  · cases h
  · next h1 =>
    split at h
    · cases h
    · next h2 =>
      split at h
      · cases h
      · next h3 =>
        split at h
        · cases h
        · next h4 =>
          simp only [Except.ok.injEq, Prod.mk.injEq] at h
          obtain ⟨rfl, rfl, rfl⟩ := h
          exact ⟨not_not.1 h1, rfl, not_lt.1 h2, rfl, not_le.1 h3, not_lt.1 h4, Int.toNat_of_nonneg (not_lt.1 h4)⟩

/-- The cipher's checks raise only errors of R256, in its order. -/
theorem cipherChecks_error {s : State} {key : BigReg} (hk : key = .keyE ∨ key = .keyD) {e : ErrorKind} {info : BitVec 8}
    (h : cipherChecks s key = .error (e, info)) : errorPairOk e.code.toNat info.toNat = true ∧ e.code ≠ 0#8 := by
  unfold cipherChecks at h
  simp only [ne_eq] at h
  split at h
  · next h1 =>
    simp only [Except.error.injEq, Prod.mk.injEq] at h
    obtain ⟨rfl, rfl⟩ := h
    rcases hk with rfl | rfl
    · exact ⟨(missing_pairOk s.keyValid).1 h1, by decide⟩
    · exact ⟨(missing_pairOk s.keyValid).2 h1, by decide⟩
  · split at h
    · simp only [Except.error.injEq, Prod.mk.injEq] at h; obtain ⟨rfl, rfl⟩ := h; decide
    · split at h
      · simp only [Except.error.injEq, Prod.mk.injEq] at h; obtain ⟨rfl, rfl⟩ := h; decide
      · split at h
        · simp only [Except.error.injEq, Prod.mk.injEq] at h; obtain ⟨rfl, rfl⟩ := h; decide
        · cases h

/-! ## Everything an engine step of a command can come to -/

/-- What R114 lets a command's pending write be. -/
def targetOk (i : Instr) (s : State) : PendingWrite → Prop
  | .big r _ => r ∈ resultRegs i
  | .keyValid _ => i = .keygen
  | .ct k _ => i = .encrypt ∧ k < s.msgLen.toNat ∧ s.msgLen.toNat ≤ s.cfg.maxLen
  | .msg k _ => i = .decrypt ∧ k < s.msgLen.toNat ∧ s.msgLen.toNat ≤ s.cfg.maxLen

/-- What a command's answer can be: writes to its own targets, an error of R251 and R252, or (for a command with an
unbounded loop) going on with a count below a nonzero ITER_CAP, or in another phase of KEYGEN. -/
def answerOk (i : Instr) (s : State) : Answer → Prop
  | .ret ws => ∀ w ∈ ws, targetOk i s w
  | .raise e info => errorPairOk e.code.toNat info.toNat = true ∧ e.code ≠ 0#8
  | .again phase rej => (i = .candprime ∨ i = .randprime ∨ i = .keygen) ∧ (i ≠ .keygen → phase = .start) ∧
      ((rej = s.prog.rej + 1 ∧ (s.iterCap ≠ 0#32 → rej < s.iterCap.toNat)) ∨
        (rej = s.prog.rej ∧ phase ≠ s.prog.phase ∧ phase ≠ .start))

theorem reject_answerOk {i : Instr} {s : State} (hi : i = .candprime ∨ i = .randprime ∨ i = .keygen) {loop : BitVec 8}
    (hl : loop = 1#8 ∨ loop = 2#8 ∨ loop = 3#8) {phase : Phase} (hp : i ≠ .keygen → phase = .start) :
    answerOk i s (s.reject loop phase) := by
  rcases reject_cases s loop phase with ⟨h, -⟩ | ⟨h, hc⟩
  · rw [h]; rcases hl with rfl | rfl | rfl <;> exact ⟨by decide, by decide⟩
  · rw [h]; exact ⟨hi, hp, .inl ⟨rfl, hc⟩⟩

theorem checkBits_pairOk {b lo hi : Int} {info : BitVec 8} (h : checkBits b lo hi = some info) :
    errorPairOk 6 info.toNat = true := by
  unfold checkBits at h
  split at h
  · injection h with h; subst h; decide
  · split at h
    · injection h with h; subst h; decide
    · cases h

theorem checkBits_none {b lo hi : Int} : checkBits b lo hi = none ↔ lo ≤ b ∧ b ≤ hi := by
  unfold checkBits
  split
  · simp; omega
  · split
    · simp; omega
    · simp; omega

theorem keygenStep_ok (s : State) : answerOk .keygen s (keygenStep s).1 ∧ SameHost s.env (keygenStep s).2 := by
  have hrej : ∀ {l ph}, l = 1#8 ∨ l = 2#8 ∨ l = 3#8 → answerOk .keygen s (s.reject l ph) :=
    fun hl => reject_answerOk (.inr (.inr rfl)) hl (fun h => absurd rfl h)
  have hprime : ∀ ph next, (∀ c, answerOk .keygen s (next c)) →
      answerOk .keygen s (keygenPrime s ph next).1 ∧ SameHost s.env (keygenPrime s ph next).2 := by
    intro ph next hn
    unfold keygenPrime
    split
    · next c e h => exact ⟨hn c, by have := primeIteration_sameHost (s.x .opa).toNat s.env; rwa [h] at this⟩
    · next l e h =>
      refine ⟨hrej ?_, by have := primeIteration_sameHost (s.x .opa).toNat s.env; rwa [h] at this⟩
      rcases primeIteration_rejected h with rfl | rfl <;> simp
  unfold keygenStep
  split
  · next info h => exact ⟨⟨checkBits_pairOk h, by simp [ErrorKind.code]⟩, .refl _⟩
  · split
    · next hph =>
      exact hprime _ _ fun c => ⟨.inr (.inr rfl), fun h => absurd rfl h, .inr ⟨rfl, by simp [hph], by simp⟩⟩
    · next p hph =>
      refine hprime _ _ fun q => ?_
      unfold keygenModulus
      split
      · exact ⟨by decide, by decide⟩
      · exact ⟨.inr (.inr rfl), fun h => absurd rfl h, .inr ⟨rfl, by simp [hph], by simp⟩⟩
    · unfold keygenExponent
      simp only
      split
      · refine ⟨fun w hw => ?_, ⟨rfl, rfl⟩⟩
        simp only [keygenWrites, List.mem_cons, List.not_mem_nil, or_false] at hw
        rcases hw with rfl | rfl | rfl | rfl | rfl | rfl | rfl | rfl <;> simp [targetOk, resultRegs]
      · exact ⟨hrej (by simp), ⟨rfl, rfl⟩⟩

theorem candprimeStep_ok (s : State) : answerOk .candprime s (candprimeStep s).1 ∧ SameHost s.env (candprimeStep s).2 := by
  unfold candprimeStep
  split
  · next info h => exact ⟨⟨checkBits_pairOk h, by simp [ErrorKind.code]⟩, .refl _⟩
  · simp only
    split
    · exact ⟨reject_answerOk (.inl rfl) (by simp) (fun _ => rfl), ⟨rfl, rfl⟩⟩
    · exact ⟨by simp [answerOk, targetOk, resultRegs], ⟨rfl, rfl⟩⟩

theorem randprimeStep_ok (s : State) : answerOk .randprime s (randprimeStep s).1 ∧ SameHost s.env (randprimeStep s).2 := by
  unfold randprimeStep
  split
  · next info h => exact ⟨⟨checkBits_pairOk h, by simp [ErrorKind.code]⟩, .refl _⟩
  · split
    · next c e h =>
      exact ⟨by simp [answerOk, targetOk, resultRegs],
        by have := primeIteration_sameHost (s.x .opa).toNat s.env; rwa [h] at this⟩
    · next l e h =>
      refine ⟨reject_answerOk (.inr (.inl rfl)) ?_ (fun _ => rfl),
        by have := primeIteration_sameHost (s.x .opa).toNat s.env; rwa [h] at this⟩
      rcases primeIteration_rejected h with rfl | rfl <;> simp

/-- A cipher command's step: it completes with its writes, fails a check, or faults on an unwritten element. -/
theorem cipherRun_next {s t : State} {key : BigReg} {i : Instr} (hk : key = .keyE ∨ key = .keyD)
    {writes : Int → Nat → Nat → Nat → Except Fault (List PendingWrite)}
    (hw : ∀ {n k ws}, s.msgLen.toNat ≤ s.cfg.maxLen → writes n k s.msgLen.toNat 0 = .ok ws → ∀ w ∈ ws, targetOk i s w)
    (h : cipherRun s key writes = .next t) : ∃ ans, t = s.finish ans ∧ answerOk i s ans := by
  unfold cipherRun at h
  split at h
  · next e info hc =>
    injection h with h
    exact ⟨_, h.symm, cipherChecks_error hk hc⟩
  · next len n k hc =>
    split at h
    · cases h
    · next ws hws =>
      injection h with h
      have hok := cipherChecks_ok hc
      rw [hok.2.1] at hws
      exact ⟨_, h.symm, hw (hok.2.1 ▸ hok.2.2.1) hws⟩

theorem withEnv_self (s : State) : s.withEnv s.env = s := rfl

/-- An engine step of a command that answers a next state comes to one of the answers of `answerOk`, with only draws taken
from its surroundings. -/
theorem exec_next {i : Instr} {s t : State} (h : exec i s = .next t) :
    ∃ e ans, t = (s.withEnv e).finish ans ∧ SameHost s.env e ∧ answerOk i s ans := by
  have pure : ∀ {ans}, answerOk i s ans → Host.Outcome.next (s.finish ans) = (Host.Outcome.next t : Out) →
      ∃ e ans, t = (s.withEnv e).finish ans ∧ SameHost s.env e ∧ answerOk i s ans := by
    intro ans ha hh
    injection hh with hh
    exact ⟨s.env, ans, by rw [withEnv_self, hh], .refl _, ha⟩
  have drew : ∀ {ans e}, answerOk i s ans ∧ SameHost s.env e →
      Host.Outcome.next ((s.withEnv e).finish ans) = (Host.Outcome.next t : Out) →
      ∃ e ans, t = (s.withEnv e).finish ans ∧ SameHost s.env e ∧ answerOk i s ans := by
    intro ans e ha hh
    injection hh with hh
    exact ⟨e, ans, hh.symm, ha.2, ha.1⟩
  cases i with
  | nop => exact pure (by simp [answerOk]) h
  | modmul =>
    refine pure ?_ h
    unfold modmulBody; split
    · exact ⟨by decide, by decide⟩
    · simp [answerOk, targetOk, resultRegs]
  | montmul =>
    refine pure ?_ h
    unfold montmulBody; split
    · exact ⟨by decide, by decide⟩
    · split
      · exact ⟨by decide, by decide⟩
      · simp [answerOk, targetOk, resultRegs]
  | modexp =>
    refine pure ?_ h
    unfold modexpBody; split
    · exact ⟨by decide, by decide⟩
    · split
      · exact ⟨by decide, by decide⟩
      · simp [answerOk, targetOk, resultRegs]
  | egcd =>
    refine pure ?_ h
    unfold egcdBody; split
    · exact ⟨by decide, by decide⟩
    · split
      · simp [answerOk, targetOk, resultRegs]
      · exact ⟨by decide, by decide⟩
  | lcm =>
    refine pure ?_ h
    unfold lcmBody; split
    · exact ⟨by decide, by decide⟩
    · split
      · simp [answerOk, targetOk, resultRegs]
      · exact ⟨by decide, by decide⟩
  | randrange => exact drew ⟨by simp [answerOk, targetOk, resultRegs, randrangeBody], draw_sameHost _ _ _⟩ h
  | candprime => exact drew (candprimeStep_ok s) h
  | mrtest => exact drew ⟨by simp [mrtestStep, answerOk, targetOk, resultRegs], isProbablyPrime_sameHost _ _⟩ h
  | randprime => exact drew (randprimeStep_ok s) h
  | keygen => exact drew (keygenStep_ok s) h
  | keydigits =>
    refine pure ?_ h
    unfold keydigitsBody; split
    · exact ⟨by decide, by decide⟩
    · simp [answerOk, targetOk, resultRegs]
  | encrypt =>
    obtain ⟨ans, ha, hok⟩ := cipherRun_next (i := .encrypt) (.inl rfl) (fun hl hw w hm => by
      obtain ⟨k, m, -, h2, -, rfl⟩ := encryptWrites_ok _ hw w hm
      exact ⟨rfl, by omega, hl⟩) h
    exact ⟨s.env, ans, by rw [withEnv_self, ha], .refl _, hok⟩
  | decrypt =>
    obtain ⟨ans, ha, hok⟩ := cipherRun_next (i := .decrypt) (.inr rfl) (fun hl hw w hm => by
      obtain ⟨k, m, -, h2, -, rfl⟩ := decryptWrites_ok _ hw w hm
      exact ⟨rfl, by omega, hl⟩) h
    exact ⟨s.env, ans, by rw [withEnv_self, ha], .refl _, hok⟩

end Sys2Proof.Machine
end

