-- ==== Sys2Proof/Laws/Inv.lean ====
section
/-!
SUPPORT. Which operations keep the invariant of the machine (Safety.lean): one lemma per operation.
-/
namespace Sys2Proof.Machine

/-- The part of the invariant that speaks of a memory alone. -/
structure MemOk (p : Params) (m : Memory) : Prop where
  wf : m.wf
  inside : ∀ c ∈ m, isMsgByte p c.1 ∨ isCtByte p c.1
  marks : ∀ a k, isCtByte p a → a % 4 = 0 → k < 4 → (m.read (a + k)).isSome = (m.read a).isSome

theorem State.Inv.memOk {s : State} (h : s.Inv) : MemOk s.cfg s.mem := ⟨h.mem_wf, h.mem_inside, h.ct_marks⟩

theorem msg_below_ct {p : Params} (hp : p.wf = true) {a : Nat} (h : isMsgByte p a) : a < 0x100000 := by
  have := (Params.wf_iff p).1 hp
  unfold isMsgByte at h
  omega

/-- A byte write inside MSG keeps the memory's form. -/
theorem MemOk.write_msg {p : Params} (hp : p.wf = true) {m : Memory} (h : MemOk p m) {a : Nat} (b : Byte)
    (ha : isMsgByte p a) : MemOk p (m.write a b) where
  wf := Memory.wf_write h.wf a b
  inside := fun c hc => by
    rcases Memory.mem_write hc with rfl | hc
    · exact .inl ha
    · exact h.inside c hc
  marks := fun x k hx h4 hk => by
    have hlt := msg_below_ct hp ha
    have hx' := hx.1
    rw [Memory.read_write, if_neg (by omega), Memory.read_write, if_neg (by omega)]
    exact h.marks x k hx h4 hk

/-- A word write inside CT keeps the memory's form. -/
theorem MemOk.write32_ct {p : Params} {m : Memory} (h : MemOk p m) {a : Nat} (w : Word)
    (ha : isCtByte p a) (h4 : a % 4 = 0) : MemOk p (m.write32 a w) where
  wf := Memory.wf_write32 h.wf a w
  inside := fun c hc => by
    have hct : ∀ k, k < 4 → isCtByte p (a + k) := fun k hk => ⟨by have := ha.1; omega, by
      have := ha.2; omega⟩
    unfold Memory.write32 at hc
    rcases Memory.mem_write hc with rfl | hc
    · exact .inr (hct 3 (by omega))
    · rcases Memory.mem_write hc with rfl | hc
      · exact .inr (hct 2 (by omega))
      · rcases Memory.mem_write hc with rfl | hc
        · exact .inr (hct 1 (by omega))
        · rcases Memory.mem_write hc with rfl | hc
          · exact .inr (hct 0 (by omega))
          · exact h.inside c hc
  marks := fun x k hx hx4 hk => by
    by_cases e : x = a
    · subst e
      have e0 := Memory.read_write32_lane m x w (k := 0) (by omega)
      rw [Nat.add_zero] at e0
      rw [Memory.read_write32_lane m x w hk, e0]; rfl
    · rw [Memory.read_write32_other m w (by omega), Memory.read_write32_other m w (by omega)]
      exact h.marks x k hx hx4 hk

/-- A word write inside MSG keeps the memory's form. -/
theorem MemOk.write32_msg {p : Params} (hp : p.wf = true) {m : Memory} (h : MemOk p m) {a : Nat} (w : Word)
    (ha : ∀ k, k < 4 → isMsgByte p (a + k)) : MemOk p (m.write32 a w) :=
  MemOk.write_msg hp (MemOk.write_msg hp (MemOk.write_msg hp (MemOk.write_msg hp h _ (ha 0 (by omega))) _
    (ha 1 (by omega))) _ (ha 2 (by omega))) _ (ha 3 (by omega))

/-- Word writes inside CT keep the memory's form. -/
theorem MemOk.writeWords_ct {p : Params} (ws : List Word) : ∀ {m : Memory} {a : Nat}, MemOk p m → 0x100000 ≤ a →
    a % 4 = 0 → a + 4 * ws.length ≤ 0x100000 + 4 * (p.maxLen * p.nw) → MemOk p (m.writeWords a ws) := by
  induction ws with
  | nil => intro m a h _ _ _; exact h
  | cons w ws ih =>
    intro m a h h1 h4 h2
    rw [List.length_cons] at h2
    exact ih (h.write32_ct w ⟨h1, by omega⟩ h4) (by omega) (by omega) (by omega)

theorem ct_inside (p : Params) {i j n : Nat} (hi : i < p.maxLen) (hj : j + n ≤ p.nw) :
    ctWordAddr p i j + 4 * n ≤ 0x100000 + 4 * (p.maxLen * p.nw) := by
  have : (i + 1) * p.nw ≤ p.maxLen * p.nw := Nat.mul_le_mul_right _ hi
  rw [Nat.add_mul, Nat.one_mul] at this
  unfold ctWordAddr
  omega

/-- With an Idle engine, the invariant is that of the registers, the memory and the error registers. -/
theorem inv_of_idle {s t : State} (h : s.Inv) (hc : t.cfg = s.cfg) (hr : ∀ r, (t.big r).length = s.cfg.nw)
    (hm : MemOk s.cfg t.mem) (hp : errorPairOk t.errCode.toNat t.errInfo.toNat = true)
    (he : t.err = true → t.errCode ≠ 0#8) (hi : t.eng = .idle) : t.Inv where
  cfg_wf := by rw [hc]; exact h.cfg_wf
  regs_length := by rw [hc]; exact hr
  mem_wf := hm.wf
  mem_inside := by rw [hc]; exact hm.inside
  ct_marks := by rw [hc]; exact hm.marks
  error_pair := hp
  err_code := he
  engine := by unfold engineOk; rw [hi]; trivial

/-- A change that keeps the registers, the memory, CTRL, LASTCMD, ITER_CAP, the error registers and the engine, and does
not set DONE or ERR, keeps the invariant. -/
theorem inv_of_same {s t : State} (h : s.Inv) (hc : t.cfg = s.cfg) (hr : t.regs = s.regs) (hm : t.mem = s.mem)
    (hd : t.done = true → s.done = true) (he : t.err = true → s.err = true) (h1 : t.errCode = s.errCode)
    (h2 : t.errInfo = s.errInfo) (h3 : t.lastCmd = s.lastCmd) (h4 : t.iterCap = s.iterCap)
    (h5 : t.lcmTrue = s.lcmTrue) (h6 : t.eng = s.eng) : t.Inv where
  cfg_wf := by rw [hc]; exact h.cfg_wf
  regs_length := by intro r; unfold State.big; rw [hc, hr]; exact h.regs_length r
  mem_wf := by rw [hm]; exact h.mem_wf
  mem_inside := by rw [hc, hm]; exact h.mem_inside
  ct_marks := by rw [hc, hm]; exact h.ct_marks
  error_pair := by rw [h1, h2]; exact h.error_pair
  err_code := by rw [h1]; exact fun e => h.err_code (he e)
  engine := by
    have hx : ∀ r, t.x r = s.x r := fun r => by unfold State.x State.big; rw [hr]
    have := h.engine
    unfold engineOk at this ⊢
    rw [h6]
    cases hs : s.eng with
    | idle => trivial
    | busy cmd p =>
      rw [hs] at this
      simp only [busyOk] at this ⊢
      obtain ⟨a1, a2, a3, a4, a5, a6, a7, a8⟩ := this
      refine ⟨?_, ?_, by rw [h1, a3], by rw [h2, a4], by rw [h3, a5], a6, by rw [h4]; exact a7, ?_⟩
      · by_contra hn; rw [hd (by simpa using hn)] at a1; cases a1
      · by_contra hn; rw [he (by simpa using hn)] at a2; cases a2
      · cases hp : p.phase with
        | start => trivial
        | keygenQ q =>
          rw [hp] at a8
          simpa only [phaseOk, keygenBitsOk, keygenPrimeOk, hx, hc] using a8
        | keygenE n lam =>
          rw [hp] at a8
          simpa only [phaseOk, keygenBitsOk, keygenPrimeOk, hx, hc, h5] using a8

theorem State.Inv.withEnv {s : State} (h : s.Inv) (e : Env) : (s.withEnv e).Inv :=
  inv_of_same h rfl rfl rfl (fun e => e) (fun e => e) rfl rfl rfl rfl rfl rfl

theorem State.Inv.respond {s : State} (h : s.Inv) (r : Response) : (s.respond r).Inv :=
  inv_of_same h rfl rfl rfl (fun e => e) (fun e => e) rfl rfl rfl rfl rfl rfl

theorem State.Inv.withEvents {s : State} (h : s.Inv) (es : List Event) : (s.withEvents es).Inv :=
  inv_of_same h rfl rfl rfl (fun e => e) (fun e => e) rfl rfl rfl rfl rfl rfl

theorem State.Inv.setWwb {s : State} (h : s.Inv) : s.setWwb.Inv :=
  inv_of_same h rfl rfl rfl (fun e => e) (fun e => e) rfl rfl rfl rfl rfl rfl

theorem State.Inv.ackStatus {s : State} (h : s.Inv) (v : Word) : (s.ackStatus v).Inv :=
  inv_of_same h rfl rfl rfl (fun e => by simp at e; exact e.1) (fun e => by simp at e; exact e.1) rfl rfl rfl rfl rfl rfl

/-- A register of the right length, with an Idle engine. -/
theorem State.Inv.setBig {s : State} (h : s.Inv) (hi : s.eng = .idle) (r : BigReg) {ws : List Word}
    (hl : ws.length = s.cfg.nw) : (s.setBig r ws).Inv :=
  inv_of_idle h rfl (fun q => by rw [State.big_setBig]; split; exacts [hl, h.regs_length q]) h.memOk h.error_pair
    h.err_code hi

theorem State.Inv.setX {s : State} (h : s.Inv) (hi : s.eng = .idle) (r : BigReg) (v : Int) : (s.setX r v).Inv :=
  h.setBig hi r (length_enc _ _)

/-- Another memory of the right form, with an Idle engine. -/
theorem State.Inv.withMem {s : State} (h : s.Inv) (hi : s.eng = .idle) {m : Memory} (hm : MemOk s.cfg m) :
    State.Inv { s with mem := m } :=
  inv_of_idle h rfl h.regs_length hm h.error_pair h.err_code hi

theorem State.Inv.setMsg {s : State} (h : s.Inv) (hi : s.eng = .idle) {i : Nat} (hl : i < s.cfg.maxLen) (b : Byte) :
    (s.setMsg i b).Inv :=
  h.withMem hi (h.memOk.write_msg h.cfg_wf b ⟨by unfold msgAddr; omega, by unfold msgAddr; omega⟩)

theorem State.Inv.setCt {s : State} (h : s.Inv) (hi : s.eng = .idle) {i : Nat} (hl : i < s.cfg.maxLen) (v : Int) :
    (s.setCt i v).Inv :=
  h.withMem hi (MemOk.writeWords_ct _ h.memOk (by unfold ctWordAddr; omega) (by unfold ctWordAddr; omega)
    (by rw [length_enc]; exact ct_inside s.cfg hl (by omega)))

theorem State.Inv.issue {s : State} (h : s.Inv) (v : Word) : (s.issue v).Inv where
  cfg_wf := h.cfg_wf
  regs_length := h.regs_length
  mem_wf := h.mem_wf
  mem_inside := h.mem_inside
  ct_marks := h.ct_marks
  error_pair := rfl
  err_code := fun e => by cases e
  engine := by
    refine ⟨rfl, rfl, rfl, rfl, rfl, rfl, fun hc => ?_, trivial⟩
    show 0 < s.iterCap.toNat
    by_contra hn
    exact hc (by apply BitVec.eq_of_toNat_eq; simpa using hn)

theorem State.Inv.raise {s : State} (h : s.Inv) {e : ErrorKind} {info : BitVec 8}
    (hp : errorPairOk e.code.toNat info.toNat = true) (h0 : e.code ≠ 0#8) : (s.raise e info).Inv :=
  inv_of_idle h rfl h.regs_length h.memOk hp (fun _ => h0) rfl

theorem resetOf_inv {p : Params} (hp : p.wf = true) (e : Env) : (State.resetOf p e).Inv where
  cfg_wf := hp
  regs_length := by intro r; simp [State.big, State.resetOf]
  mem_wf := List.Pairwise.nil
  mem_inside := by simp [State.resetOf]
  ct_marks := by simp [State.resetOf, Memory.read]
  error_pair := rfl
  err_code := fun e => by cases e
  engine := trivial

/-- The bytes of the state that one pending write keeps in form (R133). -/
theorem commitOne_parts {s : State} (hc : s.cfg.wf = true) (hr : ∀ r, (s.big r).length = s.cfg.nw)
    (hm : MemOk s.cfg s.mem) {w : PendingWrite} {l : Nat} (hl : l ≤ s.cfg.maxLen)
    (hw : ∀ k v, (w = .ct k v → k < l) ∧ ∀ b, w = .msg k b → k < l) :
    (∀ r, ((s.commitOne w).big r).length = s.cfg.nw) ∧ MemOk s.cfg (s.commitOne w).mem := by
  cases w with
  | big r v =>
    refine ⟨fun q => ?_, hm⟩
    rw [State.commitOne, State.big_setX]; split; exacts [length_enc _ _, hr q]
  | keyValid b => exact ⟨hr, hm⟩
  | ct k v =>
    have hk : k < s.cfg.maxLen := lt_of_lt_of_le ((hw k v).1 rfl) hl
    exact ⟨hr, MemOk.writeWords_ct _ hm (by unfold ctWordAddr; omega) (by unfold ctWordAddr; omega)
      (by rw [length_enc]; exact ct_inside s.cfg hk (by omega))⟩
  | msg k b =>
    have hk : k < s.cfg.maxLen := lt_of_lt_of_le ((hw k 0).2 b rfl) hl
    exact ⟨hr, hm.write_msg hc b ⟨by unfold msgAddr; omega, by unfold msgAddr; omega⟩⟩

theorem commit_parts (ws : List PendingWrite) : ∀ {s : State}, s.cfg.wf = true →
    (∀ r, (s.big r).length = s.cfg.nw) → MemOk s.cfg s.mem → ∀ {l : Nat}, l ≤ s.cfg.maxLen →
    (∀ w ∈ ws, ∀ k v, (w = .ct k v → k < l) ∧ ∀ b, w = .msg k b → k < l) →
    (∀ r, ((s.commit ws).big r).length = s.cfg.nw) ∧ MemOk s.cfg (s.commit ws).mem := by
  induction ws with
  | nil => intro s _ hr hm l _ _; exact ⟨hr, hm⟩
  | cons w ws ih =>
    intro s hc hr hm l hl hw
    have h1 := commitOne_parts hc hr hm hl (hw w (by simp))
    have hcfg := (commitOne_fields s w).1
    rw [commit_cons, ← hcfg]
    exact ih (by rw [hcfg]; exact hc) (by rw [hcfg]; exact h1.1) (by rw [hcfg]; exact h1.2) (by rw [hcfg]; exact hl)
      fun w' hw' => hw w' (by simp [hw'])

/-- A completion with a command's own writes keeps the invariant, when ERR is 0 as it is while Busy (R130, R133). -/
theorem State.Inv.complete {s : State} (h : s.Inv) (he : s.err = false) {i : Instr} {ws : List PendingWrite}
    (hw : ∀ w ∈ ws, targetOk i s w) : (s.complete ws).Inv := by
  by_cases hl : s.msgLen.toNat ≤ s.cfg.maxLen
  · have := commit_parts ws h.cfg_wf h.regs_length h.memOk hl fun w hm k v => ⟨fun e => by
      subst e; exact (hw _ hm).2.1, fun b e => by subst e; exact (hw _ hm).2.1⟩
    exact inv_of_idle h (commit_fields ws s).1 this.1 this.2 rfl
      (fun e => by rw [(complete_completed s ws).2.2.1, he] at e; cases e) rfl
  · have := commit_parts ws h.cfg_wf h.regs_length h.memOk (le_refl s.cfg.maxLen) fun w hm k v => ⟨fun e => by
      subst e; exact absurd (hw _ hm).2.2 hl, fun b e => by subst e; exact absurd (hw _ hm).2.2 hl⟩
    exact inv_of_idle h (commit_fields ws s).1 this.1 this.2 rfl
      (fun e => by rw [(complete_completed s ws).2.2.1, he] at e; cases e) rfl

end Sys2Proof.Machine
end

