-- ==== Sys2Proof/Laws/Bus.lean ====
section
/-!
SUPPORT. The bus: where each address leads, what a load and a store do there, and that a store keeps the invariant.
-/
namespace Sys2Proof.Machine

/-- The MSG word at an aligned address lies there (R46). -/
theorem msgAddr_of_aligned {a : Nat} (h : 0x4000 ≤ a) (h4 : a % 4 = 0) : msgAddr (4 * ((a - 0x4000) / 4)) = a := by
  unfold msgAddr; omega

/-- The CT word at an aligned address lies there (R47, R86). -/
theorem ctWordAddr_of_aligned (p : Params) {a : Nat} (h : 0x100000 ≤ a) (h4 : a % 4 = 0) :
    ctWordAddr p ((a - 0x100000) / 4 / p.nw) ((a - 0x100000) / 4 % p.nw) = a := by
  unfold ctWordAddr
  rw [Nat.div_add_mod']; omega

/-- Word j of a big register is where R30 and R48 put it. -/
theorem locate_big (p : Params) (r : BigReg) (j : Nat) (hp : p.wf = true) (hj : j < p.nw) :
    locate p (bigBase r + 4 * j) = .big r j := by
  have := (Params.nw_pos hp).2
  have e1 : (bigBase r + 4*j) / 0x400 = bigBase r / 0x400 := by cases r <;> simp [bigBase] <;> omega
  have e2 : (bigBase r + 4*j) % 0x400 / 4 = j := by cases r <;> simp [bigBase] <;> omega
  have e3 : ¬ (bigBase r + 4*j < 0x400) := by cases r <;> simp [bigBase] <;> omega
  have e4 : (bigBase r + 4*j < 0x2c00) := by cases r <;> simp [bigBase] <;> omega
  unfold locate
  rw [if_neg e3, if_pos e4, e1, e2]
  unfold bigLoc
  rw [if_pos hj]
  cases r <;> rfl

/-- The address of a MSG word (R46). -/
theorem locate_msg (p : Params) (w : Nat) (hc : p.wf = true) (h : 4 * w < p.maxLen) : locate p (0x4000 + 4 * w) = .msg w := by
  have := (Params.wf_iff _).1 hc
  unfold locate
  rw [if_neg (by omega), if_neg (by omega), if_neg (by omega), if_pos (by omega)]
  unfold msgLoc
  rw [if_pos (by omega)]
  congr 1; omega

/-- The address of a CT word (R86). -/
theorem locate_ct (p : Params) (i j : Nat) (hc : p.wf = true) (h : i < p.maxLen) (hj : j < p.nw) :
    locate p (0x100000 + 4 * (i * p.nw + j)) = .ct i j := by
  have hw := (Params.wf_iff _).1 hc
  have h1 : i * p.nw + j < p.maxLen * p.nw := by nlinarith
  unfold locate
  rw [if_neg (by omega), if_neg (by omega), if_neg (by omega), if_neg (by omega), if_neg (by omega), if_pos (by omega)]
  unfold ctLoc
  have e : (0x100000 + 4 * (i * p.nw + j) - 0x100000) / 4 = i * p.nw + j := by omega
  rw [e, if_pos h1]
  have e1 : (i * p.nw + j) / p.nw = i := by
    rw [Nat.add_comm, Nat.add_mul_div_right _ _ (by omega), Nat.div_eq_of_lt hj]; omega
  have e2 : (i * p.nw + j) % p.nw = j := by
    rw [Nat.add_comm, Nat.add_mul_mod_self_right, Nat.mod_eq_of_lt hj]
  rw [e1, e2]

/-- A load answers a word, or stops at the first unwritten byte of the buffer word it reads (R138, U9). -/
theorem load_cases (s : State) (a : Nat) (hc : s.cfg.wf = true) (h4 : a % 4 = 0) :
    (∃ w, s.readLoc (locate s.cfg a) = .ok w) ∨
    (∃ k, k < 4 ∧ (isMsgByte s.cfg (a + k) ∨ isCtByte s.cfg (a + k)) ∧ s.mem.read (a + k) = none ∧
      s.readLoc (locate s.cfg a) = .error (.unwrittenRead (a + k))) := by
  have hw := (Params.wf_iff _).1 hc
  have key : ∀ x, x = a → (∀ k, k < 4 → isMsgByte s.cfg (a + k) ∨ isCtByte s.cfg (a + k)) →
      (∃ w, s.mem.read32 x = .ok w) ∨
      (∃ k, k < 4 ∧ (isMsgByte s.cfg (a + k) ∨ isCtByte s.cfg (a + k)) ∧ s.mem.read (a + k) = none ∧
        s.mem.read32 x = .error (.unwrittenRead (a + k))) := by
    intro x hx hin; subst hx
    cases h : s.mem.read32 x with
    | ok w => exact .inl ⟨w, rfl⟩
    | error f =>
      obtain ⟨y, rfl, h1, h2, h3, -⟩ := Memory.read32_first h
      obtain ⟨k, rfl⟩ : ∃ k, y = x + k := ⟨y - x, by omega⟩
      exact .inr ⟨k, by omega, hin k (by omega), h3, rfl⟩
  unfold locate
  split
  · left; unfold controlLoc; split <;> exact ⟨_, rfl⟩
  split
  · left; unfold bigLoc; split
    · split <;> exact ⟨_, rfl⟩
    · exact ⟨_, rfl⟩
  split
  · left; exact ⟨_, rfl⟩
  split
  · unfold msgLoc; split
    · exact key _ (msgAddr_of_aligned (by omega) h4) fun k hk => .inl ⟨by omega, by omega⟩
    · left; exact ⟨_, rfl⟩
  split
  · left; exact ⟨_, rfl⟩
  split
  · unfold ctLoc; split
    · exact key _ (ctWordAddr_of_aligned _ (by omega) h4) fun k hk => .inr ⟨by omega, by omega⟩
    · left; exact ⟨_, rfl⟩
  · left; exact ⟨_, rfl⟩

/-- The answers of reads are their words (R117). -/
theorem takeData_data (ws : List Word) (rs : List Response) :
    takeData ws.length (ws.map .data ++ rs) = some (ws, rs) := by
  induction ws with
  | nil => rfl
  | cons w ws ih => simp [takeData, ih]

/-- A store to a writable big register word, Idle (R44, R48, R137). -/
theorem store_big (s : State) (r : BigReg) (j : Nat) (v : Word) (hc : s.cfg.wf = true) (hi : s.eng = .idle)
    (hj : j < s.cfg.nw) (hr : r ∈ [BigReg.opa, .opb, .opm, .keyE, .keyD, .keyN]) :
    s.store (bigBase r + 4 * j) v = (s.setBigWord r j v).markKey r := by
  have hb : s.busy = false := (State.not_busy_iff s).2 hi
  unfold State.store; rw [hb, locate_big _ _ _ hc hj]
  simp at hr
  rcases hr with rfl | rfl | rfl | rfl | rfl | rfl <;> rfl

/-- Word j of the words read. -/
theorem Memory.readWords_get {m : Memory} {n : Nat} : ∀ {a : Nat} {ws : List Word}, m.readWords a n = .ok ws →
    ∀ j, j < n → ∃ w, ws[j]? = some w ∧ m.read32 (a + 4 * j) = .ok w := by
  induction n with
  | zero => intro a ws _ j hj; omega
  | succ n ih =>
    intro a ws h j hj
    unfold Memory.readWords at h
    cases h1 : m.read32 a with
    | error f => rw [h1] at h; cases h
    | ok w =>
      rw [h1] at h
      cases h2 : m.readWords (a + 4) n with
      | error f => simp only [h2] at h; cases h
      | ok ws' =>
        simp only [h2] at h
        injection h with h; subst h
        cases j with
        | zero => exact ⟨w, rfl, h1⟩
        | succ j =>
          obtain ⟨w', hw, hr⟩ := ih h2 j (by omega)
          exact ⟨w', by simpa using hw, by rw [show a + 4 * (j + 1) = a + 4 + 4 * j by ring]; exact hr⟩

/-- Words read after one of them is written. -/
theorem Memory.readWords_write32 {m : Memory} {n : Nat} (v : Word) : ∀ {a : Nat} {ws : List Word}, m.readWords a n = .ok ws →
    ∀ j, j < n → (m.write32 (a + 4 * j) v).readWords a n = .ok (ws.set j v) := by
  induction n with
  | zero => intro a ws _ j hj; omega
  | succ n ih =>
    intro a ws h j hj
    unfold Memory.readWords at h
    cases h1 : m.read32 a with
    | error f => rw [h1] at h; cases h
    | ok w =>
      rw [h1] at h
      cases h2 : m.readWords (a + 4) n with
      | error f => simp only [h2] at h; cases h
      | ok ws' =>
        simp only [h2] at h
        injection h with h; subst h
        cases j with
        | zero =>
          unfold Memory.readWords
          simp only [Nat.mul_zero, Nat.add_zero]
          rw [Memory.read32_write32_same]
          have : (m.write32 a v).readWords (a + 4) n = m.readWords (a + 4) n :=
            Memory.readWords_congr fun x hx hy => Memory.read_write32_other _ _ (by omega)
          simp only [this, h2]; rfl
        | succ j =>
          unfold Memory.readWords
          rw [Memory.read32_write32_other _ _ (by omega), h1]
          rw [show a + 4 * (j + 1) = a + 4 + 4 * j by ring]
          simp only [ih h2 j (by omega)]; rfl

/-- An Idle store keeps the invariant. -/
theorem State.Inv.writeLoc {s : State} (h : s.Inv) (hi : s.eng = .idle) {a : Nat} (h4 : a % 4 = 0) (v : Word) : (s.writeLoc v (locate s.cfg a)).Inv := by
  have hc := h.cfg_wf
  have hw := (Params.wf_iff _).1 hc
  have easy : ∀ t : State, t.cfg = s.cfg → t.regs = s.regs → t.mem = s.mem → t.errCode = s.errCode → t.errInfo = s.errInfo → (t.err = true → s.err = true) → t.eng = .idle → t.Inv := by
    intro t h1 h2 h3 h4 h5 h6 h7
    exact inv_of_idle h h1 (fun r => by unfold State.big; rw [h2]; exact h.regs_length r) (by rw [h3]; exact h.memOk) (by rw [h4, h5]; exact h.error_pair) (fun e => by rw [h4]; exact h.err_code (h6 e)) h7
  have self : s.Inv := h
  have big : ∀ r j, (s.writeLoc v (.big r j)).Inv := by
    intro r j
    show (if _ then _ else _ : State).Inv
    split
    · exact inv_of_idle h rfl (fun q => by
        show ((State.setBig _ _ _).big q).length = _
        rw [State.big_setBig]; split
        · rw [List.length_set]; exact h.regs_length r
        · exact h.regs_length q) h.memOk h.error_pair h.err_code hi
    · exact h
  unfold locate
  split
  · unfold controlLoc
    split
    · exact h
    · exact h
    · exact easy _ rfl rfl rfl rfl rfl (fun e => e) hi
    · exact h.ackStatus v
    · exact h.issue v
    · exact h
    · exact h
    · exact easy _ rfl rfl rfl rfl rfl (fun e => e) hi
    · exact easy _ rfl rfl rfl rfl rfl (fun e => e) hi
    · exact easy _ rfl rfl rfl rfl rfl (fun e => e) hi
    · exact h
  split
  · unfold bigLoc
    split
    · split <;> first | exact big _ _ | exact h
    · exact h
  split
  · exact h
  split
  · unfold msgLoc
    split
    · next h1 h2 =>
      refine h.withMem hi (h.memOk.write32_msg hc v fun k hk => ?_)
      rw [msgAddr_of_aligned (by omega) h4]
      exact ⟨by omega, by omega⟩
    · exact h
  split
  · exact h
  split
  · unfold ctLoc
    split
    · next h1 h2 =>
      have e := ctWordAddr_of_aligned s.cfg (a := a) (by omega) h4
      refine h.withMem hi (h.memOk.write32_ct v ?_ ?_) <;> rw [e]
      · exact ⟨by omega, by omega⟩
      · exact h4
    · exact h
  · exact h

/-- A store keeps the invariant. -/
theorem State.Inv.store {s : State} (h : s.Inv) {a : Nat} (h4 : a % 4 = 0) (v : Word) : (s.store a v).Inv := by
  unfold State.store
  split
  · split
    · exact h.ackStatus v
    · exact h.setWwb
  · next hb => exact State.Inv.writeLoc h ((State.not_busy_iff s).1 (by simpa using hb)) h4 v

/-- A host write event is one step (R117). -/
theorem step_write (s : State) (a : Nat) (v : Word) (es : List Event) (h : s.env.events = writeEvent a v :: es) (h4 : a % 4 = 0) (hlt : a < 2^24) :
    step s = .next (((s.withEvents es).store a v).respond .ack) := by
  unfold step; rw [h]; 
  show busAccess _ (.write (BitVec.ofNat 24 a) 4 v) = _
  have : (BitVec.ofNat 24 a).toNat = a := by simp; omega
  unfold busAccess
  simp only [legalAccess, this, h4]; simp

end Sys2Proof.Machine
end

