-- ==== Sys2Proof/Laws/Results.lean ====
section
/-!
SUPPORT. What each way of ending a command's step does, the draws, the rounds of Miller–Rabin, KEYGEN's phases, and runs of
several steps.
-/
namespace Sys2Proof.Machine

/-- Nothing is pending between steps (log 5). -/
theorem State.Inv.pending_nil {s : State} (h : s.Inv) : s.prog.pending = [] := by
  have := h.engine
  unfold engineOk at this
  unfold State.prog
  cases e : s.eng with
  | idle => rfl
  | busy c p => rw [e] at this; exact this.2.2.2.2.2.1

/-- The range of a register's value (R11). -/
theorem State.Inv.x_range {s : State} (h : s.Inv) (r : BigReg) : -2 ^ (s.cfg.width - 1) ≤ s.x r ∧ s.x r ≤ 2 ^ (s.cfg.width - 1) - 1 := by
  have hl := h.regs_length r
  have hn := Params.nw_pos h.cfg_wf
  have := sint_range (s.big r) (by intro e; rw [e] at hl; simp at hl; omega)
  rw [hl] at this
  unfold State.x Params.width
  omega

/-- A register's value fits. -/
theorem State.Inv.x_fits {s : State} (h : s.Inv) (r : BigReg) : fits s.cfg.width (s.x r) = true := (fits_iff _ _).2 (State.Inv.x_range h r)

/-- A value that fits is what the register then holds (R12). -/
theorem State.x_setX {s : State} (hc : s.cfg.wf = true) (r q : BigReg) {v : Int} (hf : fits s.cfg.width v = true) :
    (s.setX r v).x q = if q = r then v else s.x q := by
  unfold State.x
  rw [State.big_setX]
  split
  · exact sint_enc _ _ (by have := Params.nw_pos hc; omega) hf
  · rfl

/-- W is at least 3 (R7 says 64). -/
theorem State.Inv.width_ge {s : State} (h : s.Inv) : 3 ≤ s.cfg.width := by
  have := (Params.wf_iff _).1 h.cfg_wf; omega

/-- A residue modulo a register's value fits. -/
theorem State.Inv.emod_fits {s : State} (h : s.Inv) (a : Int) (r : BigReg) (hm : 0 < s.x r) : fits s.cfg.width (a % s.x r) = true := by
  rw [fits_iff]
  have h1 := State.Inv.x_range h r
  have h2 := Int.emod_nonneg a (ne_of_gt hm)
  have h3 := Int.emod_lt_of_pos a hm
  have : (0:Int) < 2 ^ (s.cfg.width - 1) := by positivity
  omega

/-- A command that returns one register (R133). -/
theorem finish_ret_one {s : State} (h : s.Inv) {r : BigReg} {v : Int} (hf : fits s.cfg.width v = true) (e : Env) (he : SameHost s.env e) :
    let t := (s.withEnv e).finish (.ret [.big r v])
    t.x r = v ∧ Completed s t ∧ SameBut [r] s t ∧ t.keyValid = s.keyValid ∧ SameMemory s t ∧ t.env = e := by
  have hp := State.Inv.pending_nil h
  intro t
  have ht : t = ((s.withEnv e).complete [.big r v]) := by
    show State.finish _ _ = _
    unfold State.finish; simp [hp]
  rw [ht]
  refine ⟨?_, ?_, ?_, rfl, fun a => rfl, rfl⟩
  · show ((s.withEnv e).setX r v).x r = v
    rw [State.x_setX (s := s.withEnv e) h.cfg_wf r r hf, if_pos rfl]
  · exact complete_completed (s.withEnv e) _
  · have := complete_sameBut (s.withEnv e) [.big r v] [r] (by intro q hq w hw; simp at hw hq; subst hw; simp [PendingWrite.isBig]; exact fun e => hq e.symm)
    obtain ⟨a1,a2,a3,a4,a5,a6,a7,a8,a9,a10⟩ := this
    exact ⟨a1,a2,a3,a4,a5,a6,a7,a8, he.1, he.2⟩

/-- A command that returns three registers (R133). -/
theorem finish_ret_three {s : State} (h : s.Inv) {u v w : Int} (hu : fits s.cfg.width u = true) (hv : fits s.cfg.width v = true)
    (hw : fits s.cfg.width w = true) :
    let t := s.finish (.ret [.big .res0 u, .big .res1 v, .big .res2 w])
    t.x .res0 = u ∧ t.x .res1 = v ∧ t.x .res2 = w ∧ Completed s t ∧ SameBut [.res0, .res1, .res2] s t ∧ t.keyValid = s.keyValid ∧ SameMemory s t ∧ t.env = s.env := by
  have hp := State.Inv.pending_nil h
  intro t
  have ht : t = s.complete [.big .res0 u, .big .res1 v, .big .res2 w] := by
    show State.finish _ _ = _
    unfold State.finish; simp [hp]
  rw [ht]
  have hx : ∀ r, (s.complete [.big .res0 u, .big .res1 v, .big .res2 w]).x r = (((s.setX .res0 u).setX .res1 v).setX .res2 w).x r := fun r => rfl
  have hc := h.cfg_wf
  have e3 : ∀ r, (((s.setX .res0 u).setX .res1 v).setX .res2 w).x r = if r = .res2 then w else ((s.setX .res0 u).setX .res1 v).x r :=
    fun r => State.x_setX (by exact hc) .res2 r (by exact hw)
  have e2 : ∀ r, ((s.setX .res0 u).setX .res1 v).x r = if r = .res1 then v else (s.setX .res0 u).x r :=
    fun r => State.x_setX (by exact hc) .res1 r (by exact hv)
  have e1 : ∀ r, (s.setX .res0 u).x r = if r = .res0 then u else s.x r :=
    fun r => State.x_setX (by exact hc) .res0 r (by exact hu)
  refine ⟨?_, ?_, ?_, complete_completed _ _, complete_sameBut _ _ _ ?_, rfl, fun a => rfl, rfl⟩
  · rw [hx, e3, if_neg (by decide), e2, if_neg (by decide), e1, if_pos rfl]
  · rw [hx, e3, if_neg (by decide), e2, if_pos rfl]
  · rw [hx, e3, if_pos rfl]
  · intro r hr x hx; simp at hr hx; rcases hx with rfl | rfl | rfl <;> simp [PendingWrite.isBig] <;> tauto

/-- Error completion after draws (R134). -/
theorem raise_withEnv_failedWith {s : State} {e : Env} (he : SameHost s.env e) (k : ErrorKind) (i : BitVec 8) : FailedWith k.code i s ((s.withEnv e).raise k i) := by
  obtain ⟨a1, a2, a3, a4, a5, ⟨b1, b2, b3, b4, b5, b6, b7, b8, b9, b10⟩, a7, a8⟩ := raise_failedWith (s.withEnv e) k i
  exact ⟨a1, a2, a3, a4, a5, ⟨b1, b2, b3, b4, b5, b6, b7, b8, he.1, he.2⟩, a7, a8⟩

/-- Going on after draws (R132). -/
theorem goOn_withEnv_goesOn {s : State} {e : Env} (he : SameHost s.env e) (ph : Phase) (r : Nat) : GoesOn s ((s.withEnv e).goOn ph r) := by
  obtain ⟨a1, a2, a3, a4, a5, ⟨b1, b2, b3, b4, b5, b6, b7, b8, b9, b10⟩, a7, a8⟩ := goOn_goesOn (s.withEnv e) ph r
  exact ⟨a1, a2, a3, a4, a5, ⟨b1, b2, b3, b4, b5, b6, b7, b8, he.1, he.2⟩, a7, a8⟩

/-- What Reject comes to (R190). -/
theorem reject_rejects {s : State} (h : s.Inv) (loop : BitVec 8) (phase : Phase) (e : Env) (he : SameHost s.env e) :
    Rejects loop phase s ((s.withEnv e).finish (s.reject loop phase)) := by
  have hp := State.Inv.pending_nil h
  unfold Rejects State.reject
  split
  · next hc =>
    refine ⟨fun _ => ?_, fun hn => absurd hc hn⟩
    obtain ⟨a1, a2, a3, a4, a5, ⟨b1, b2, b3, b4, b5, b6, b7, b8, b9, b10⟩, a7, a8⟩ := raise_failedWith (s.withEnv e) .generationTimeout loop
    exact ⟨a1, a2, a3, a4, a5, ⟨b1, b2, b3, b4, b5, b6, b7, b8, he.1, he.2⟩, a7, a8⟩
  · next hc =>
    refine ⟨fun hn => absurd hn hc, fun _ => ?_⟩
    obtain ⟨a1, a2, a3, a4, a5, ⟨b1, b2, b3, b4, b5, b6, b7, b8, b9, b10⟩, a7, a8⟩ := goOn_goesOn (s.withEnv e) phase (s.prog.rej + 1)
    refine ⟨⟨a1, a2, a3, a4, a5, ⟨b1, b2, b3, b4, b5, b6, b7, b8, he.1, he.2⟩, a7, a8⟩, ?_⟩
    show (⟨s.prog.rej + 1, phase, s.prog.pending⟩ : Prog) = _
    rw [hp]

/-- What a phase change comes to (R212). -/
theorem again_advances {s : State} (h : s.Inv) (ph : Phase) (e : Env) (he : SameHost s.env e) :
   Advances ph s ((s.withEnv e).finish (.again ph s.prog.rej)) := by
  have hp := State.Inv.pending_nil h
  obtain ⟨a1, a2, a3, a4, a5, ⟨b1, b2, b3, b4, b5, b6, b7, b8, b9, b10⟩, a7, a8⟩ := goOn_goesOn (s.withEnv e) ph s.prog.rej
  refine ⟨⟨a1, a2, a3, a4, a5, ⟨b1, b2, b3, b4, b5, b6, b7, b8, he.1, he.2⟩, a7, a8⟩, ?_⟩
  show (⟨s.prog.rej, ph, s.prog.pending⟩ : Prog) = _
  rw [hp]

/-- A rejection stays in its phase (R190). -/
theorem reject_again {s : State} {loop : BitVec 8} {ph phase : Phase} {rej : Nat} (h : s.reject loop ph = .again phase rej) : phase = ph := by
  unfold State.reject at h; split at h
  · cases h
  · injection h with h1 h2; exact h1.symm

/-- One draw. -/
theorem draw_after (e : Env) (lo hi : Nat) : (e.draw lo hi).2 = e.after 1 := by
  unfold Env.draw Env.after; simp

/-- Draws add up. -/
theorem Env.after_after (e : Env) (j k : Nat) : (e.after j).after k = e.after (j + k) := by
  unfold Env.after; simp [List.drop_drop, Nat.add_assoc]

/-- DrawBits leaves the host's side alone. -/
theorem drawBits_sameHost (e : Env) (b : Nat) : SameHost e (e.drawBits b).2 := ⟨rfl, rfl⟩

/-- DrawBits is one draw. -/
theorem drawBits_after (e : Env) (b : Nat) : (e.drawBits b) = ((e.drawBits b).1, e.after 1) := by
  unfold Env.drawBits; rw [← draw_after e]

/-- A number of b bits fits, for b < W. -/
theorem fits_of_lt_two_pow {s : State} {b : Nat} {c : Nat} (hb : b ≤ s.cfg.width - 1) (hc : c < 2 ^ b) : fits s.cfg.width c = true := by
  rw [fits_iff]
  have : (c:Int) < 2 ^ b := by exact_mod_cast hc
  have : (2:Int) ^ b ≤ 2 ^ (s.cfg.width - 1) := pow_le_pow_right₀ (by norm_num) hb
  have : (0:Int) < 2 ^ (s.cfg.width - 1) := by positivity
  omega

/-- StrongProbe is R193's inconclusive round. -/
theorem inconclusive_iff {n : Int} (hn : 2 ≤ n) (a : Int) : Inconclusive n a ↔ strongProbe n a = true := by
  rw [strongProbe_iff (by omega)]
  have hd := decompose_spec hn
  constructor
  · intro h; exact h _ _ hd.1 hd.2
  · intro h d r h1 h2
    have : d = (decompose n).1 ∧ r = (decompose n).2 := by
      apply odd_two_pow_unique h1 hd.1
      have := hd.2
      rw [h2] at this; exact_mod_cast this
    rw [this.1, this.2]; exact h

/-- The rounds of IsProbablyPrime: one draw each, none after a witness (R194). -/
theorem probeRounds_spec {n : Int} (rounds : Nat) : ∀ e : Env,
    ((∀ j, j < rounds → strongProbe n (baseAt e n j) = true) → probeRounds n rounds e = (true, e.after rounds)) ∧
    (∀ j, j < rounds → strongProbe n (baseAt e n j) = false → (∀ k, k < j → strongProbe n (baseAt e n k) = true) →
       probeRounds n rounds e = (false, e.after (j + 1))) := by
  induction rounds with
  | zero => intro e; refine ⟨fun _ => by unfold probeRounds Env.after; simp, fun j hj => by omega⟩
  | succ rounds ih =>
    intro e
    have hb : ∀ j, baseAt (e.after 1) n j = baseAt e n (j + 1) := fun j => by
      unfold baseAt; rw [Env.after_after, Nat.add_comm 1 j]
    have hd : (e.drawRange 2 (n-1).toNat) = (drawIn 2 (n-1).toNat e.nextRaw, e.after 1) := by
      unfold Env.drawRange; rw [← draw_after e 2 (n-1).toNat]; rfl
    have h0 : ((drawIn 2 (n-1).toNat e.nextRaw : Nat) : Int) = baseAt e n 0 := by
      unfold baseAt Env.after; simp
    unfold probeRounds
    simp only [hd, h0]
    refine ⟨fun h => ?_, fun j hj hf ht => ?_⟩
    · rw [h 0 (by omega), if_pos rfl, (ih (e.after 1)).1 fun j hj => by rw [hb]; exact h _ (by omega), Env.after_after, Nat.add_comm]
    · cases j with
      | zero => rw [hf, if_neg (by decide)]
      | succ j =>
        rw [ht 0 (by omega), if_pos rfl, (ih (e.after 1)).2 j (by omega) (by rw [hb]; exact hf) fun k hk => by rw [hb]; exact ht _ (by omega), Env.after_after, Nat.add_comm]

/-- A base lies in [2, n) (R194). -/
theorem baseAt_range (e : Env) {n : Int} (hn : 3 ≤ n) (j : Nat) : 2 ≤ baseAt e n j ∧ baseAt e n j < n := by
  have := drawIn_range (lo := 2) (hi := (n-1).toNat) (by omega) (e.after j).nextRaw
  unfold baseAt; omega

/-- One iteration of RandomPrime (R191, R197). -/
theorem primeIteration_cases (b : Nat) (e : Env) :
    let c := (e.drawBits b).1
    let v := isProbablyPrime c (e.after 1)
    (c % 2 = 0 → 4 ≤ c → primeIteration b e = (.rejected 1#8, e.after 1)) ∧
    (c % 2 = 1 ∨ c < 4 → v.1 = false → primeIteration b e = (.rejected 2#8, v.2)) ∧
    (c % 2 = 1 ∨ c < 4 → v.1 = true → primeIteration b e = (.found c, v.2)) := by
  intro c v
  have e2 : (e.drawBits b).2 = e.after 1 := by rw [drawBits_after]
  unfold primeIteration
  simp only [e2]
  refine ⟨fun h1 h2 => ?_, fun h1 h2 => ?_, fun h1 h2 => ?_⟩
  · rw [if_pos]; rw [filtered_iff]; exact ⟨h1, h2⟩
  · rw [if_neg (by rw [filtered_iff]; change ¬ (c % 2 = 0 ∧ 4 ≤ c); omega)]
    rw [if_neg]; change ¬ (v.1 = true); rw [h2]; decide
  · rw [if_neg (by rw [filtered_iff]; change ¬ (c % 2 = 0 ∧ 4 ≤ c); omega)]
    rw [if_pos]; exact h2

/-- What the invariant says of the running command's position. -/
theorem State.Inv.phaseOk {s : State} (h : s.Inv) : phaseOk s s.runCmd s.prog.phase := by
  have := h.engine
  unfold engineOk at this
  unfold State.prog State.runCmd
  cases e : s.eng with
  | idle => trivial
  | busy c p => rw [e] at this; exact this.2.2.2.2.2.2.2

/-- phaseOk depends on OPA, the build and LCM_TRUE. -/
theorem phaseOk_congr {s t : State} (hx : t.x .opa = s.x .opa) (hc : t.cfg = s.cfg) (hl : t.lcmTrue = s.lcmTrue) {w : Word} {ph : Phase} (h : phaseOk s w ph) : phaseOk t w ph := by
  cases ph with
  | start => trivial
  | keygenQ q => simpa only [phaseOk, keygenBitsOk, keygenPrimeOk, hx, hc] using h
  | keygenE n lam => simpa only [phaseOk, keygenBitsOk, keygenPrimeOk, hx, hc, hl] using h

/-- KEYGEN's upper bound (R210). -/
theorem keygenMaxBits_eq {s : State} (h : s.Inv) : ((keygenMaxBits s.cfg.width : Nat) : Int) = ((s.cfg.width : Int) - 1) / 2 := by
  have := State.Inv.width_ge h
  unfold keygenMaxBits; omega

/-- The phase KEYGEN goes on in is a possible one (R212). -/
theorem keygenStep_phaseOk {s : State} (h : s.Inv) {w : Word} {p : Prog} (he : s.eng = .busy w p) (hd : decode w = .ok .keygen) {phase : Phase} {rej : Nat}
   (ha : (keygenStep s).1 = .again phase rej) : phaseOk s w phase := by
  have hph : phaseOk s w s.prog.phase := by
    have := h.engine; unfold engineOk at this; rw [he] at this
    have e : s.prog = p := by unfold State.prog; rw [he]
    rw [e]; exact this.2.2.2.2.2.2.2
  unfold keygenStep at ha
  split at ha
  · cases ha
  · next hb =>
    rw [checkBits_none] at hb
    have hpr : ∀ {c : Nat} {e}, primeIteration (s.x .opa).toNat s.env = (.found c, e) → keygenPrimeOk s c := fun hx => by
      obtain ⟨a, b, c⟩ := primeIteration_found (by omega) hx
      exact ⟨by exact_mod_cast a, by exact_mod_cast b, by exact_mod_cast c⟩
    split at ha
    · next hq =>
      unfold keygenPrime at ha
      split at ha
      · next c e hx => injection ha with h1 h2; subst h1; exact ⟨hd, hb, hpr hx⟩
      · rw [reject_again ha]; trivial
    · next p' hq =>
      unfold keygenPrime at ha
      rw [hq] at hph
      split at ha
      · next c e hx =>
        unfold keygenModulus at ha
        simp only at ha
        split at ha
        · cases ha
        · next lam hl =>
          injection ha with h1 h2; subst h1; exact ⟨hd, hb, p', c, hph.2.2, hpr hx, rfl, hl⟩
      · rw [reject_again ha]; exact hph
    · next n lam hq =>
      unfold keygenExponent at ha
      simp only at ha
      rw [hq] at hph
      split at ha
      · cases ha
      · rw [reject_again ha]; exact hph

/-- In the exponent search, the bit length is in bounds. -/
theorem keygenE_checkBits {s : State} (h : s.Inv) {n lam : Int} (hq : s.prog.phase = .keygenE n lam) : checkBits (s.x .opa) 2 (keygenMaxBits s.cfg.width) = none := by
  have hok := State.Inv.phaseOk h
  rw [hq] at hok
  exact checkBits_none.2 hok.2.1

/-- In the exponent search, n and λ fit (R210). -/
theorem keygenE_fits {s : State} (h : s.Inv) {n lam : Int} (hq : s.prog.phase = .keygenE n lam) : fits s.cfg.width n = true ∧ fits s.cfg.width lam = true := by
  have hok := State.Inv.phaseOk h
  rw [hq] at hok
  obtain ⟨_, hb, p, q, hp, hq, hn, hl⟩ := hok
  have hW := State.Inv.width_ge h
  have hb2 := hb.2
  rw [keygenMaxBits_eq h] at hb2
  have hb1 := hb.1
  obtain ⟨b, hbb⟩ : ∃ b : Nat, (s.x .opa) = b := ⟨(s.x .opa).toNat, by omega⟩
  have p3 := hp.2.2
  have q3 := hq.2.2
  have p1 := hp.1
  have q1 := hq.1
  rw [hbb] at p3 q3; simp only [Int.toNat_natCast] at p3 q3
  have hpow : (2:Int) ^ b * 2 ^ b ≤ 2 ^ (s.cfg.width - 1) := by
    rw [← pow_add]; exact pow_le_pow_right₀ (by norm_num) (by omega)
  have hlt : p * q < 2 ^ b * 2 ^ b := by
    have : p * q < 2 ^ b * q := by nlinarith
    nlinarith
  have hpq0 : 0 ≤ p * q := by nlinarith
  have hprod : 0 ≤ (p-1)*(q-1) ∧ (p-1)*(q-1) ≤ p * q := ⟨by nlinarith, by nlinarith⟩
  obtain ⟨lam', hl', l1, l2⟩ := lcmValue_some s.lcmTrue (p := p - 1) (q := q - 1) (by omega)
  rw [hl] at hl'; injection hl' with hl'; subst hl'
  rw [abs_of_nonneg hprod.1] at l1 l2
  have hlam : 0 ≤ lam ∧ lam ≤ (p-1)*(q-1) := by
    cases hb : s.lcmTrue with
    | false => rw [l1 hb]; omega
    | true =>
      have e := l2 hb
      have hg : 0 < Int.gcd (p-1) (q-1) := Nat.pos_of_ne_zero (by rw [Ne, Int.gcd_eq_zero_iff]; omega)
      have hg' : (1:Int) ≤ Int.gcd (p-1) (q-1) := by exact_mod_cast hg
      generalize ((Int.gcd (p-1) (q-1) : Nat) : Int) = g at *
      constructor
      · by_contra hn; have := hprod.1; rw [← e] at this; nlinarith
      · by_cases h0 : 0 ≤ lam
        · rw [← e]; nlinarith
        · have := hprod.1; omega
  rw [fits_iff, fits_iff, hn]
  generalize (2:Int) ^ (s.cfg.width - 1) = M at *
  omega

/-- The big registers KEYGEN writes (R213). -/
theorem keygenWrites_isBig (n e d lam : Int) : ∀ r, r ∉ [BigReg.res0, .res1, .res2, .res3, .keyN, .keyE, .keyD] → ∀ w ∈ keygenWrites n e d lam, w.isBig r = false := by
  intro r hr w hw
  simp only [keygenWrites, List.mem_cons, List.not_mem_nil, or_false] at hw
  cases r <;> simp at hr <;> (rcases hw with rfl | rfl | rfl | rfl | rfl | rfl | rfl | rfl <;> rfl)

/-- The registers after KEYGEN (R213). -/
theorem complete_keygenWrites {s' : State} (W : Nat) (hc' : s'.cfg.wf = true) (hw' : s'.cfg.width = W) {n e d lam : Int} (fn : fits W n = true) (fe : fits W e = true) (fd : fits W d = true) (fl : fits W lam = true) :
  (s'.complete (keygenWrites n e d lam)).x .res0 = n ∧ (s'.complete (keygenWrites n e d lam)).x .res1 = e ∧ (s'.complete (keygenWrites n e d lam)).x .res2 = d ∧ (s'.complete (keygenWrites n e d lam)).x .res3 = lam ∧ (s'.complete (keygenWrites n e d lam)).x .keyN = n ∧ (s'.complete (keygenWrites n e d lam)).x .keyE = e ∧ (s'.complete (keygenWrites n e d lam)).x .keyD = d := by
  have hxx : ∀ r, (s'.complete (keygenWrites n e d lam)).x r = (((((((s'.setX .res0 n).setX .res1 e).setX .res2 d).setX .res3 lam).setX .keyN n).setX .keyE e).setX .keyD d).x r := fun r => by
    show (s'.commit _).x r = _
    simp only [keygenWrites, commit_cons, State.commitOne, commit_nil]
    rfl
  have st : ∀ (u : State) (r q : BigReg) (v : Int), u.cfg = s'.cfg → fits W v = true → (u.setX r v).x q = if q = r then v else u.x q := by
    intro u r q v hu hf
    exact State.x_setX (by rw [hu]; exact hc') r q (by rw [hu, hw']; exact hf)
  have x7 := fun q => st ((((((s'.setX .res0 n).setX .res1 e).setX .res2 d).setX .res3 lam).setX .keyN n).setX .keyE e) .keyD q d (by simp) fd
  have x6 := fun q => st (((((s'.setX .res0 n).setX .res1 e).setX .res2 d).setX .res3 lam).setX .keyN n) .keyE q e (by simp) fe
  have x5 := fun q => st ((((s'.setX .res0 n).setX .res1 e).setX .res2 d).setX .res3 lam) .keyN q n (by simp) fn
  have x4 := fun q => st (((s'.setX .res0 n).setX .res1 e).setX .res2 d) .res3 q lam (by simp) fl
  have x3 := fun q => st ((s'.setX .res0 n).setX .res1 e) .res2 q d (by simp) fd
  have x2 := fun q => st (s'.setX .res0 n) .res1 q e (by simp) fe
  have x1 := fun q => st s' .res0 q n rfl fn
  refine ⟨?_, ?_, ?_, ?_, ?_, ?_, ?_⟩
  · rw [hxx, x7, x6, x5, x4, x3, x2, x1]; simp
  · rw [hxx, x7, x6, x5, x4, x3, x2]; simp
  · rw [hxx, x7, x6, x5, x4, x3]; simp
  · rw [hxx, x7, x6, x5, x4]; simp
  · rw [hxx, x7, x6, x5]; simp
  · rw [hxx, x7, x6]; simp
  · rw [hxx, x7]; simp

/-- When every check of R230 passes. -/
theorem cipherChecks_pass {s : State} {key : BigReg} (hm : missingKeys (keyBit key ||| keyBit .keyN) s.keyValid = 0#3) (hl : s.msgLen.toNat ≤ s.cfg.maxLen)
   (hn : 0 < s.x .keyN) (he : 0 ≤ s.x key) : cipherChecks s key = .ok (s.msgLen.toNat, s.x .keyN, (s.x key).toNat) := by
  unfold cipherChecks
  simp only [hm, ne_eq, not_true_eq_false, if_false]
  rw [if_neg (by omega), if_neg (by omega), if_neg (by omega)]

/-- Every message byte written: ENCRYPT has one write per element (R231). -/
theorem encryptWrites_all {s : State} {n : Int} {e : Nat} (count : Nat) : ∀ i, (∀ k, i ≤ k → k < i + count → ∃ b, s.msgByte k = .ok b) → ∃ ws, encryptWrites s n e count i = .ok ws ∧ ws.length = count ∧ 
    ∀ k m, k < count → s.msgByte (i + k) = .ok m → ws[k]? = some (.ct (i + k) (modPow m.toNat e n)) := by
  induction count with
  | zero => intro i _; exact ⟨[], rfl, rfl, fun k m hk => by omega⟩
  | succ c ih =>
    intro i h
    obtain ⟨b, hb⟩ := h i le_rfl (by omega)
    obtain ⟨ws, hw, hl, hws⟩ := ih (i + 1) fun k h1 h2 => h k (by omega) (by omega)
    refine ⟨.ct i (modPow b.toNat e n) :: ws, ?_, by simp [hl], ?_⟩
    · unfold encryptWrites; simp only [hb, hw]
    · intro k m hk hm
      cases k with
      | zero => rw [Nat.add_zero] at hm; rw [hb] at hm; injection hm with hm; subst hm; rfl
      | succ k =>
        have := hws k m (by omega) (by rw [show i + 1 + k = i + (k + 1) by ring]; exact hm)
        rw [show i + 1 + k = i + (k + 1) by ring] at this
        simpa using this

/-- CT[k] after the writes are committed (R133). -/
theorem commit_ctWords {n : Nat} (v : Int) (k : Nat) : ∀ (ws : List PendingWrite) (s : State), s.cfg.nw = n → 
    (∀ w ∈ ws, ∃ j u, w = .ct j u ∧ (j = k → u = v)) → (.ct k v ∈ ws ∨ s.ctWords k = .ok (enc n v)) → (s.commit ws).ctWords k = .ok (enc n v) := by
  intro ws
  induction ws with
  | nil => intro s hn _ h; simpa using h
  | cons w ws ih =>
    intro s hn hall h
    rw [commit_cons]
    obtain ⟨j, u, rfl, hj⟩ := hall w (by simp)
    refine ih _ hn (fun w' hw' => hall w' (by simp [hw'])) ?_
    by_cases e : j = k
    · subst e; rw [hj rfl]; right
      show Memory.readWords (Memory.writeWords _ _ _) _ _ = _
      have := Memory.readWords_writeWords_same s.mem (ctWordAddr s.cfg j 0) (enc s.cfg.nw v)
      rw [length_enc] at this
      rw [← hn]; exact this
    · rcases h with h | h
      · left
        simp at h
        rcases h with h | h
        · exact absurd h.1.symm e
        · exact h
      · right
        rw [← h]
        show Memory.readWords (Memory.writeWords _ _ _) _ _ = Memory.readWords _ _ _
        apply Memory.readWords_writeWords_other
        rw [length_enc]
        simp only [State.commitOne, State.setCt_cfg, ctWordAddr]
        rcases lt_or_gt_of_ne e with e | e
        · have : (j + 1) * s.cfg.nw ≤ k * s.cfg.nw := Nat.mul_le_mul_right _ e
          rw [Nat.add_mul] at this; omega
        · have : (k + 1) * s.cfg.nw ≤ j * s.cfg.nw := Nat.mul_le_mul_right _ e
          rw [Nat.add_mul] at this; omega

/-- No steps. -/
theorem run_zero (s : State) : Host.Core.run core 0 s = .next s := by simp only [Host.Core.run]

/-- One step, then the rest. -/
theorem run_next {k : Nat} {s u : State} (h : step s = .next u) : Host.Core.run core (k + 1) s = Host.Core.run core k u := by
  simp only [Host.Core.run, show core.step s = .next u from h]

/-! ## ExtGcd is the recurrence of R170 -/

theorem extGcdLoop_euclid (fuel : Nat) : ∀ oldR r oldS s oldT t : Int, r.natAbs < fuel →
    EuclidLoop oldR r oldS s oldT t (extGcdLoop fuel oldR r oldS s oldT t) := by
  induction fuel with
  | zero => intro _ _ _ _ _ _ h; omega
  | succ fuel ih =>
    intro oldR r oldS s oldT t h
    unfold extGcdLoop
    split
    · next hr => subst hr; exact .done ..
    · next hr =>
      have := natAbs_sub_tdiv_lt oldR hr
      exact .turn _ _ _ _ _ _ (tdiv oldR r) _ hr rfl (ih _ _ _ _ _ _ (by omega))

/-- ExtGcd is what R170 and R171 make of a and b. -/
theorem extGcd_euclid {a b : Int} {res : Int × Int × Int} (h : extGcd a b = some res) :
    ∃ g x y, EuclidLoop a b 1 0 0 1 (g, x, y) ∧ res = if g < 0 then (-g, -x, -y) else (g, x, y) := by
  unfold extGcd at h
  split at h
  · cases h
  · split at h
    next g x y he =>
      refine ⟨g, x, y, he ▸ extGcdLoop_euclid _ a b 1 0 0 1 (by omega), ?_⟩
      split at h <;> simp_all

/-- Every λ ≤ 3 leaves no exponent: the least that can be drawn is 3 (U24). -/
theorem noExponent_of_le {lam : Int} (h : lam ≤ 3) : NoExponent lam := fun k _ => .inl (by omega)

end Sys2Proof.Machine
end

