-- ==== Sys2Proof/Laws/CipherKey.lean ====
section
/-!
SUPPORT. Where the cipher's element loops stop and what they write (R231, R232), the arithmetic of R233, and what an unfinished step
of KEYGEN changes (R190, R212).
-/
namespace Sys2Proof.Machine

/-- ENCRYPT's element loop fails only at the first unwritten byte of the MSG elements it reads (R231, U9). -/
theorem encryptWrites_first {s : State} {n : Int} {e : Nat} (count : Nat) : ∀ {i : Nat} {f : Fault},
    encryptWrites s n e count i = .error f →
    ∃ x, f = .unwrittenRead x ∧ s.mem.FirstUnwritten (msgAddr i) (msgAddr (i + count)) x := by
  induction count with
  | zero => intro i f h; cases h
  | succ c ih =>
    intro i f h
    have e1 : msgAddr (i + (c + 1)) = msgAddr i + (c + 1) := by unfold msgAddr; omega
    rw [e1]
    unfold encryptWrites at h
    split at h
    · next hf =>
      injection h with h; subst h
      obtain ⟨x, e, hx⟩ := Memory.fetch_first hf
      exact ⟨x, e, hx.widen (by omega)⟩
    · next hm =>
      split at h
      · next hf =>
        injection h with h; subst h
        obtain ⟨x, e, hx⟩ := ih hf
        have e2 : msgAddr (i + 1) = msgAddr i + 1 := by unfold msgAddr; omega
        have e3 : msgAddr (i + 1 + c) = msgAddr i + (c + 1) := by unfold msgAddr; omega
        rw [e2, e3] at hx
        exact ⟨x, e, hx.extend (Memory.fetch_written hm) (by omega)⟩
      · cases h

/-- DECRYPT's element loop fails only at the first unwritten byte of the CT elements it reads (R232, U9). -/
theorem decryptWrites_first {s : State} {n : Int} {e : Nat} (count : Nat) : ∀ {i : Nat} {f : Fault},
    decryptWrites s n e count i = .error f →
    ∃ x, f = .unwrittenRead x ∧ s.mem.FirstUnwritten (ctWordAddr s.cfg i 0) (ctWordAddr s.cfg (i + count) 0) x := by
  induction count with
  | zero => intro i f h; cases h
  | succ c ih =>
    intro i f h
    have e2 : ctWordAddr s.cfg (i + 1) 0 = ctWordAddr s.cfg i 0 + 4 * s.cfg.nw := by unfold ctWordAddr; ring
    have e3 : ctWordAddr s.cfg (i + (c + 1)) 0 = ctWordAddr s.cfg i 0 + 4 * s.cfg.nw + 4 * (c * s.cfg.nw) := by
      unfold ctWordAddr; ring
    rw [e3]
    unfold decryptWrites at h
    split at h
    · next hf =>
      injection h with h; subst h
      obtain ⟨x, e, hx⟩ := Memory.readWords_first hf
      exact ⟨x, e, hx.widen (by omega)⟩
    · next hm =>
      split at h
      · next hf =>
        injection h with h; subst h
        obtain ⟨x, e, hx⟩ := ih hf
        rw [show i + 1 + c = i + (c + 1) by ring, e2, e3] at hx
        exact ⟨x, e, hx.extend (Memory.readWords_written hm) (by omega)⟩
      · cases h

/-- With every element written, DECRYPT's element loop yields one write per element (R232). -/
theorem decryptWrites_all {s : State} {n : Int} {e : Nat} (count : Nat) : ∀ i, (∀ k, i ≤ k → k < i + count → ∃ b, s.ctWords k = .ok b) → ∃ ws, decryptWrites s n e count i = .ok ws ∧ 
    ∀ k m, k < count → s.ctWords (i + k) = .ok m → .msg (i + k) (BitVec.ofInt 8 (modPow (sint m) e n)) ∈ ws := by
  induction count with
  | zero => intro i _; exact ⟨[], rfl, fun k m hk => by omega⟩
  | succ c ih =>
    intro i h
    obtain ⟨b, hb⟩ := h i le_rfl (by omega)
    obtain ⟨ws, hw, hws⟩ := ih (i + 1) fun k h1 h2 => h k (by omega) (by omega)
    refine ⟨.msg i (BitVec.ofInt 8 (modPow (sint b) e n)) :: ws, ?_, ?_⟩
    · unfold decryptWrites; simp only [hb, hw]
    · intro k m hk hm
      cases k with
      | zero => rw [Nat.add_zero] at hm; rw [hb] at hm; injection hm with hm; subst hm; simp
      | succ k =>
        have := hws k m (by omega) (by rw [show i + 1 + k = i + (k + 1) by ring]; exact hm)
        rw [show i + 1 + k = i + (k + 1) by ring] at this
        exact List.mem_cons_of_mem _ this

/-- After a commit whose writes to MSG[k] all carry v, MSG[k] is v (R133). -/
theorem commit_msgByte (v : Byte) (k : Nat) : ∀ (ws : List PendingWrite) (s : State),
    (∀ w ∈ ws, ∃ j u, w = .msg j u ∧ (j = k → u = v)) → (.msg k v ∈ ws ∨ s.msgByte k = .ok v) → (s.commit ws).msgByte k = .ok v := by
  intro ws
  induction ws with
  | nil => intro s _ h; simpa using h
  | cons w ws ih =>
    intro s hall h
    rw [commit_cons]
    obtain ⟨j, u, rfl, hj⟩ := hall w (by simp)
    refine ih _ (fun w' hw' => hall w' (by simp [hw'])) ?_
    by_cases e : j = k
    · subst e; rw [hj rfl]; right
      apply Memory.fetch_ok.2
      show (Memory.write _ _ _).read _ = _
      rw [Memory.read_write, if_pos rfl]
    · rcases h with h | h
      · left; simp at h
        rcases h with h | h
        · exact absurd h.1.symm e
        · exact h
      · right
        apply Memory.fetch_ok.2
        show (Memory.write _ _ _).read _ = _
        rw [Memory.read_write, if_neg (by unfold msgAddr; omega)]
        exact Memory.fetch_ok.1 h

/-- Fermat: p divides m^k - m when k is 1 modulo a multiple of p - 1 (R233). -/
theorem prime_dvd_pow_sub {p : Nat} (hp : p.Prime) {lam : Nat} (hl : p - 1 ∣ lam) {k : Nat} (hk : k % lam = 1 % lam) (hk1 : 1 ≤ k) (m : Int) : (p : Int) ∣ m ^ k - m := by
  have := Fact.mk hp
  rw [← ZMod.intCast_zmod_eq_zero_iff_dvd (m ^ k - m) p]
  push_cast
  by_cases h0 : (m : ZMod p) = 0
  · rw [h0, zero_pow (by omega)]; simp
  · obtain ⟨q, hq⟩ : ∃ q, k = 1 + (p - 1) * q := by
      have h1 : (1 : Nat) ≡ k [MOD lam] := hk.symm
      have := (Nat.modEq_iff_dvd' hk1).1 (h1.of_dvd dvd_rfl)
      obtain ⟨q, hq⟩ := hl.trans this
      exact ⟨q, by omega⟩
    rw [hq, pow_add, pow_mul, ZMod.pow_card_sub_one_eq_one h0]; simp

/-- Raising to e and then to d gives m back modulo p · q (R233). -/
theorem rsa_round_trip {p q lam e d : Nat} (hp : p.Prime) (hq : q.Prime) (hne : p ≠ q) (hl : (p - 1).lcm (q - 1) ∣ lam) (hed : e * d % lam = 1 % lam) (m : Int) (h0 : 0 ≤ m) (h1 : m < p * q) :
    (m ^ e % (p * q)) ^ d % (p * q) = m := by
  have h2 := hp.two_le
  have h3 := hq.two_le
  have hk1 : 1 ≤ e * d := by
    by_contra hn
    have : e * d = 0 := by omega
    rw [this] at hed
    have hlam : lam = 1 := by
      rcases (by omega : lam = 0 ∨ lam = 1 ∨ 2 ≤ lam) with h | h | h
      · rw [h] at hed; simp at hed
      · exact h
      · rw [Nat.zero_mod, Nat.mod_eq_of_lt h] at hed; omega
    rw [hlam, Nat.dvd_one] at hl
    have a := Nat.dvd_lcm_left (p - 1) (q - 1)
    have b := Nat.dvd_lcm_right (p - 1) (q - 1)
    rw [hl, Nat.dvd_one] at a b
    omega
  have key : m ^ (e * d) % (p * q) = m := by
    have a := prime_dvd_pow_sub hp ((Nat.dvd_lcm_left _ _).trans hl) hed hk1 m
    have b := prime_dvd_pow_sub hq ((Nat.dvd_lcm_right _ _).trans hl) hed hk1 m
    have hc : IsCoprime (p : Int) (q : Int) := Nat.isCoprime_iff_coprime.2 ((Nat.coprime_primes hp hq).2 hne)
    have := hc.mul_dvd a b
    have := Int.emod_emod_of_dvd
    rw [Int.emod_eq_emod_iff_emod_sub_eq_zero.2 (Int.emod_eq_zero_of_dvd (hc.mul_dvd a b))]
    exact Int.emod_eq_of_lt h0 h1
  have h5 : (m ^ e % (p * q)) ^ d % (p * q) = (m ^ e) ^ d % (p * q) := (Int.mod_modEq (m ^ e) (p * q)).pow d
  rw [h5, ← pow_mul, key]

/-- Where a phase stands in KEYGEN's order (R212). -/
def phaseIndex : Phase → Nat
  | .start => 0
  | .keygenQ _ => 1
  | .keygenE _ _ => 2

/-- An unfinished step of KEYGEN is a rejection in the same phase or the next phase (R190, R212). -/
theorem keygenStep_again {s : State} {ph : Phase} {r : Nat} (ha : (keygenStep s).1 = .again ph r) :
    (r = s.prog.rej + 1 ∧ ph = s.prog.phase ∧ (s.iterCap ≠ 0#32 → r < s.iterCap.toNat)) ∨ (r = s.prog.rej ∧ phaseIndex ph = phaseIndex s.prog.phase + 1) := by
  have hr : ∀ l p, s.prog.phase = p → s.reject l p = .again ph r → r = s.prog.rej + 1 ∧ ph = s.prog.phase ∧ (s.iterCap ≠ 0#32 → r < s.iterCap.toNat) := by
    intro l p hp hh
    unfold State.reject at hh
    split at hh
    · cases hh
    · next hc => injection hh with h1 h2; subst h1 h2; exact ⟨rfl, hp.symm, fun h => by by_contra h3; exact hc ⟨h, by omega⟩⟩
  unfold keygenStep at ha
  split at ha
  · cases ha
  · split at ha
    · next hq =>
      unfold keygenPrime at ha
      split at ha
      · injection ha with h1 h2; subst h1 h2; rw [hq]; exact .inr ⟨rfl, rfl⟩
      · exact .inl (hr _ _ hq ha)
    · next p' hq =>
      unfold keygenPrime at ha
      split at ha
      · unfold keygenModulus at ha
        simp only at ha
        split at ha
        · cases ha
        · injection ha with h1 h2; subst h1 h2; rw [hq]; exact .inr ⟨rfl, rfl⟩
      · exact .inl (hr _ _ hq ha)
    · next n lam hq =>
      unfold keygenExponent at ha
      simp only at ha
      split at ha
      · cases ha
      · exact .inl (hr _ _ hq ha)

end Sys2Proof.Machine
end

