-- ==== Sys2Proof/Laws/PerInstr.lean ====
section
/-!
SUPPORT. The per-instruction family CommandWord: each command's word has RSV = 0 (R110) and an assigned opcode (R113), and
the opcode table's bits of it decode to the command.
-/
namespace Sys2Proof.Laws.CommandWord

/-- What holds of the word of every command. -/
def Statement (i : Sys2Proof.Instr) : Prop :=
  i.wf = true ∧ rsvField (encode i) = 0#24 ∧ opcField (encode i) = opcodeOf i ∧ (opcodeOf i).toNat ≤ 0x0D ∧
    decodeTableWord 32 (encode i).toNat = some i

theorem nop : Statement .nop := by unfold Statement; decide
theorem modmul : Statement .modmul := by unfold Statement; decide
theorem montmul : Statement .montmul := by unfold Statement; decide
theorem modexp : Statement .modexp := by unfold Statement; decide
theorem egcd : Statement .egcd := by unfold Statement; decide
theorem lcm : Statement .lcm := by unfold Statement; decide
theorem randrange : Statement .randrange := by unfold Statement; decide
theorem candprime : Statement .candprime := by unfold Statement; decide
theorem mrtest : Statement .mrtest := by unfold Statement; decide
theorem randprime : Statement .randprime := by unfold Statement; decide
theorem keygen : Statement .keygen := by unfold Statement; decide
theorem keydigits : Statement .keydigits := by unfold Statement; decide
theorem encrypt : Statement .encrypt := by unfold Statement; decide
theorem decrypt : Statement .decrypt := by unfold Statement; decide

end Sys2Proof.Laws.CommandWord
end

