-- ==== Sys2Proof/Tests/Slice0.lean ====
section
/-!
SUPPORT. Tests and witnesses. A `test_` theorem checks one step, one decoding or one check against a value of the spec: a row
of spec/95_test_vectors.md (named E1, M1, … as there) or a rule. A `witness_` theorem shows a state and operands that
meet the hypotheses of the statement it is named after, clause by clause.
-/
namespace Sys2Proof.Tests

open Sys2Proof.Machine

/-! ## Small states -/

/-- After reset, with the three operands. -/
def at3 (a b m : Int) : State := ((State.reset.setX .opa a).setX .opb b).setX .opm m

/-- With the given draws to come. -/
def drawing (s : State) (ds : List Nat) : State := s.withEnv { s.env with draws := ds }

/-- After reset, with OPA and ITER_CAP, drawing `ds`. -/
def searching (b : Int) (cap : Word) (ds : List Nat) : State := drawing ((State.reset.setX .opa b).store 0x00001C cap) ds

/-- After reset, with keys, KEYVALID and MSGLEN. -/
def keyed (e d n : Int) (kv len : Word) : State :=
  ((((State.reset.setX .keyE e).setX .keyD d).setX .keyN n).store 0x000024 kv).store 0x000020 len

/-- The toy key of the source (e = 17, d = 2753, n = 3233), with "Hi" in MSG. -/
def hi : State := ((keyed 17 2753 3233 7#32 2#32).setMsg 0 0x48#8).setMsg 1 0x69#8

/-- The toy key, with the encryption of "Hi" in CT. -/
def hiCt : State := ((keyed 17 2753 3233 7#32 2#32).setCt 0 3000).setCt 1 3179

/-- KEYGEN running, with the given bit length, rejections, position and draws. -/
def keygenAt (b : Int) (rej : Nat) (ph : Phase) (ds : List Nat) : State :=
  { drawing ((State.reset.setX .opa b).issue 0x0000000A#32) ds with eng := .busy 0x0000000A#32 ⟨rej, ph, []⟩ }

/-- K4: KEYGEN in mode 1 with p = 61, q = 53, searching for an exponent. -/
def stuck780 : State :=
  { ((State.reset.setX .opa 6).store 0x000008 2#32).issue 0x0000000A#32 with
    eng := .busy 0x0000000A#32 ⟨0, .keygenE 3233 780, []⟩ }

/-- A register after an outcome. -/
def xAfter (o : Out) (r : BigReg) : Option Int :=
  match o with
  | .next t => some (t.x r)
  | _ => none

/-- ERRCODE and ERRINFO after an outcome. -/
def errAfter (o : Out) : Option (Nat × Nat) :=
  match o with
  | .next t => some (t.errCode.toNat, t.errInfo.toNat)
  | _ => none

/-- STATUS after an outcome. -/
def statusAfter (o : Out) : Option Word :=
  match o with
  | .next t => some t.statusWord
  | _ => none

/-- A load. -/
def load (s : State) (a : Nat) : Option Word :=
  match s.readLoc (locate s.cfg a) with
  | .ok w => some w
  | .error _ => none

/-! ## Well-formedness: each check refuses an ill-formed term -/

theorem test_wf_width_too_small : (Params.mk 1 64).widthOk = false := by decide
theorem test_wf_width_too_large : (Params.mk 257 4).widthOk = false := by decide
theorem test_wf_maxLen_not_multiple_of_4 : (Params.mk 2 66).maxLenOk = false := by decide
theorem test_wf_maxLen_bounds : (Params.mk 2 0).maxLenOk = false ∧ (Params.mk 2 16388).maxLenOk = false := by decide
theorem test_wf_window : (Params.mk 17 16384).windowOk = false ∧ (Params.mk 16 16384).wf = true := by decide
theorem test_wf_line_misaligned : (HostLine.rd 0x000002#24 "t").wf Config.reference = false := by decide
theorem test_wf_line_unfit : (HostLine.wrBig .opa (2 ^ 63)).wf Config.reference = false := by decide

/-! ## Decoding: words of R113 and R115, bit by bit -/

/-- R113, one row per sub-unit: RSV above OPC. -/
theorem test_decode_rows :
    decode (0#24 ++ 0b00000000#8) = .ok .nop ∧ decode (0#24 ++ 0b00000010#8) = .ok .montmul ∧
      decode (0#24 ++ 0b00000011#8) = .ok .modexp ∧ decode (0#24 ++ 0b00000100#8) = .ok .egcd ∧
      decode (0#24 ++ 0b00000111#8) = .ok .candprime ∧ decode (0#24 ++ 0b00001010#8) = .ok .keygen ∧
      decode (0#24 ++ 0b00001101#8) = .ok .decrypt := by decide

/-- R115, E11 to E14: both kinds of illegal word, at the ends of their ranges. -/
theorem test_decode_illegal :
    decode 0x0000000E#32 = .error .unassigned ∧ decode 0x000000FF#32 = .error .unassigned ∧
      decode 0x00000100#32 = .error .reservedBits ∧ decode 0x00000103#32 = .error .reservedBits ∧
      decode 0xFFFFFFFF#32 = .error .reservedBits := by decide

theorem test_decodeTableWord : decodeTableWord 32 0x0D = some .decrypt ∧ decodeTableWord 32 0x10D = none := by decide

/-! ## The bus (95_test_vectors.md, 2.1) -/

theorem test_E1 : load State.reset 0x000000 = some 0x52534131#32 ∧ load State.reset 0x000004 = some 0x00400002#32 := by decide
theorem test_E3 : load State.reset 0x000028 = some 0#32 ∧ load State.reset 0x003000 = some 0#32 ∧
    load State.reset 0x200000 = some 0#32 := by decide
/-- R119. -/
theorem test_E5 : HostLine.expand Config.reference (.wrBig .opa (-367)) =
    [writeEvent 0x000400 0xFFFFFE91#32, writeEvent 0x000404 0xFFFFFFFF#32] := by decide
/-- R119's two words, read back by RDBIG (R118). -/
theorem test_rdbig : HostLine.bindings Config.reference (.rdBig .opa "x")
    [.data 0xFFFFFE91#32, .data 0xFFFFFFFF#32, .ack] = some ([("x", -367)], [.ack]) := by decide
/-- RUN, whose POLL reads BUSY = 1 once, then RD and RDBIG (R117, R118): what each line names. -/
theorem test_program_names : programBindings Config.reference [.run .modexp, .rd 0x000014#24 "e", .rdBig .res0 "r"]
    [.ack, .data 1#32, .data 2#32, .data 0#32, .data 2790#32, .data 0#32] =
      some ([("s", 2), ("e", 0), ("r", 2790)], []) := by decide
theorem test_E6 : ((State.reset.setX .opa (-367)).store 0x000400 5#32).x .opa = -4294967291 := by decide
theorem test_E7 : (State.reset.store 0x001000 0x11#32).keyValid = 0b001#3 ∧
    load (State.reset.store 0x001000 0x11#32) 0x001000 = some 0x11#32 := by decide
theorem test_E8 : ((State.reset.store 0x000024 7#32).store 0x000024 0xFFFFFFFA#32).keyValid = 0b010#3 := by decide
theorem test_E9 : (State.reset.store 0x004000 0x00006948#32).mem =
    [(0x4000, 0x48#8), (0x4001, 0x69#8), (0x4002, 0#8), (0x4003, 0#8)] := by decide
theorem test_E11 : errAfter (step (State.reset.store 0x000010 0x0000000E#32)) = some (1, 1) ∧
    statusAfter (step (State.reset.store 0x000010 0x0000000E#32)) = some 0x6#32 := by decide
theorem test_E14 : errAfter (step (State.reset.store 0x000010 0x00000103#32)) = some (1, 2) := by decide
theorem test_E15 : ((State.reset.issue 3#32).store 0x000400 7#32).x .opa = 0 ∧
    ((State.reset.issue 3#32).store 0x000400 7#32).statusWord = 0x9#32 := by decide
theorem test_E17 : (((State.reset.issue 3#32).store 0x000400 7#32).store 0x00000C 8#32).statusWord = 0x1#32 := by decide
theorem test_E19 : ({ State.reset with done := true, err := true, wwb := true }.store 0x00000C 2#32).statusWord = 0xC#32 := by
  decide

/-! ## Commands, one engine step each -/

/-- R139's example: STATUS 0x6 and ERRCODE 4 before, 0x2 and 0 after. -/
theorem test_nop_clears_error :
    statusAfter (exec .nop ({ State.reset with done := true, err := true, errCode := 4#8 }.issue 0#32)) = some 0x2#32 := by
  decide
theorem test_M3 : xAfter (exec .modmul (at3 (-2 ^ 63) (-2 ^ 63) 3233)) .res0 = some 308 := by decide
theorem test_M8 : errAfter (exec .modmul (at3 3 3 (-5))) = some (4, 1) := by decide
theorem test_N8 : xAfter (exec .montmul (at3 (-1) 1 7)) .res0 = some 3 := by decide
theorem test_N10 : errAfter (exec .montmul (at3 3 3 3232)) = some (4, 2) := by decide
theorem test_X8 : xAfter (exec .modexp (at3 (-6401) 17 3233)) .res0 = some 2790 := by decide
theorem test_X13 : errAfter (exec .modexp (at3 2 (-1) 0)) = some (4, 1) := by decide
/-- G4: the negated triple. -/
theorem test_G4 : xAfter (exec .egcd (at3 4 (-6) 0)) .res0 = some 2 ∧ xAfter (exec .egcd (at3 4 (-6) 0)) .res1 = some (-1) ∧
    xAfter (exec .egcd (at3 4 (-6) 0)) .res2 = some (-1) := by decide
theorem test_G21 : errAfter (exec .egcd (at3 (-2 ^ 63) (-2 ^ 63) 0)) = some (7, 2) := by decide
theorem test_L3_L4 : xAfter (exec .lcm (at3 (-6) 4 0)) .res0 = some 24 ∧
    xAfter (exec .lcm ((at3 (-6) 4 0).store 0x000008 2#32)) .res0 = some 12 := by decide
theorem test_L9 : errAfter (exec .lcm (at3 (2 ^ 32) (2 ^ 31) 0)) = some (7, 2) := by decide
theorem test_Q5 : xAfter (exec .randrange (drawing (at3 5 3 0) [99])) .res0 = some 4 := by decide
theorem test_Q8 : xAfter (exec .randrange (drawing (at3 (-100) 100 0) [99])) .res0 = some 98 := by decide
/-- P6: 2 passes the filter. -/
theorem test_P6 : xAfter (exec .candprime (searching 2 0#32 [2])) .res0 = some 2 := by decide
theorem test_P4 : errAfter (exec .candprime (searching 8 1#32 [200])) = some (8, 1) := by decide
theorem test_T9 : xAfter (exec .mrtest (searching 91 0#32 (List.replicate 20 9))) .res0 = some 1 := by decide
/-- T12: the witness comes in the last round. -/
theorem test_T12 : xAfter (exec .mrtest (searching 561 0#32 (List.replicate 19 50 ++ [2]))) .res0 = some 0 := by decide
theorem test_R2 : errAfter (exec .randprime (searching 8 1#32 [201, 2])) = some (8, 2) := by decide
theorem test_R5 : xAfter (exec .randprime (searching 2 0#32 (3 :: List.replicate 20 2))) .res0 = some 3 := by decide
/-- K1's last step: k = 3 gives e = 1969 and d = 2689. -/
theorem test_K1_exponent : xAfter (exec .keygen (keygenAt 6 3 (.keygenE 3233 3120) [3])) .res1 = some 1969 ∧
    xAfter (exec .keygen (keygenAt 6 3 (.keygenE 3233 3120) [3])) .keyD = some 2689 := by decide
/-- K1: after p = 61, q = 53 gives n = 3233 and λ = 3120. -/
theorem test_K1_modulus :
    (match exec .keygen (keygenAt 6 0 (.keygenQ 61) (53 :: List.replicate 20 2)) with
    | .next t => (t.eng, t.env.drawCount)
    | _ => (.idle, 0)) = (.busy 0x0000000A#32 ⟨0, .keygenE 3233 3120, []⟩, 21) := by decide
theorem test_Y4 : xAfter (exec .keydigits (at3 64 0 0)) .res0 = some 20 := by decide
theorem test_Y2 : xAfter (exec .keydigits (at3 1 0 0)) .res0 = some 1 := by decide
/-- C1: CT[0] = 0x00000BB8 / 0 and CT[1] = 0x00000C6B / 0. -/
theorem test_C1 : (match exec .encrypt hi with
    | .next t => [load t 0x100000, load t 0x100004, load t 0x100008, load t 0x10000C]
    | _ => []) = [some 0x00000BB8#32, some 0#32, some 0x00000C6B#32, some 0#32] := by decide
theorem test_C18 : (match exec .encrypt (keyed 17 2753 3233 7#32 1#32) with
    | .fault f => some f
    | _ => none) = some (.unwrittenRead 0x4000) := by decide
/-- C6: CT[0] = -1 is reduced first; 3232 mod 256 = 0xA0. -/
theorem test_C6 : (match exec .decrypt ((keyed 17 1 3233 7#32 1#32).setCt 0 (-1)) with
    | .next t => t.mem.read 0x4000
    | _ => none) = some 0xA0#8 := by decide
theorem test_C11 : errAfter (exec .decrypt (keyed 0 0 0 1#32 2#32)) = some (3, 6) := by decide

/-- The host's fetch form: KEYDIGITS right after reset, with OPA = 0 (Y1). -/
theorem test_withFetchWord : xAfter (step (State.reset.withFetchWord 32 0x0B)) .res0 = some 1 := by decide

/-! ## The invariant of the small states -/

theorem reset_inv : State.reset.Inv := resetOf_inv (by decide) _

theorem at3_inv (a b m : Int) : (at3 a b m).Inv := ((reset_inv.setX rfl _ _).setX rfl _ _).setX rfl _ _

theorem searching_inv (b : Int) (cap : Word) (ds : List Nat) : (searching b cap ds).Inv :=
  ((reset_inv.setX rfl _ _).store (by decide) _).withEnv _

theorem keyed_inv (e d n : Int) (kv len : Word) : (keyed e d n kv len).Inv :=
  ((((reset_inv.setX rfl _ _).setX rfl _ _).setX rfl _ _).store (by decide) _).store (by decide) _

theorem hi_inv : hi.Inv := ((keyed_inv _ _ _ _ _).setMsg rfl (by decide) _).setMsg rfl (by decide) _

theorem hiCt_inv : hiCt.Inv := ((keyed_inv _ _ _ _ _).setCt rfl (by decide) _).setCt rfl (by decide) _

theorem keygenAt_inv {b : Int} {rej : Nat} {ph : Phase} (ds : List Nat)
    (hp : phaseOk (State.reset.setX .opa b) 0x0000000A#32 ph) : (keygenAt b rej ph ds).Inv := by
  have h := ((reset_inv.setX rfl .opa b).issue 0x0000000A#32).withEnv { State.reset.env with draws := ds }
  exact ⟨h.cfg_wf, h.regs_length, h.mem_wf, h.mem_inside, h.ct_marks, h.error_pair, h.err_code,
    ⟨rfl, rfl, rfl, rfl, rfl, rfl, fun e => absurd rfl e, phaseOk_congr rfl rfl rfl hp⟩⟩

theorem phaseOk_q61 : phaseOk (State.reset.setX .opa 6) 0x0000000A#32 (.keygenQ 61) :=
  ⟨rfl, ⟨by decide, by decide⟩, by decide, by decide, by decide⟩

theorem phaseOk_e3120 : phaseOk (State.reset.setX .opa 6) 0x0000000A#32 (.keygenE 3233 3120) :=
  ⟨rfl, ⟨by decide, by decide⟩, 61, 53, ⟨by decide, by decide, by decide⟩, ⟨by decide, by decide, by decide⟩, by decide,
    by decide⟩

theorem phaseOk_e2 : phaseOk (State.reset.setX .opa 2) 0x0000000A#32 (.keygenE 6 2) :=
  ⟨rfl, ⟨by decide, by decide⟩, 2, 3, ⟨by decide, by decide, by decide⟩, ⟨by decide, by decide, by decide⟩, by decide,
    by decide⟩

/-! ## Witnesses: a state and operands for the hypotheses of each statement -/

theorem witness_OpcodeMapWords : decode 0x0000000D#32 = .ok .decrypt := by decide

theorem witness_DecodeEncodeAgree : 0x0000000D#32 = encode .decrypt ∧ 256 ≤ (0x00000100#32).toNat ∧
    (0x0E ≤ (0x0000000E#32).toNat ∧ (0x000000FF#32).toNat < 256) := by decide

theorem witness_IllegalWordCompletes : State.reset.eng = .idle ∧ State.reset.env.events = [] ∧
    0x0E ≤ (0x0000000E#32).toNat ∧ 256 ≤ (0x00000100#32).toNat := by decide

theorem witness_StepRunsDecodedCommand : decode 0x0000000D#32 = .ok .decrypt ∧
    (hiCt.issue 0x0000000D#32).eng = .busy 0x0000000D#32 Prog.start ∧ (hiCt.issue 0x0000000D#32).env.events = [] ∧
    ((hiCt.issue 0x0000000D#32).withEvents [.engine]).env.events = .engine :: [] := ⟨rfl, rfl, rfl, rfl⟩

theorem witness_IdleEngineDoesNothing : State.reset.eng = .idle ∧ State.reset.env.events = [] ∧
    (State.reset.withEvents [.engine]).env.events = .engine :: [] := ⟨rfl, rfl, rfl⟩

theorem witness_CommandIssue : (State.reset.withEvents [writeEvent 0x000010 0x0000000B#32]).eng = .idle ∧
    (State.reset.withEvents [writeEvent 0x000010 0x0000000B#32]).env.events =
      .access (.write 0x000010#24 4 0x0000000B#32) :: [] ∧ decode 0x0000000B#32 = .ok .keydigits := ⟨rfl, rfl, rfl⟩

/-- A Busy engine, and a write to CMD, one to STATUS, one of 2 bytes and one misaligned. -/
theorem witness_WriteWhileBusy : (State.reset.issue 3#32).busy = true ∧
    ((0x000010#24).toNat % 4 = 0 ∧ (0x000010#24).toNat ≠ 0x00000C) ∧ (0x00000C#24).toNat = 0x00000C ∧
    ((2 : Nat) ≠ 4) ∧ (0xFFFFFF#24).toNat % 4 ≠ 0 := by decide

/-- The last word of the address space, and an unwritten MSG word. -/
theorem witness_ReadsHaveNoSideEffect : State.reset.cfg.wf = true ∧
    (State.reset.withEvents [readEvent 0xFFFFFC]).env.events = .access (.read 0xFFFFFC#24 4) :: [] ∧
    (0xFFFFFC#24).toNat % 4 = 0 ∧ State.reset.mem.read ((0x004000#24).toNat + 0) = none := ⟨by decide, rfl, by decide, rfl⟩

theorem witness_BusErrorChangesNothing : ((1 : Nat) ≠ 4 ∨ (0x000000#24).toNat % 4 ≠ 0) ∧
    ((4 : Nat) ≠ 4 ∨ (0x000002#24).toNat % 4 ≠ 0) ∧
    (State.reset.withEvents [.access (.read 0x000002#24 4)]).env.events = .access (.read 0x000002#24 4) :: [] ∧
    (State.reset.withEvents [.access (.write 0x000000#24 1 5#32)]).env.events =
      .access (.write 0x000000#24 1 5#32) :: [] := ⟨by decide, by decide, rfl, rfl⟩

theorem witness_PollReadsStatusUntilIdle : (State.reset.withEvents [.poll]).env.events = .poll :: [] ∧
    (State.reset.withEvents [.poll]).busy = false ∧ ((State.reset.withEvents [.poll]).issue 3#32).busy = true ∧
    ((State.reset.withEvents [.poll]).issue 3#32).env.events = .poll :: [] := ⟨rfl, rfl, rfl, rfl⟩

theorem witness_IdAndParamRead : State.reset.cfg.wf = true ∧ (State.resetOf ⟨256, 1024⟩ Env.empty).cfg.wf = true := by decide

theorem witness_ControlRegisterWrites : State.reset.eng = .idle ∧ BigReg.res3 ∈ [BigReg.res0, .res1, .res2, .res3] ∧
    1 < State.reset.cfg.nw ∧ State.reset.cfg.wf = true := by decide

/-- Both ends of each reserved range, in the reference build. -/
theorem witness_ReservedAddresses : State.reset.cfg.wf = true ∧ (∀ a ∈ [0x28, 0x3FC], a % 4 = 0 ∧ 0x28 ≤ a ∧ a < 0x400) ∧
    (∀ a ∈ [0x2808, 0x2BFC], a % 4 = 0 ∧ bigBase .res3 + 4 * State.reset.cfg.nw ≤ a ∧ a < bigBase .res3 + 0x400) ∧
    (∀ a ∈ [0x2C00, 0x3FFC], a % 4 = 0 ∧ 0x2C00 ≤ a ∧ a < 0x4000) ∧
    (∀ a ∈ [0x4040, 0xFFFFC], a % 4 = 0 ∧ 0x4000 + State.reset.cfg.maxLen ≤ a ∧ a < 0x100000) ∧
    ∀ a ∈ [0x100200, 0xFFFFFC], a % 4 = 0 ∧ a < 0x1000000 ∧ 0x100000 + 4 * State.reset.cfg.maxLen * State.reset.cfg.nw ≤ a := by
  decide

theorem witness_BigRegisterWords : (at3 0 0 (-9)).Inv ∧ 1 < (at3 0 0 (-9)).cfg.nw ∧ (at3 0 0 (-9)).eng = .idle ∧
    BigReg.opm ∈ [BigReg.opa, .opb, .opm, .keyE, .keyD, .keyN] := ⟨at3_inv _ _ _, by decide, rfl, by decide⟩

theorem witness_KeyWriteSetsKeyValid : State.reset.cfg.wf = true ∧ State.reset.eng = .idle ∧ 1 < State.reset.cfg.nw ∧
    BigReg.opa ∈ [BigReg.opa, .opb, .opm] := by decide

/-- The last MSG word, written. -/
theorem witness_MsgPacking : 4 * 15 < State.reset.cfg.maxLen ∧ State.reset.cfg.wf = true ∧ State.reset.eng = .idle ∧
    (State.reset.store 0x00403C 0x04030201#32).mem.read (msgAddr 60) = some 1#8 ∧
    (State.reset.store 0x00403C 0x04030201#32).mem.read (msgAddr 63) = some 4#8 := by decide

/-- The last CT word, written. -/
theorem witness_CtLayout : State.reset.cfg.wf = true ∧ 63 < State.reset.cfg.maxLen ∧ 1 < State.reset.cfg.nw ∧
    State.reset.eng = .idle ∧ (State.reset.setCt 63 (-1)).ctWords 63 = .ok [0xFFFFFFFF#32, 0xFFFFFFFF#32] :=
  ⟨by decide, by decide, by decide, rfl, rfl⟩

/-- The least value that fits. -/
theorem witness_WrbigWritesValue :
    (State.reset.withEvents (HostLine.expand State.reset.cfg (.wrBig .keyD (-2 ^ 63)) ++ [])).Inv ∧
    fits State.reset.cfg.width (-2 ^ 63) = true ∧ fits State.reset.cfg.width (2 ^ 63 - 1) = true ∧
    BigReg.keyD ∈ [BigReg.opa, .opb, .opm, .keyE, .keyD, .keyN] := ⟨reset_inv.withEvents _, by decide, by decide, by decide⟩

theorem witness_ResetValues : (Params.mk 2 4).wf = true ∧ (Params.mk 256 1024).wf = true ∧ (Params.mk 16 16384).wf = true := by
  decide

theorem witness_HardResetAbandonsCommand : ((keygenAt 6 0 .start []).withEvents [.reset]).env.events = .reset :: [] ∧
    (keygenAt 6 0 .start []).busy = true := ⟨rfl, rfl⟩

theorem witness_InterruptOutput : (∃ t, exec .nop State.reset = .next t ∧ t.eng = .idle) ∧ State.reset.eng = .idle ∧
    (2#32).getLsbD 1 = true := ⟨⟨_, rfl, rfl⟩, rfl, rfl⟩

theorem witness_DrawsLieInRange : (1 : Nat) ≤ 1 ∧ (2 : Nat) ≤ 2 ∧ (0 : Nat) ≤ 99 ∧ (99 : Nat) ≤ 99 ∧
    (2 ^ (1 - 1) ≤ 1 ∧ 1 ≤ 2 ^ 1 - 1) ∧ (2 ^ (8 - 1) ≤ 255 ∧ 255 ≤ 2 ^ 8 - 1) := by decide

theorem witness_NopCompletes : State.reset.Inv := reset_inv

theorem witness_ModmulResult : (at3 65 65 1).Inv ∧ 0 < (at3 65 65 1).x .opm ∧ (at3 3 3 0).Inv ∧ (at3 3 3 0).x .opm ≤ 0 :=
  ⟨at3_inv _ _ _, by decide, at3_inv _ _ _, by decide⟩

theorem witness_MontmulResult : ((at3 3 5 1).Inv ∧ 0 < (at3 3 5 1).x .opm ∧ (at3 3 5 1).x .opm % 2 = 1) ∧
    ((at3 3 3 0).Inv ∧ (at3 3 3 0).x .opm ≤ 0) ∧
    ((at3 3 3 2).Inv ∧ 0 < (at3 3 3 2).x .opm ∧ (at3 3 3 2).x .opm % 2 = 0) :=
  ⟨⟨at3_inv _ _ _, by decide, by decide⟩, ⟨at3_inv _ _ _, by decide⟩, ⟨at3_inv _ _ _, by decide, by decide⟩⟩

theorem witness_ModexpResult : ((at3 0 0 1).Inv ∧ 0 < (at3 0 0 1).x .opm ∧ 0 ≤ (at3 0 0 1).x .opb) ∧
    ((at3 2 (-1) 0).Inv ∧ (at3 2 (-1) 0).x .opm ≤ 0) ∧
    ((at3 2 (-1) 1).Inv ∧ 0 < (at3 2 (-1) 1).x .opm ∧ (at3 2 (-1) 1).x .opb < 0) :=
  ⟨⟨at3_inv _ _ _, by decide, by decide⟩, ⟨at3_inv _ _ _, by decide⟩, ⟨at3_inv _ _ _, by decide, by decide⟩⟩

/-- The three forms of operands with listed coefficients, at the least and greatest values. -/
theorem witness_EgcdResult : (at3 (2 ^ 63 - 1) 0 0).Inv ∧ (at3 (2 ^ 63 - 1) 0 0).x .opb = 0 ∧
    (at3 (2 ^ 63 - 1) 0 0).x .opa ≠ 0 ∧ (Int.gcd ((at3 (2 ^ 63 - 1) 0 0).x .opa) 0 : Int) ≠ 2 ^ 63 ∧
    (at3 0 (-5) 0).x .opa = 0 ∧ (at3 0 (-5) 0).x .opb ≠ 0 ∧ (at3 7 7 0).x .opa = (at3 7 7 0).x .opb ∧
    (at3 4 (-6) 0).x .opa ≠ 0 ∧ (Int.gcd 4 (-6) : Int) ≠ 2 ^ 63 :=
  ⟨at3_inv _ _ _, by decide, by decide, by decide, by decide, by decide, by decide, by decide, by decide⟩

theorem witness_EgcdErrors : (at3 0 0 0).Inv ∧ ((at3 0 0 0).x .opa = 0 ∧ (at3 0 0 0).x .opb = 0) ∧
    ((at3 (-2 ^ 63) 0 0).x .opa = -2 ^ (State.reset.cfg.width - 1) ∧ (at3 (-2 ^ 63) 0 0).x .opb = 0) ∧
    ((at3 0 (-2 ^ 63) 0).x .opa = 0 ∧ (at3 0 (-2 ^ 63) 0).x .opb = -2 ^ (State.reset.cfg.width - 1)) ∧
    (∃ t, exec .egcd (at3 0 0 0) = .next t ∧ t.errCode = 7#8 ∧ t.errInfo = 1#8) ∧
    (∃ t, exec .egcd (at3 (-2 ^ 63) (-2 ^ 63) 0) = .next t ∧ t.errCode = 7#8 ∧ t.errInfo = 2#8) :=
  ⟨at3_inv _ _ _, by decide, by decide, by decide, ⟨_, rfl, by decide, by decide⟩, ⟨_, rfl, by decide, by decide⟩⟩

/-- Mode 0 at v = 2^62 and v = 2^63, mode 1 at both ends too, and mode 1 with (0, 0). -/
theorem witness_LcmResult : (at3 (2 ^ 31) (2 ^ 31) 0).Inv ∧
    ((2 ^ 62 : Int) = |(at3 (2 ^ 31) (2 ^ 31) 0).x .opa * (at3 (2 ^ 31) (2 ^ 31) 0).x .opb| ∧ (2 ^ 62 : Int) ≤ 2 ^ 63 - 1) ∧
    ((2 ^ 63 : Int) = |(at3 (2 ^ 32) (2 ^ 31) 0).x .opa * (at3 (2 ^ 32) (2 ^ 31) 0).x .opb| ∧ (2 ^ 63 - 1 : Int) < 2 ^ 63) ∧
    ((at3 0 0 0).store 0x000008 2#32).Inv ∧ ((at3 0 0 0).store 0x000008 2#32).lcmTrue = true ∧
    (12 * (Int.gcd (-6) 4 : Int) = |-6 * 4|) ∧ (2 ^ 63 * (Int.gcd (-2 ^ 63) 1 : Int) = |-2 ^ 63 * 1|) :=
  ⟨at3_inv _ _ _, by decide, by decide, (at3_inv _ _ _).store (by decide) _, by decide, by decide, by decide⟩

theorem witness_RandrangeResult : (at3 7 8 0).Inv ∧ (at3 7 8 0).x .opa < (at3 7 8 0).x .opb :=
  ⟨at3_inv _ _ _, by decide⟩

/-- Just outside each bound, in the reference build: 1..63, 2..63 and 2..31. -/
theorem witness_BitLengthChecks : (∀ b, (searching b 0#32 []).Inv) ∧ (searching 0 0#32 []).x .opa < 1 ∧
    ((State.reset.cfg.width : Int) - 1 < (searching 64 0#32 []).x .opa) ∧ (searching 1 0#32 []).x .opa < 2 ∧
    ((State.reset.cfg.width : Int) - 1) / 2 < (searching 32 0#32 []).x .opa :=
  ⟨fun _ => searching_inv _ _ _, by decide, by decide, by decide, by decide⟩

theorem witness_CandprimeIteration : (searching 8 0#32 [201]).Inv ∧ 1 ≤ (searching 8 0#32 [201]).x .opa ∧
    (searching 8 0#32 [201]).x .opa ≤ (State.reset.cfg.width : Int) - 1 ∧
    ((searching 8 0#32 [201]).env.drawBits 8).1 % 2 = 1 ∧ ((searching 2 0#32 [2]).env.drawBits 2).1 < 4 ∧
    ((searching 3 0#32 [4]).env.drawBits 3).1 = 4 ∧ 1 ≤ (searching 1 0#32 []).x .opa ∧
    (searching 63 0#32 []).x .opa ≤ (State.reset.cfg.width : Int) - 1 :=
  ⟨searching_inv _ _ _, by decide, by decide, by decide, by decide, by decide, by decide, by decide⟩

/-- n = 1, n = 2, a composite whose 20 bases are all strong liars, and one whose first base is a witness. -/
theorem witness_MrtestVerdict : (∀ b ds, (searching b 0#32 ds).Inv) ∧ (searching 1 0#32 []).x .opa ≤ 1 ∧
    (searching 2 0#32 []).x .opa = 2 ∧ (searching 91 0#32 []).x .opa = 91 ∧
    (∀ j, j < 20 → Inconclusive 91 (baseAt (searching 91 0#32 (List.replicate 20 9)).env 91 j)) ∧
    ¬Inconclusive 15 (baseAt (searching 15 0#32 [2]).env 15 0) := by
  refine ⟨fun _ _ => searching_inv _ _ _, by decide, by decide, by decide, ?_, ?_⟩
  · intro j hj
    have : baseAt (searching 91 0#32 (List.replicate 20 9)).env 91 j = 9 := by revert j; decide
    rw [this, inconclusive_iff (by decide)]; decide
  · rw [inconclusive_iff (by decide)]; decide

theorem witness_MrtestPrimeAlwaysOne : (searching 211 0#32 []).Inv ∧ ((searching 211 0#32 []).x .opa).toNat.Prime := by
  refine ⟨searching_inv _ _ _, ?_⟩
  have : ((searching 211 0#32 []).x .opa).toNat = 211 := by decide
  rw [this]; norm_num

theorem witness_MrtestFourAlwaysZero : (searching 4 0#32 []).Inv ∧ (searching 4 0#32 []).x .opa = 4 :=
  ⟨searching_inv _ _ _, by decide⟩

/-- An even candidate, a composite one (base 2), and 2, which needs no base. -/
theorem witness_RandprimeIteration : (searching 8 0#32 [200]).Inv ∧ 2 ≤ (searching 2 0#32 [2]).x .opa ∧
    (searching 63 0#32 []).x .opa ≤ (State.reset.cfg.width : Int) - 1 ∧
    ((searching 8 0#32 [200]).env.drawBits 8).1 % 2 = 0 ∧
    (isProbablyPrime ((searching 8 0#32 [201, 2]).env.drawBits 8).1 ((searching 8 0#32 [201, 2]).env.after 1)).1 = false ∧
    (isProbablyPrime ((searching 2 0#32 [2]).env.drawBits 2).1 ((searching 2 0#32 [2]).env.after 1)).1 = true :=
  ⟨searching_inv _ _ _, by decide, by decide, by decide, by decide, by decide⟩

/-- In the search for p and in the search for q, with each kind of candidate. -/
theorem witness_KeygenPrimeSearch : (keygenAt 6 0 .start [62]).Inv ∧ (∀ ds, (keygenAt 6 0 (.keygenQ 61) ds).Inv) ∧
    2 ≤ (keygenAt 2 0 .start []).x .opa ∧ (keygenAt 31 0 .start []).x .opa ≤ ((State.reset.cfg.width : Int) - 1) / 2 ∧
    ((keygenAt 6 0 .start [62]).env.drawBits 6).1 % 2 = 0 ∧
    (isProbablyPrime ((keygenAt 6 0 (.keygenQ 61) [51, 2]).env.drawBits 6).1
      ((keygenAt 6 0 (.keygenQ 61) [51, 2]).env.after 1)).1 = false ∧
    (isProbablyPrime ((keygenAt 2 0 .start [2]).env.drawBits 2).1 ((keygenAt 2 0 .start [2]).env.after 1)).1 = true :=
  ⟨keygenAt_inv _ trivial, fun _ => keygenAt_inv _ phaseOk_q61, by decide, by decide, by decide, by decide, by decide⟩

/-- K1 with k = 3. -/
theorem witness_KeygenCompletes : (keygenAt 6 3 (.keygenE 3233 3120) [3]).Inv ∧
    (keygenAt 6 3 (.keygenE 3233 3120) [3]).prog.phase = .keygenE 3233 3120 ∧
    3 + 65535 * ((keygenAt 6 3 (.keygenE 3233 3120) [3]).env.drawPercent.1 : Int) / 100 = 1969 ∧
    (1969 : Int) < 3120 ∧ Int.gcd 1969 3120 = 1 :=
  ⟨keygenAt_inv _ phaseOk_e3120, rfl, by decide, by decide, by decide⟩

/-- K1 with k = 0 (a common factor 3) and with k = 99 (e ≥ λ). -/
theorem witness_KeygenExponentRejected : (∀ ds, (keygenAt 6 0 (.keygenE 3233 3120) ds).Inv) ∧
    3 + 65535 * ((keygenAt 6 0 (.keygenE 3233 3120) [0]).env.drawPercent.1 : Int) / 100 = 3 ∧ Int.gcd 3 3120 ≠ 1 ∧
    3120 ≤ 3 + 65535 * ((keygenAt 6 0 (.keygenE 3233 3120) [99]).env.drawPercent.1 : Int) / 100 :=
  ⟨fun _ => keygenAt_inv _ phaseOk_e3120, by decide, by decide, by decide⟩

theorem witness_KeygenErrors : (searching 32 0#32 []).Inv ∧ (searching 32 0#32 []).err = false ∧
    ∃ t, exec .keygen (searching 32 0#32 []) = .next t ∧ t.err = true :=
  ⟨searching_inv _ _ _, rfl, ⟨_, rfl, by decide⟩⟩

/-- K6: p = 2, q = 3, λ = 2. -/
theorem witness_KeygenStuckWithoutExponent : (keygenAt 2 0 (.keygenE 6 2) []).Inv ∧
    (keygenAt 2 0 (.keygenE 6 2) []).env.events = [] ∧ (keygenAt 2 0 (.keygenE 6 2) []).prog.phase = .keygenE 6 2 ∧
    NoExponent 2 ∧ (keygenAt 2 0 (.keygenE 6 2) []).iterCap = 0#32 :=
  ⟨keygenAt_inv _ phaseOk_e2, rfl, rfl, noExponent_of_le (by decide), rfl⟩

/-- K4: λ = 780 is what mode 1 makes of p = 61 and q = 53. -/
theorem witness_KeygenStuckWithoutExponent_780 : stuck780.Inv ∧ stuck780.env.events = [] ∧
    stuck780.prog.phase = .keygenE 3233 780 ∧ NoExponent 780 ∧ stuck780.iterCap = 0#32 := by
  have h := (((reset_inv.setX rfl .opa 6).store (by decide) 2#32 (a := 0x000008)).issue 0x0000000A#32)
  refine ⟨⟨h.cfg_wf, h.regs_length, h.mem_wf, h.mem_inside, h.ct_marks, h.error_pair, h.err_code,
    ⟨rfl, rfl, rfl, rfl, rfl, rfl, fun e => absurd rfl e, ?_⟩⟩, rfl, rfl, fun k hk => ?_, rfl⟩
  · exact ⟨rfl, ⟨by decide, by decide⟩, 61, 53, ⟨by decide, by decide, by decide⟩, ⟨by decide, by decide, by decide⟩,
      by decide, by decide⟩
  · interval_cases k <;> decide

theorem witness_KeydigitsResult : (at3 0 0 0).Inv ∧ 0 ≤ (at3 0 0 0).x .opa ∧ (at3 (-1) 0 0).x .opa < 0 :=
  ⟨at3_inv _ _ _, by decide, by decide⟩

theorem hi_written : messageWritten hi := by
  intro i hlt
  have : i = 0 ∨ i = 1 := by have h : hi.msgLen.toNat = 2 := rfl; omega
  rcases this with rfl | rfl
  · exact ⟨0x48#8, rfl⟩
  · exact ⟨0x69#8, rfl⟩

theorem witness_EncryptResult : hi.Inv ∧ hi.keyValid &&& 5#3 = 5#3 ∧ hi.msgLen.toNat ≤ hi.cfg.maxLen ∧ 0 < hi.x .keyN ∧
    0 ≤ hi.x .keyE ∧ messageWritten hi := ⟨hi_inv, by decide, by decide, by decide, by decide, hi_written⟩

theorem witness_DecryptResult : hiCt.Inv ∧ hiCt.keyValid &&& 6#3 = 6#3 ∧ hiCt.msgLen.toNat ≤ hiCt.cfg.maxLen ∧
    0 < hiCt.x .keyN ∧ 0 ≤ hiCt.x .keyD ∧ ciphertextWritten hiCt := by
  refine ⟨hiCt_inv, by decide, by decide, by decide, by decide, ?_⟩
  intro i hlt
  have : i = 0 ∨ i = 1 := by have h : hiCt.msgLen.toNat = 2 := rfl; omega
  rcases this with rfl | rfl
  · exact ⟨[3000#32, 0#32], rfl⟩
  · exact ⟨[3179#32, 0#32], rfl⟩

/-- C12, C14, C15 and C16, one per check. -/
theorem witness_CipherChecksInOrder : (∀ e d n kv len, (keyed e d n kv len).Inv) ∧
    5#3 &&& ~~~(keyed 17 0 3233 2#32 2#32).keyValid ≠ 0#3 ∧
    (6#3 &&& ~~~(keyed 17 1 3233 7#32 65#32).keyValid = 0#3 ∧
      (keyed 17 1 3233 7#32 65#32).cfg.maxLen < (keyed 17 1 3233 7#32 65#32).msgLen.toNat) ∧
    ((keyed 17 1 0 7#32 64#32).msgLen.toNat ≤ State.reset.cfg.maxLen ∧ (keyed 17 1 0 7#32 64#32).x .keyN ≤ 0) ∧
    (0 < (keyed 17 (-1) 3233 7#32 2#32).x .keyN ∧ (keyed 17 (-1) 3233 7#32 2#32).x .keyD < 0) :=
  ⟨fun _ _ _ _ _ => keyed_inv _ _ _ _ _, by decide, by decide, by decide, by decide⟩

/-- C18, and its counterpart for DECRYPT. -/
theorem witness_CipherUnwrittenInputFaults : (keyed 17 2753 3233 7#32 1#32).Inv ∧
    (keyed 17 2753 3233 7#32 1#32).msgLen.toNat ≤ State.reset.cfg.maxLen ∧ 0 < (keyed 17 2753 3233 7#32 1#32).x .keyN ∧
    (keyed 17 2753 3233 7#32 1#32).keyValid = 7#3 ∧ 0 ≤ (keyed 17 2753 3233 7#32 1#32).x .keyE ∧
    0 ≤ (keyed 17 2753 3233 7#32 1#32).x .keyD ∧ ¬messageWritten (keyed 17 2753 3233 7#32 1#32) ∧
    ¬ciphertextWritten (keyed 17 2753 3233 7#32 1#32) ∧
    (∃ f, exec .encrypt (keyed 17 2753 3233 7#32 1#32) = .fault f) ∧
    ∃ f, exec .decrypt (keyed 17 2753 3233 7#32 1#32) = .fault f := by
  refine ⟨keyed_inv _ _ _ _ _, by decide, by decide, by decide, by decide, by decide, fun h => ?_, fun h => ?_,
    ⟨_, rfl⟩, ⟨_, rfl⟩⟩
  · obtain ⟨b, hb⟩ := h 0 (by decide)
    cases hb
  · obtain ⟨b, hb⟩ := h 0 (by decide)
    cases hb

/-- "Hi" under the toy key, λ = lcm(60, 52) = 780. -/
theorem witness_CipherRoundTrip : hi.Inv ∧ hi.keyValid = 7#3 ∧ hi.msgLen.toNat ≤ hi.cfg.maxLen ∧ messageWritten hi ∧
    Nat.Prime 61 ∧ Nat.Prime 53 ∧ 61 ≠ 53 ∧ hi.x .keyN = (61 : Nat) * (53 : Nat) ∧ 0 ≤ hi.x .keyE ∧ 0 ≤ hi.x .keyD ∧
    (61 - 1).lcm (53 - 1) ∣ 780 ∧ hi.x .keyE * hi.x .keyD % (780 : Nat) = 1 % (780 : Nat) ∧
    ∀ i m, i < hi.msgLen.toNat → hi.msgByte i = .ok m → (m.toNat : Int) < hi.x .keyN := by
  refine ⟨hi_inv, by decide, by decide, hi_written, by norm_num, by norm_num, by decide, by decide, by decide, by decide,
    by decide, by decide, fun i m _ _ => ?_⟩
  have hx : hi.x .keyN = 3233 := by decide
  have := m.isLt
  omega

theorem witness_ErrorCommitsNothing : (at3 3 3 0).err = false ∧ ∃ t, exec .modmul (at3 3 3 0) = .next t ∧ t.err = true :=
  ⟨rfl, ⟨_, rfl, by decide⟩⟩

theorem witness_UnfinishedStepIsInvisible : ((searching 8 0#32 [200]).issue 7#32).busy = true ∧
    ∃ t, exec .candprime ((searching 8 0#32 [200]).issue 7#32) = .next t ∧ t.busy = true := ⟨rfl, ⟨_, rfl, by decide⟩⟩

/-- ENCRYPT, which writes CT[0..1] and no byte beyond. -/
theorem witness_CommandWritesOnlyItsTargets : hi.Inv ∧ (∃ t, exec .encrypt hi = .next t) ∧
    mayWrite .encrypt hi 0x10000F ∧ ¬mayWrite .encrypt hi 0x100010 :=
  ⟨hi_inv, ⟨_, rfl⟩, .inl ⟨rfl, by unfold inCiphertext; decide⟩, by
    rintro (⟨-, h⟩ | ⟨h, -⟩)
    · exact absurd h (by unfold inCiphertext; decide)
    · cases h⟩

theorem witness_IterCapBoundsEveryCommand : ((searching 8 1#32 [200]).issue 7#32).Inv ∧
    ((searching 8 1#32 [200]).issue 7#32).env.events = [] ∧ ((searching 8 1#32 [200]).issue 7#32).busy = true ∧
    ((searching 8 1#32 [200]).issue 7#32).iterCap ≠ 0#32 := ⟨(searching_inv _ _ _).issue _, rfl, rfl, by decide⟩

theorem witness_StepKeepsInvariant : (hi.issue 0x0000000C#32).Inv ∧ ∃ t, step (hi.issue 0x0000000C#32) = .next t :=
  ⟨hi_inv.issue _, ⟨_, rfl⟩⟩

theorem witness_WriteWhileIdle : State.reset.eng = .idle ∧ (0x001000#24).toNat % 4 = 0 ∧
    (State.reset.withEvents [writeEvent 0x001000 5#32]).env.events = .access (.write 0x001000#24 4 5#32) :: [] :=
  ⟨rfl, by decide, rfl⟩

/-- Idle and Busy. -/
theorem witness_RdbigNamesValue :
    ((at3 (-367) 0 0).withEvents (HostLine.expand Config.reference (.rdBig .opa "x") ++ [])).Inv ∧
    (((at3 (-367) 0 0).issue 3#32).withEvents (HostLine.expand Config.reference (.rdBig .opa "x") ++ [])).Inv :=
  ⟨(at3_inv _ _ _).withEvents _, ((at3_inv _ _ _).issue _).withEvents _⟩

theorem witness_ResetHasInvariant : (Params.mk 256 1024).wf = true := by decide

end Sys2Proof.Tests
end

/-!
PROOFS. The scope of the model: a reset establishes the invariant, every step keeps it, and WRBIG's bus writes leave its value
in the register.
-/
namespace Sys2Proof.Machine

/-! ## The invariant after a reset -/

/-- Settles O55: a reset state has zero registers of the build's width, an empty memory, no error and an Idle engine. -/
theorem resetHasInvariant : Obligations.ResetHasInvariant :=
  ⟨rfl, resetOf_inv (by decide) _, fun _ e hp => resetOf_inv hp e⟩

theorem State.Inv.hardReset {s : State} (h : s.Inv) : s.hardReset.Inv := resetOf_inv h.cfg_wf s.env

/-! ## The invariant along the engine's steps -/

theorem State.Inv.busyOk_of_eng {s : State} (h : s.Inv) {cmd : Word} {p : Prog} (he : s.eng = .busy cmd p) : busyOk s cmd p := by
  have := h.engine
  rwa [engineOk, he] at this

theorem State.Inv.err_of_busy {s : State} (h : s.Inv) {cmd : Word} {p : Prog} (he : s.eng = .busy cmd p) : s.err = false :=
  (h.busyOk_of_eng he).2.1

theorem State.Inv.rej_lt_iterCap {s : State} (h : s.Inv) {cmd : Word} {p : Prog} (he : s.eng = .busy cmd p)
    (hc : s.iterCap ≠ 0#32) : p.rej < s.iterCap.toNat := by
  obtain ⟨-, -, -, -, -, -, hrej, -⟩ := h.busyOk_of_eng he
  exact hrej hc

theorem State.prog_of_busy {s : State} {cmd : Word} {p : Prog} (he : s.eng = .busy cmd p) : s.prog = p := by
  simp [State.prog, he]

theorem State.runCmd_of_busy {s : State} {cmd : Word} {p : Prog} (he : s.eng = .busy cmd p) : s.runCmd = cmd := by
  simp [State.runCmd, he]

/-- A running command may go on with a count below a nonzero ITER_CAP (R190), in a phase it can be in (R212). -/
theorem State.Inv.goOn {s : State} (h : s.Inv) {cmd : Word} {p : Prog} (he : s.eng = .busy cmd p) {phase : Phase} {rej : Nat}
    (hrej : s.iterCap ≠ 0#32 → rej < s.iterCap.toNat) (hphase : Machine.phaseOk s cmd phase) : (s.goOn phase rej).Inv where
  cfg_wf := h.cfg_wf
  regs_length := h.regs_length
  mem_wf := h.mem_wf
  mem_inside := h.mem_inside
  ct_marks := h.ct_marks
  error_pair := h.error_pair
  err_code := h.err_code
  engine := by
    obtain ⟨hdone, herr, hcode, hinfo, hlast, -, -, -⟩ := h.busyOk_of_eng he
    rw [engineOk, State.goOn_eng, State.runCmd_of_busy he]
    exact ⟨hdone, herr, hcode, hinfo, hlast, h.pending_nil, hrej, phaseOk_congr rfl rfl rfl hphase⟩

/-- The count with which a command goes on is below a nonzero ITER_CAP: a rejection that reaches it raises an error, and a
change of phase leaves the count (R190). -/
theorem answerOk_again_rej {i : Instr} {s : State} (h : s.Inv) {cmd : Word} {p : Prog} (he : s.eng = .busy cmd p)
    {phase : Phase} {rej : Nat} (ha : answerOk i s (.again phase rej)) : s.iterCap ≠ 0#32 → rej < s.iterCap.toNat := by
  obtain ⟨-, -, ⟨-, hlt⟩ | ⟨hrej, -⟩⟩ := ha
  · exact hlt
  · rw [hrej, State.prog_of_busy he]
    exact h.rej_lt_iterCap he

/-- Whatever a running command's answer is, it keeps the invariant: the writes have the command's own targets (R114), the
error is one of R251, or the command goes on in a phase it can be in (R212). -/
theorem State.Inv.finish {s : State} (h : s.Inv) {cmd : Word} {p : Prog} (he : s.eng = .busy cmd p) {i : Instr} {ans : Answer}
    (ha : answerOk i s ans) (hphase : ∀ phase rej, ans = .again phase rej → Machine.phaseOk s cmd phase) :
    (s.finish ans).Inv := by
  cases ans with
  | ret ws =>
    rw [State.finish, h.pending_nil, List.nil_append]
    exact h.complete (h.err_of_busy he) ha
  | raise e info => exact h.raise ha.1 ha.2
  | again phase rej => exact h.goOn he (answerOk_again_rej h he ha) (hphase phase rej rfl)

theorem answerOk_withEnv {i : Instr} {s : State} {ans : Answer} (h : answerOk i s ans) (e : Env) :
    answerOk i (s.withEnv e) ans := by
  cases ans <;> exact h

/-- What `exec_next` says of a running command's step, with the phase it goes on in: KEYGEN's is one R212 allows, and every
other command stays in its first. -/
theorem exec_next_phaseOk {i : Instr} {s t : State} (h : s.Inv) {cmd : Word} {p : Prog} (he : s.eng = .busy cmd p)
    (hd : decode cmd = .ok i) (hx : exec i s = .next t) :
    ∃ e ans, t = (s.withEnv e).finish ans ∧ answerOk i s ans ∧
      ∀ phase rej, ans = .again phase rej → phaseOk s cmd phase := by
  by_cases hk : i = .keygen
  · subst hk
    injection hx with hx
    exact ⟨_, _, hx.symm, (keygenStep_ok s).1, fun _ _ ha => keygenStep_phaseOk h he hd ha⟩
  · obtain ⟨e, ans, ht, -, ha⟩ := exec_next hx
    refine ⟨e, ans, ht, ha, ?_⟩
    rintro phase rej rfl
    obtain ⟨-, hstart, -⟩ := ha
    rw [hstart hk]
    trivial

theorem exec_keeps_inv {i : Instr} {s t : State} (h : s.Inv) {cmd : Word} {p : Prog} (he : s.eng = .busy cmd p)
    (hd : decode cmd = .ok i) (hx : exec i s = .next t) : t.Inv := by
  obtain ⟨e, ans, rfl, ha, hphase⟩ := exec_next_phaseOk h he hd hx
  exact (h.withEnv e).finish he (answerOk_withEnv ha e) fun phase rej hans =>
    phaseOk_congr rfl rfl rfl (hphase phase rej hans)

theorem State.Inv.illegal {s : State} (h : s.Inv) (why : Illegal) : (s.illegal why).Inv := by
  cases why with
  | unassigned => exact h.raise (by decide) (by decide)
  | reservedBits => exact h.raise (by decide) (by decide)

/-- A turn of the engine keeps the invariant: Idle it does nothing (R270), Busy it runs the decoded command or completes the
illegal one (R111, R115). -/
theorem engineStep_keeps_inv {s t : State} (h : s.Inv) (hs : engineStep s = .next t) : t.Inv := by
  unfold engineStep at hs
  split at hs
  · injection hs with hs
    exact hs ▸ h
  · next cmd p he =>
    split at hs
    · next i hd => exact exec_keeps_inv h he hd hs
    · next why _ =>
      injection hs with hs
      exact hs ▸ h.illegal why

/-! ## The invariant along the host's steps -/

theorem legalAccess_iff {addr : Addr} {size : Nat} : legalAccess addr size = true ↔ size = 4 ∧ addr.toNat % 4 = 0 := by
  simp [legalAccess]

/-- A bus access keeps the invariant: a read changes nothing (R88), an illegal access neither (R81), a legal write is a store
at an aligned address. -/
theorem busAccess_keeps_inv {s t : State} (h : s.Inv) {a : Access} (hs : busAccess s a = .next t) : t.Inv := by
  cases a with
  | read addr size =>
    simp only [busAccess] at hs
    split at hs
    · split at hs
      · cases hs
      · injection hs with hs
        exact hs ▸ h.respond _
    · injection hs with hs
      exact hs ▸ h.respond _
  | write addr size v =>
    simp only [busAccess] at hs
    split at hs
    · next hl =>
      injection hs with hs
      exact hs ▸ (h.store (legalAccess_iff.1 hl).2 v).respond _
    · injection hs with hs
      exact hs ▸ h.respond _

theorem pollStatus_keeps_inv {s t : State} (h : s.Inv) (hs : pollStatus s = .next t) : t.Inv := by
  simp only [pollStatus] at hs
  split at hs
  · injection hs with hs
    exact hs ▸ (h.respond _).withEvents _
  · injection hs with hs
    exact hs ▸ h.respond _

/-- Settles O54, by who moves: the engine, the host with an access or a turn of its polling loop, or the reset input. -/
theorem stepKeepsInvariant : Obligations.StepKeepsInvariant := by
  intro s t h hs
  unfold step at hs
  split at hs
  · exact engineStep_keeps_inv h hs
  · exact engineStep_keeps_inv (h.withEvents _) hs
  · exact busAccess_keeps_inv (h.withEvents _) hs
  · exact pollStatus_keeps_inv (h.withEvents _) hs
  · injection hs with hs
    exact hs ▸ (h.withEvents _).hardReset

/-! ## WRBIG -/

/-- `REG.w[j]` is an aligned address of the 24-bit bus (R48, R80). -/
theorem bigWordAddr_legal (r : BigReg) {j : Nat} (hj : j < 256) : bigWordAddr r j % 4 = 0 ∧ bigWordAddr r j < 2 ^ 24 := by
  cases r <;> simp only [bigWordAddr, bigBase] <;> omega

/-- One bus write of WRBIG: the word is replaced (R48), a key register is marked (R44), and the write is acknowledged. -/
theorem step_writeBigWord {s : State} (h : s.Inv) (hi : s.eng = .idle) {r : BigReg}
    (hr : r ∈ [BigReg.opa, .opb, .opm, .keyE, .keyD, .keyN]) {j : Nat} (hj : j < s.cfg.nw) {w : Word} {es : List Event}
    (hev : s.env.events = writeEvent (bigWordAddr r j) w :: es) :
    step s = .next ((((s.withEvents es).setBigWord r j w).markKey r).respond .ack) := by
  have hnw := Params.nw_pos h.cfg_wf
  obtain ⟨h4, hlt⟩ := bigWordAddr_legal r (j := j) (by omega)
  rw [step_write s _ w es hev h4 hlt]
  exact congrArg (fun u : State => Host.Outcome.next (u.respond .ack)) (store_big (s.withEvents es) r j w h.cfg_wf hi hj hr)

/-- The words `ws` written from word `pre.length` on take the place of the words that stood there, one bus write each;
the other registers and the memory stay. -/
theorem run_writeBigEvents {r : BigReg} (hr : r ∈ [BigReg.opa, .opb, .opm, .keyE, .keyD, .keyN]) {es : List Event}
    (ws : List Word) : ∀ {s : State} {pre old : List Word}, s.Inv → s.eng = .idle → s.big r = pre ++ old →
    old.length = ws.length → s.env.events = writeBigEvents r pre.length ws ++ es →
    ∃ t : State, Host.Core.run core ws.length s = .next t ∧ t.big r = pre ++ ws ∧ t.env.events = es ∧ t.eng = .idle ∧
      (∀ q, q ≠ r → t.big q = s.big q) ∧ SameMemory s t := by
  induction ws with
  | nil =>
    intro s pre old _ hi hb hl hev
    rw [List.length_nil, List.length_eq_zero_iff] at hl
    subst hl
    exact ⟨s, run_zero s, hb, hev, hi, fun _ _ => rfl, SameMemory.rfl' s⟩
  | cons w ws ih =>
    intro s pre old h hi hb hl hev
    obtain ⟨o, old, rfl⟩ := List.exists_cons_of_length_eq_add_one hl
    have hj : pre.length < s.cfg.nw := by
      rw [← h.regs_length r, hb, List.length_append, List.length_cons]
      omega
    have hstep := step_writeBigWord h hi hr hj hev
    set u := (((s.withEvents (writeBigEvents r (pre.length + 1) ws ++ es)).setBigWord r pre.length w).markKey r).respond .ack
    have hu : ∀ q, u.big q = if q = r then (s.big r).set pre.length w else s.big q := fun q => State.big_setBig s r q _
    have hur : u.big r = (pre ++ [w]) ++ old := by simp [hu, hb]
    obtain ⟨t, hrun, hbig, hes, hidle, hother, hmem⟩ :=
      ih (stepKeepsInvariant s u h hstep) hi hur (by simpa using hl) (by simp [u])
    refine ⟨t, (run_next hstep).trans hrun, by simpa using hbig, hes, hidle, fun q hq => ?_, hmem⟩
    rw [hother q hq, hu, if_neg hq]

/-- Settles O19: the NW writes replace every word of the register, so it holds `enc_W v`, whose value is v. -/
theorem wrbigWritesValue : Obligations.WrbigWritesValue := by
  intro s r v es h hi hr hv hev
  have hlen : (s.big r).length = (enc s.cfg.nw v).length := by rw [h.regs_length r, length_enc]
  obtain ⟨t, hrun, hbig, hes, hidle, hother, hmem⟩ :=
    run_writeBigEvents hr (enc s.cfg.nw v) h hi (pre := []) rfl hlen hev
  have hnw := Params.nw_pos h.cfg_wf
  have hx : t.x r = v := by
    rw [State.x, hbig]
    exact sint_enc _ v (by omega) hv
  rw [length_enc] at hrun
  exact ⟨t, hrun, hx, hes, hidle, hother, hmem⟩

end Sys2Proof.Machine

/-!
PROOFS. The registers on the bus (spec/10_state.md): reserved space, control registers, words of the big registers with
KEYVALID marking, RDBIG's reads; the ranges of the draws; and what a command's engine step may write (R114).
-/
namespace Sys2Proof.Machine

/-! ## Stores by engine state -/

/-- Idle, a store does what its location says (R137). -/
theorem State.store_of_idle {s : State} (hi : s.eng = .idle) (a : Nat) (v : Word) :
    s.store a v = s.writeLoc v (locate s.cfg a) := by
  simp [State.store, (State.not_busy_iff s).2 hi]

/-! ## Reserved addresses -/

theorem controlLoc_reserved {n : Nat} (h : 10 ≤ n) : controlLoc n = .reserved := by
  obtain ⟨k, rfl⟩ := Nat.exists_eq_add_of_le' h
  rfl

theorem locate_reserved_control (p : Params) {a : Nat} (h : 0x000028 ≤ a ∧ a < 0x000400) : locate p a = .reserved := by
  rw [locate, if_pos h.2, controlLoc_reserved (by omega)]

/-- The word slots of a big register's window at or beyond NW (R32). -/
theorem locate_reserved_bigSlot (p : Params) {a : Nat} {r : BigReg} (h : bigBase r + 4 * p.nw ≤ a ∧ a < bigBase r + 0x400) :
    locate p a = .reserved := by
  have hbase : bigBase r % 0x400 = 0 ∧ 0x400 ≤ bigBase r ∧ bigBase r + 0x400 ≤ 0x2C00 := by cases r <;> decide
  have hslot : ¬ a % 0x400 / 4 < p.nw := by omega
  rw [locate, if_neg (by omega), if_pos (by omega)]
  exact if_neg hslot

theorem locate_reserved_aboveBig (p : Params) {a : Nat} (h : 0x002C00 ≤ a ∧ a < 0x004000) : locate p a = .reserved := by
  rw [locate, if_neg (by omega), if_neg (by omega), if_pos h.2]

/-- The MSG window beyond MAXLEN, and the gap above it (R30, R32). -/
theorem locate_reserved_aboveMsg (p : Params) {a : Nat} (h : 0x004000 + p.maxLen ≤ a ∧ a < 0x100000) :
    locate p a = .reserved := by
  rw [locate, if_neg (by omega), if_neg (by omega), if_neg (by omega)]
  split
  · rw [msgLoc, if_neg (by omega)]
  · exact if_pos h.2

/-- The CT window beyond MAXLEN · NW words, and all above it (R30, R32). -/
theorem locate_reserved_aboveCt (p : Params) {a : Nat} (h : 0x100000 + 4 * p.maxLen * p.nw ≤ a) : locate p a = .reserved := by
  rw [Nat.mul_assoc] at h
  rw [locate, if_neg (by omega), if_neg (by omega), if_neg (by omega), if_neg (by omega), if_neg (by omega)]
  split
  · rw [ctLoc, if_neg (by omega)]
  · rfl

/-- A store to a reserved address: nothing while Idle (R32), WWB while Busy (R135). -/
theorem State.store_reserved {s : State} {a : Nat} (h : locate s.cfg a = .reserved) (v : Word) :
    s.store a v = if s.busy then { s with wwb := true } else s := by
  simp [State.store, h, State.setWwb, State.writeLoc]

/-- Settles O14, by the five reserved ranges of the address map. -/
theorem reservedAddresses : Obligations.ReservedAddresses := by
  intro s a v _ _ _ ha
  have hloc : locate s.cfg a = .reserved := by
    rcases ha with h | ⟨r, h⟩ | h | h | h
    · exact locate_reserved_control _ h
    · exact locate_reserved_bigSlot _ h
    · exact locate_reserved_aboveBig _ h
    · exact locate_reserved_aboveMsg _ h
    · exact locate_reserved_aboveCt _ h
  exact ⟨by rw [hloc]; rfl, State.store_reserved hloc v⟩

/-! ## Words of the big registers -/

/-- A load of `REG.w[j]` answers word j (R48). -/
theorem State.readLoc_bigWord {s : State} (hc : s.cfg.wf = true) (r : BigReg) {j : Nat} (hj : j < s.cfg.nw) :
    s.readLoc (locate s.cfg (bigBase r + 4 * j)) = .ok (s.bigWord r j) := by
  rw [locate_big _ r j hc hj]
  rfl

/-- The pattern of a register's words is that of their signed value (R11, R12). -/
theorem sint_emod (ws : List Word) : sint ws % 2 ^ (32 * ws.length) = uval ws := by
  have hlt : (uval ws : Int) < 2 ^ (32 * ws.length) := mod_cast uval_lt ws
  unfold sint
  split
  · exact Int.emod_eq_of_lt (Int.natCast_nonneg _) hlt
  · rw [Int.sub_emod_right, Int.emod_eq_of_lt (Int.natCast_nonneg _) hlt]

/-- Word j of a register is bits [32j+31:32j] of the pattern of its value (R48). -/
theorem State.Inv.bigWord_toNat {s : State} (h : s.Inv) (r : BigReg) (j : Nat) :
    ((s.bigWord r j).toNat : Int) = s.x r % 2 ^ s.cfg.width / 2 ^ (32 * j) % 2 ^ 32 := by
  have hpattern : s.x r % 2 ^ s.cfg.width = uval (s.big r) := by
    rw [Params.width, ← h.regs_length r]
    exact sint_emod _
  rw [hpattern, State.bigWord, getD_eq_uval]
  push_cast
  rfl

theorem State.Inv.bigWord_setBigWord {s : State} (h : s.Inv) (r : BigReg) {j : Nat} (hj : j < s.cfg.nw) (v : Word) (k : Nat) :
    (s.setBigWord r j v).bigWord r k = if k = j then v else s.bigWord r k := by
  rw [State.bigWord, State.setBigWord, State.big_setBig, if_pos rfl, getD_set_word _ _ _ _ (by rwa [h.regs_length r])]
  rfl

/-- Settles O15: a word is its bits of the pattern, and a host write replaces the one word of the one register. -/
theorem bigRegisterWords : Obligations.BigRegisterWords := by
  intro s r j h hj
  refine ⟨⟨_, State.readLoc_bigWord h.cfg_wf r hj, h.bigWord_toNat r j⟩, fun v hi hr => ?_⟩
  rw [store_big s r j v h.cfg_wf hi hj hr]
  refine ⟨fun k hk => ?_, fun q hq => BigRegs.get_set_other _ _ hq, rfl⟩
  have hread : ((s.setBigWord r j v).markKey r).readLoc
      (locate ((s.setBigWord r j v).markKey r).cfg (bigBase r + 4 * k)) = .ok ((s.setBigWord r j v).bigWord r k) :=
    State.readLoc_bigWord (s := (s.setBigWord r j v).markKey r) h.cfg_wf r hk
  rw [hread, State.readLoc_bigWord h.cfg_wf r hk, h.bigWord_setBigWord r hj v k]
  exact apply_ite _ _ _ _

/-- Settles O16: a store to a register word adds the register's own bit of KEYVALID, and an operand register has none. -/
theorem keyWriteSetsKeyValid : Obligations.KeyWriteSetsKeyValid := by
  intro s j v hc hi hj
  have hmark : ∀ r, r ∈ [BigReg.opa, .opb, .opm, .keyE, .keyD, .keyN] →
      (s.store (bigBase r + 4 * j) v).keyValid = s.keyValid ||| keyBit r := fun r hr => by
    rw [store_big s r j v hc hi hj hr]
    rfl
  have hnone : ∀ r, r ∈ [BigReg.opa, .opb, .opm] →
      keyBit r = 0#3 ∧ r ∈ [BigReg.opa, .opb, .opm, .keyE, .keyD, .keyN] := by decide
  refine ⟨hmark .keyE (by decide), hmark .keyD (by decide), hmark .keyN (by decide), fun r hr => ?_⟩
  obtain ⟨hbit, hmem⟩ := hnone r hr
  rw [hmark r hmem, hbit, BitVec.or_zero]

/-! ## What a command may write (R114) -/

/-- What R114 and D50 allow the step from `s` to `t` of command `i` to change. -/
def WritesOnlyTargets (i : Instr) (s t : State) : Prop :=
  SameBut (resultRegs i) s t ∧ (i ≠ .keygen → t.keyValid = s.keyValid) ∧
    ∀ a, ¬ mayWrite i s a → t.mem.read a = s.mem.read a

theorem WritesOnlyTargets.of_unchanged {i : Instr} {s t : State} (hbut : SameBut [] s t) (hkey : t.keyValid = s.keyValid)
    (hmem : SameMemory s t) : WritesOnlyTargets i s t :=
  ⟨hbut.mono (by simp), fun _ => hkey, fun a _ => hmem a⟩

/-- Draws taken before the writes do not show on the host's side. -/
theorem SameBut.of_withEnv {rs : List BigReg} {s t : State} {e : Env} (he : SameHost s.env e)
    (h : SameBut rs (s.withEnv e) t) : SameBut rs s t := by
  obtain ⟨hbig, hcfg, hirq, hlcm, hwwb, hcmd, hcap, hlen, hevents, hresponses⟩ := h
  exact ⟨hbig, hcfg, hirq, hlcm, hwwb, hcmd, hcap, hlen, hevents.trans he.1, hresponses.trans he.2⟩

/-- The bytes of CT[k] lie in CT[0..L-1] for k < L (R47, R86). -/
theorem inCiphertext_of_element {s : State} {k a : Nat} (hk : k < s.msgLen.toNat)
    (ha : ctWordAddr s.cfg k 0 ≤ a ∧ a < ctWordAddr s.cfg k 0 + 4 * s.cfg.nw) : inCiphertext s a := by
  have hle : (k + 1) * s.cfg.nw ≤ s.msgLen.toNat * s.cfg.nw := Nat.mul_le_mul_right _ hk
  rw [Nat.succ_mul] at hle
  simp only [inCiphertext, ctWordAddr] at ha ⊢
  omega

/-- The bytes a command's own pending write reaches are bytes it may write. -/
theorem mayWrite_of_reaches {i : Instr} {s : State} {w : PendingWrite} {a : Nat} (hw : targetOk i s w)
    (ha : w.reaches s.cfg a) : mayWrite i s a := by
  cases w with
  | big r v => exact ha.elim
  | keyValid bits => exact ha.elim
  | ct k v => exact .inl ⟨hw.1, inCiphertext_of_element hw.2.1 ha⟩
  | msg k b =>
    obtain ⟨hi, hk, -⟩ := hw
    rw [PendingWrite.reaches, msgAddr] at ha
    exact .inr ⟨hi, by simp only [inMessage, msgAddr]; omega⟩

/-- Committing writes to a command's own targets changes nothing else. -/
theorem complete_writesOnlyTargets {i : Instr} {s : State} {ws : List PendingWrite} (hw : ∀ w ∈ ws, targetOk i s w) :
    WritesOnlyTargets i s (s.complete ws) := by
  refine ⟨complete_sameBut s ws _ fun r hr w hm => ?_, fun hi => ?_, fun a ha => ?_⟩
  · have hok := hw w hm
    cases w with
    | big q v => exact decide_eq_false fun hq => hr (hq ▸ hok)
    | keyValid bits => rfl
    | ct k v => rfl
    | msg k b => rfl
  · refine commit_keyValid_other ws s fun w hm bits hbits => ?_
    subst hbits
    exact hi (hw _ hm)
  · exact commit_read ws s fun w hm hreach => ha (mayWrite_of_reaches (hw w hm) hreach)

/-- Settles O51, by what the step answers: it commits writes to its own targets, raises an error, or goes on. -/
theorem commandWritesOnlyItsTargets : Obligations.CommandWritesOnlyItsTargets := by
  intro i s t h hx
  obtain ⟨e, ans, rfl, he, ha⟩ := exec_next hx
  cases ans with
  | ret ws =>
    rw [State.finish, State.prog_withEnv, h.pending_nil, List.nil_append]
    obtain ⟨hbut, hkey, hmem⟩ := complete_writesOnlyTargets (answerOk_withEnv ha e)
    exact ⟨hbut.of_withEnv he, hkey, hmem⟩
  | raise k info =>
    obtain ⟨-, -, -, -, -, hbut, hkey, hmem⟩ := raise_withEnv_failedWith he k info
    exact WritesOnlyTargets.of_unchanged hbut hkey hmem
  | again phase rej =>
    obtain ⟨-, -, -, -, -, hbut, hkey, hmem⟩ := goOn_withEnv_goesOn he phase rej
    exact WritesOnlyTargets.of_unchanged hbut hkey hmem

/-! ## RDBIG -/

theorem State.readLoc_withEvents (s : State) (es : List Event) (l : Loc) : (s.withEvents es).readLoc l = s.readLoc l := by
  cases l <;> rfl

/-- One bus read of a location that holds a value: the state stays, and the word is answered (R88, R138). -/
theorem step_read {s : State} {a : Nat} {w : Word} {es : List Event} (hev : s.env.events = readEvent a :: es) (h4 : a % 4 = 0)
    (hlt : a < 2 ^ 24) (hr : s.readLoc (locate s.cfg a) = .ok w) :
    step s = .next ((s.withEvents es).respond (.data w)) := by
  have ha : (BitVec.ofNat 24 a).toNat = a := by rw [BitVec.toNat_ofNat, Nat.mod_eq_of_lt hlt]
  have hlegal : legalAccess (BitVec.ofNat 24 a) 4 = true := legalAccess_iff.2 ⟨rfl, by rwa [ha]⟩
  rw [step, hev]
  simp only [readEvent, busAccess, hlegal, ha, State.readLoc_withEvents, State.withEvents_cfg, hr, if_true]

/-- Reads of the words `js` of a register change nothing, and answer those words in order. -/
theorem run_readBigWords {r : BigReg} {es : List Event} (js : List Nat) : ∀ {s : State}, s.cfg.wf = true →
    (∀ j ∈ js, j < s.cfg.nw) → s.env.events = (js.map fun j => readEvent (bigWordAddr r j)) ++ es →
    Host.Core.run core js.length s = .next { s with env := { s.env with
      events := es, responses := (js.map fun j => Response.data (s.bigWord r j)).reverse ++ s.env.responses } } := by
  induction js with
  | nil =>
    intro s _ _ hev
    rw [List.map_nil, List.nil_append] at hev
    subst hev
    exact run_zero s
  | cons j js ih =>
    intro s hc hj hev
    have hjn : j < s.cfg.nw := hj j List.mem_cons_self
    obtain ⟨h4, hlt⟩ := bigWordAddr_legal r (j := j) (by have := Params.nw_pos hc; omega)
    have hstep := step_read (es := (js.map fun j => readEvent (bigWordAddr r j)) ++ es) hev h4 hlt
      (State.readLoc_bigWord hc r hjn)
    have hrest := ih (s := (s.withEvents ((js.map fun j => readEvent (bigWordAddr r j)) ++ es)).respond
      (.data (s.bigWord r j))) hc (fun k hk => hj k (List.mem_cons_of_mem _ hk)) rfl
    refine (run_next hstep).trans (hrest.trans ?_)
    rw [List.map_cons, List.reverse_cons, List.append_assoc]
    rfl

theorem State.Inv.map_bigWord {s : State} (h : s.Inv) (r : BigReg) : (List.range s.cfg.nw).map (s.bigWord r) = s.big r := by
  rw [← h.regs_length r]
  refine List.ext_getElem (by simp) fun j _ hj => ?_
  simp [State.bigWord, hj]

/-- Settles O58: the reads answer the register's words in order, and the words' signed value is `x[REG]`. -/
theorem rdbigNamesValue : Obligations.RdbigNamesValue := by
  intro s r name es h hev
  refine ⟨(s.big r).map .data, ?_, ?_⟩
  · have htake := takeData_data (s.big r) []
    rw [h.regs_length r, List.append_nil] at htake
    simp [HostLine.bindings, htake, State.x]
  · have hrun := run_readBigWords (List.range s.cfg.nw) h.cfg_wf (fun _ => List.mem_range.1) hev
    rw [List.length_range] at hrun
    rw [hrun, ← h.map_bigWord r, List.map_map]
    rfl

/-! ## Control registers -/

/-- In a legal build MAXLEN and NW fit PARAM's fields (R7, R8, R34). -/
theorem paramWord_toNat {p : Params} (h : p.wf = true) : (paramWord p).toNat = p.maxLen * 2 ^ 16 + p.nw := by
  obtain ⟨-, -, -, -, hlen, -⟩ := (Params.wf_iff p).1 h
  obtain ⟨-, hnw⟩ := Params.nw_pos h
  rw [paramWord, BitVec.toNat_append, BitVec.toNat_ofNat, BitVec.toNat_ofNat, Nat.mod_eq_of_lt (by omega : p.maxLen < 2 ^ 16),
    Nat.mod_eq_of_lt (by omega : p.nw < 2 ^ 16), ← Nat.shiftLeft_add_eq_or_of_lt (by omega), Nat.shiftLeft_eq]

/-- Settles O11: MAXLEN and NW fit the halves of the word in a legal build (R7, R8). -/
theorem idAndParamRead : Obligations.IdAndParamRead := by
  intro s hc
  obtain ⟨-, -, -, -, hlen, -⟩ := (Params.wf_iff _).1 hc
  obtain ⟨-, hnw⟩ := Params.nw_pos hc
  have hw := paramWord_toNat hc
  refine ⟨rfl, paramWord s.cfg, rfl, ?_, ?_⟩
  · rw [BitVec.extractLsb'_toNat, hw, Nat.shiftRight_zero]
    omega
  · rw [BitVec.extractLsb'_toNat, hw, Nat.shiftRight_eq_div_pow]
    omega

/-- The fields of CTRL are bits 0 and 1 (R35). -/
theorem State.ctrlWord_eq (s : State) : s.ctrlWord = BitVec.ofNat 32 (s.irqEn.toNat + 2 * s.lcmTrue.toNat) := by
  unfold State.ctrlWord
  cases s.irqEn <;> cases s.lcmTrue <;> rfl

/-- The fields of STATUS are bits 0 to 3 (R36). -/
theorem State.statusWord_eq (s : State) :
    s.statusWord = BitVec.ofNat 32 (s.busy.toNat + 2 * s.done.toNat + 4 * s.err.toNat + 8 * s.wwb.toNat) := by
  unfold State.statusWord
  cases s.busy <;> cases s.done <;> cases s.err <;> cases s.wwb <;> rfl

/-- The field of KEYVALID is bits 0 to 2 (R42). -/
theorem State.keyValidWord_eq (s : State) : s.keyValidWord = BitVec.ofNat 32 s.keyValid.toNat := by
  rw [State.keyValidWord, BitVec.ofNat_toNat, BitVec.setWidth_eq_append (by decide)]
  rfl

/-- Settles O12: each register's word holds its fields in their bits, and 0 above them. -/
theorem controlRegisterReads : Obligations.ControlRegisterReads := by
  intro s
  refine ⟨congrArg _ s.ctrlWord_eq, congrArg _ s.statusWord_eq, rfl, ?_, ?_, rfl, rfl, congrArg _ s.keyValidWord_eq⟩
  · exact congrArg _ (BitVec.ofNat_toNat _ _).symm
  · exact congrArg _ (BitVec.ofNat_toNat _ _).symm

/-- Settles O13: an Idle store does what its location says, and the RES registers are not the host's to write (R45). -/
theorem controlRegisterWrites : Obligations.ControlRegisterWrites := by
  intro s v hi
  simp only [State.store_of_idle hi]
  refine ⟨rfl, rfl, rfl, rfl, rfl, rfl, rfl, rfl, rfl, fun r j hr hj hc => ?_⟩
  have hres : ∀ r ∈ [BigReg.res0, .res1, .res2, .res3], hostWritable r = false := by decide
  simp [locate_big _ r j hc hj, State.writeLoc, hres r hr]

/-! ## Draws -/

/-- A draw that is fixed from outside at a value of its range has that value, and uses that input up (R50, log 2). -/
theorem draw_fixed (e : Env) {lo hi v : Nat} (h : lo ≤ v ∧ v ≤ hi) :
    ({ e with draws := v :: e.draws } : Env).draw lo hi = (v, { e with drawCount := e.drawCount + 1 }) :=
  congrArg (·, _) (drawIn_self h)

/-- Settles O23: each primitive is a draw in its range. -/
theorem drawsLieInRange : Obligations.DrawsLieInRange := by
  refine ⟨fun e b hb => ?_, fun e lo hi h => drawIn_range h _, drawPercent_range,
    fun e lo hi v h h' => draw_fixed e ⟨h, h'⟩, fun e b v _ h h' => draw_fixed e ⟨h, h'⟩, fun e v h => draw_fixed e ⟨Nat.zero_le v, h⟩⟩
  obtain ⟨hlo, hhi⟩ := drawBits_range e hb
  exact ⟨hlo, Nat.le_sub_one_of_lt hhi⟩

end Sys2Proof.Machine

/-!
PROOFS. The memory of the block on its bus (spec/20_memory.md): accesses as steps, the loop POLL, the packing of MSG, the layout
of CT, and engine steps the host cannot see (R93).
-/
namespace Sys2Proof.Machine

/-! ## Accesses as steps -/

/-- The 32-bit read of an address, as R117's line makes it. -/
theorem readEvent_toNat (addr : Addr) : readEvent addr.toNat = .access (.read addr 4) := by
  rw [readEvent, BitVec.ofNat_toNat, BitVec.setWidth_eq]

/-- The 32-bit write of an address, as R117's line makes it. -/
theorem writeEvent_toNat (addr : Addr) (v : Word) : writeEvent addr.toNat v = .access (.write addr 4 v) := by
  rw [writeEvent, BitVec.ofNat_toNat, BitVec.setWidth_eq]

/-- The host's access is the whole step; its event is used up (R92). -/
theorem step_access {s : State} {a : Access} {es : List Event} (hev : s.env.events = .access a :: es) :
    step s = busAccess (s.withEvents es) a := by
  rw [step, hev]

/-- A legal read of a location without a value is the machine's fault (U9). -/
theorem step_read_fault {s : State} {addr : Addr} {f : Fault} {es : List Event}
    (hev : s.env.events = .access (.read addr 4) :: es) (h4 : addr.toNat % 4 = 0)
    (hr : s.readLoc (locate s.cfg addr.toNat) = .error f) : step s = .fault f := by
  have hlegal : legalAccess addr 4 = true := legalAccess_iff.2 ⟨rfl, h4⟩
  rw [step_access hev]
  simp only [busAccess, hlegal, State.readLoc_withEvents, State.withEvents_cfg, hr, if_true]

/-- Settles O8: a load answers a word or stops at an unwritten byte, and the step adds nothing to it but the answer. -/
theorem readsHaveNoSideEffect : Obligations.ReadsHaveNoSideEffect := by
  intro s addr es hc hev h4
  rcases load_cases s addr.toNat hc h4 with ⟨w, hr⟩ | ⟨k, hk, hin, hnone, hr⟩
  · rw [← readEvent_toNat] at hev
    exact .inl ⟨w, hr, step_read hev h4 addr.isLt hr⟩
  · exact .inr ⟨k, hk, hin, hnone, step_read_fault hev h4 hr⟩

theorem legalAccess_eq_false {addr : Addr} {size : Nat} (h : size ≠ 4 ∨ addr.toNat % 4 ≠ 0) :
    legalAccess addr size = false :=
  Bool.eq_false_iff.2 fun hl => h.elim (· (legalAccess_iff.1 hl).1) (· (legalAccess_iff.1 hl).2)

/-- The bus answers an illegal read with an error, and the block stays as it is (R81). -/
theorem busAccess_read_illegal (s : State) {addr : Addr} {size : Nat} (h : size ≠ 4 ∨ addr.toNat % 4 ≠ 0) :
    busAccess s (.read addr size) = .next (s.respond .busError) := by
  simp [busAccess, legalAccess_eq_false h]

/-- The bus answers an illegal write with an error, and the block stays as it is (R81). -/
theorem busAccess_write_illegal (s : State) {addr : Addr} {size : Nat} (v : Word) (h : size ≠ 4 ∨ addr.toNat % 4 ≠ 0) :
    busAccess s (.write addr size v) = .next (s.respond .busError) := by
  simp [busAccess, legalAccess_eq_false h]

/-- Settles O9: an illegal access, read or write, is answered before the block looks at its address. -/
theorem busErrorChangesNothing : Obligations.BusErrorChangesNothing := by
  intro s addr size v es hbad hev
  rcases hev with hev | hev
  · exact (step_access hev).trans (busAccess_read_illegal _ hbad)
  · exact (step_access hev).trans (busAccess_write_illegal _ v hbad)

/-- What a store does takes no account of the events still to come, and leaves them. -/
theorem State.writeLoc_withEvents (s : State) (es : List Event) (v : Word) (l : Loc) :
    (s.withEvents es).writeLoc v l = (s.writeLoc v l).withEvents es := by
  cases l with
  | big r j => cases r <;> rfl
  | _ => rfl

theorem State.writeLoc_env (s : State) (v : Word) (l : Loc) : (s.writeLoc v l).env = s.env := by
  cases l with
  | big r j => cases r <;> rfl
  | _ => rfl

/-- Settles O57: the write's step is the store of its location, which does not touch the block's surroundings. -/
theorem writeWhileIdle : Obligations.WriteWhileIdle := by
  intro s addr v es hi h4 hev
  rw [← writeEvent_toNat] at hev
  rw [step_write s _ v es hev h4 addr.isLt, State.store_of_idle (s := s.withEvents es) hi, State.withEvents_cfg,
    State.writeLoc_withEvents, State.store_of_idle hi, State.respond, State.withEvents, State.writeLoc_env]

/-! ## The loop POLL (R118) -/

/-- STATUS.BUSY is bit 0 (R36). -/
theorem State.statusWord_getLsbD_zero (s : State) : s.statusWord.getLsbD 0 = s.busy := by
  rw [State.statusWord, BitVec.getLsbD_append]
  simp

/-- A turn of POLL answers STATUS, and puts an engine turn and another poll before the other events while Busy (log 4). -/
theorem step_poll {s : State} {es : List Event} (hev : s.env.events = .poll :: es) :
    step s = .next ((s.withEvents (if s.busy then .engine :: .poll :: es else es)).respond (.data s.statusWord)) := by
  rw [step, hev]
  have hbusy : (s.withEvents es).busy = s.busy := rfl
  cases hb : s.busy with
  | true => simp only [pollStatus, hbusy, hb, if_true]; rfl
  | false => simp only [pollStatus, hbusy, hb]; rfl

/-- Settles O10, by the BUSY bit the turn reads. -/
theorem pollReadsStatusUntilIdle : Obligations.PollReadsStatusUntilIdle := by
  intro s es hev
  refine ⟨_, step_poll hev, rfl, fun hb => ⟨?_, if_pos hb⟩, fun hb => ⟨?_, if_neg (by simp [hb])⟩, rfl⟩
  · rw [State.statusWord_getLsbD_zero, hb]
  · rw [State.statusWord_getLsbD_zero, hb]

/-! ## MSG (R46, R85) -/

/-- MSG[i + k] is the k-th byte from MSG[i] on (R46). -/
theorem State.msgByte_add_ok {s : State} {i k : Nat} {b : Byte} :
    s.msgByte (i + k) = .ok b ↔ s.mem.read (msgAddr i + k) = some b := by
  rw [State.msgByte, Memory.fetch_ok, msgAddr, msgAddr, Nat.add_assoc]

/-- An Idle store to a MSG word writes that word of memory (R85, R137). -/
theorem store_msg {s : State} (hc : s.cfg.wf = true) (hi : s.eng = .idle) {w : Nat} (hw : 4 * w < s.cfg.maxLen) (v : Word) :
    s.store (0x004000 + 4 * w) v = { s with mem := s.mem.write32 (msgAddr (4 * w)) v } := by
  rw [State.store_of_idle hi, locate_msg _ w hc hw]
  rfl

/-- Settles O17: a MSG word is its four bytes in lanes 0 to 3. -/
theorem msgPacking : Obligations.MsgPacking := by
  intro s w hc hw
  refine ⟨fun b0 b1 b2 b3 h0 h1 h2 h3 => ?_, fun v hi => ?_⟩
  · rw [locate_msg _ w hc hw]
    exact Memory.read32_of_reads (State.msgByte_add_ok (k := 0).1 h0) (State.msgByte_add_ok.1 h1)
      (State.msgByte_add_ok.1 h2) (State.msgByte_add_ok.1 h3)
  · rw [store_msg hc hi hw]
    exact ⟨fun k hk => State.msgByte_add_ok.2 (Memory.read_write32_lane _ _ v hk),
      fun a ha => Memory.read_write32_other _ v ha, rfl⟩

/-! ## CT (R47, R86) -/

/-- Word j of CT[i] is the j-th word from CT[i]'s first on (R86). -/
theorem ctWordAddr_eq_add (p : Params) (i j : Nat) : ctWordAddr p i j = ctWordAddr p i 0 + 4 * j := by
  unfold ctWordAddr
  omega

/-- A load of word j of CT[i] reads that word of memory (R86, R138). -/
theorem readLoc_ctWord {s : State} (hc : s.cfg.wf = true) {i j : Nat} (hl : i < s.cfg.maxLen) (hj : j < s.cfg.nw) :
    s.readLoc (locate s.cfg (0x100000 + 4 * (i * s.cfg.nw + j))) = s.mem.read32 (ctWordAddr s.cfg i j) := by
  rw [locate_ct _ i j hc hl hj]
  rfl

/-- An Idle store to word j of CT[i] writes that word of memory (R86, R137). -/
theorem store_ctWord {s : State} (hc : s.cfg.wf = true) (hi : s.eng = .idle) {i j : Nat} (hl : i < s.cfg.maxLen)
    (hj : j < s.cfg.nw) (v : Word) :
    s.store (0x100000 + 4 * (i * s.cfg.nw + j)) v = { s with mem := s.mem.write32 (ctWordAddr s.cfg i j) v } := by
  rw [State.store_of_idle hi, locate_ct _ i j hc hl hj]
  rfl

/-- Settles O18: CT[i]'s words are consecutive, and its word j is the one loaded and stored. -/
theorem ctLayout : Obligations.CtLayout := by
  intro s i j hc hl hj
  refine ⟨fun ws hws => ?_, fun v hi => ?_⟩
  · rw [readLoc_ctWord hc hl hj, ctWordAddr_eq_add]
    exact Memory.readWords_get hws j hj
  · rw [store_ctWord hc hi hl hj]
    refine ⟨?_, fun ws hws => ?_, fun a ha => Memory.read_write32_other _ v ha, rfl⟩
    · exact (readLoc_ctWord (s := { s with mem := s.mem.write32 (ctWordAddr s.cfg i j) v }) hc hl hj).trans
        (Memory.read32_write32_same _ _ v)
    · rw [ctWordAddr_eq_add]
      exact Memory.readWords_write32 v hws j hj

/-! ## Unfinished engine steps (R93, R136) -/

/-- The host reads none of the engine's progress but BUSY (R93), and none of the draws. -/
theorem State.readLoc_goOn_withEnv {s : State} (hb : s.busy = true) (e : Env) (phase : Phase) (rej : Nat) (l : Loc) :
    ((s.withEnv e).goOn phase rej).readLoc l = s.readLoc l := by
  cases l with
  | status => simp [State.readLoc, State.statusWord, hb]
  | _ => rfl

/-- A completed command leaves the engine Idle (R133). -/
theorem State.busy_complete (s : State) (ws : List PendingWrite) : (s.complete ws).busy = false := rfl

/-- Settles O50: of a step's answers only going on leaves the engine Busy; it moves the progress and the draws alone. -/
theorem unfinishedStepIsInvisible : Obligations.UnfinishedStepIsInvisible := by
  intro i s t hb hx ht
  obtain ⟨e, ans, rfl, he, ha⟩ := exec_next hx
  cases ans with
  | ret ws => simp [State.finish, State.busy_complete] at ht
  | raise k info => simp [State.finish] at ht
  | again phase rej =>
    obtain ⟨hcmd, -, -⟩ := ha
    exact ⟨goOn_withEnv_goesOn he phase rej, hcmd, fun a => State.readLoc_goOn_withEnv hb e phase rej (locate s.cfg a)⟩

end Sys2Proof.Machine

/-!
PROOFS. The encoding of the commands (spec/30_encoding.md): decoding and encoding on every 32-bit word, the step of a decoded
command, the life of an illegal word, and what stops an engine step.
-/
namespace Sys2Proof.Machine

/-! ## Decoding and encoding (R110 to R116) -/

/-- OPC is the word's low byte (R110). -/
theorem opcField_toNat (w : Word) : (opcField w).toNat = w.toNat % 256 := by
  rw [opcField, BitVec.extractLsb'_toNat, Nat.shiftRight_zero]

/-- Decoding on the word's number: a word below 256 is its own opcode, any other has RSV ≠ 0 (R112, R113, R115). -/
theorem decode_eq (w : Word) : decode w =
    if w.toNat < 256 then (opcodeInstr w.toNat).elim (.error .unassigned) .ok else .error .reservedBits := by
  simp only [decode, rsvField_eq_zero]
  by_cases h : w.toNat < 256
  · rw [if_pos h, if_pos h, opcField_toNat, Nat.mod_eq_of_lt h]
    cases opcodeInstr w.toNat <;> rfl
  · rw [if_neg h, if_neg h]

theorem decode_eq_reservedBits_iff (w : Word) : decode w = .error .reservedBits ↔ 256 ≤ w.toNat := by
  rw [decode_eq, ← not_lt]
  by_cases h : w.toNat < 256
  · cases opcodeInstr w.toNat <;> simp [h]
  · simp [h]

theorem decode_eq_unassigned_iff (w : Word) :
    decode w = .error .unassigned ↔ 0x0E ≤ w.toNat ∧ w.toNat < 256 := by
  rw [decode_eq, ← opcodeInstr_none]
  by_cases h : w.toNat < 256
  · cases opcodeInstr w.toNat <;> simp [h]
  · simp [h]

/-- A command's word is its opcode, with RSV = 0 above it (R110). -/
theorem encode_toNat (i : Instr) : (encode i).toNat = (opcodeOf i).toNat :=
  (BitVec.toNat_append 0#24 (opcodeOf i)).trans (by simp)

/-- The opcodes of R113 are 0x00 to 0x0D. -/
theorem opcodeOf_toNat_le (i : Instr) : (opcodeOf i).toNat ≤ 0x0D := by
  cases i <;> decide

/-- A word decodes to a command exactly when it is the command's one word (R116). -/
theorem decode_eq_ok_iff (w : Word) (i : Instr) : decode w = .ok i ↔ w = encode i := by
  rw [← BitVec.toNat_inj, encode_toNat, ← opcodeInstr_iff, decode_eq]
  by_cases h : w.toNat < 256
  · cases opcodeInstr w.toNat <;> simp [h]
  · have hne : opcodeInstr w.toNat ≠ some i := fun ho => by
      have hle := opcodeOf_toNat_le i
      rw [opcodeInstr_iff] at ho
      omega
    simp [h, hne]

/-- Settles O2, by the word's number: its own opcode below 256, and RSV ≠ 0 from there on. -/
theorem decodeEncodeAgree : Obligations.DecodeEncodeAgree := fun w =>
  ⟨decode_eq_ok_iff w, decode_eq_reservedBits_iff w, decode_eq_unassigned_iff w⟩

/-- Settles O1: each word by its row, and no other since a command's word is its opcode. -/
theorem opcodeMapWords : Obligations.OpcodeMapWords := by
  refine ⟨decode_word_nop, decode_word_modmul, decode_word_montmul, decode_word_modexp, decode_word_egcd, decode_word_lcm,
    decode_word_randrange, decode_word_candprime, decode_word_mrtest, decode_word_randprime, decode_word_keygen,
    decode_word_keydigits, decode_word_encrypt, decode_word_decrypt, fun w i h => ?_⟩
  rw [(decode_eq_ok_iff w i).1 h, encode_toNat]
  exact opcodeOf_toNat_le i

/-! ## The engine's turn (R132) -/

/-- With no event listed the engine moves (log 3). -/
theorem step_of_no_event {s : State} (hev : s.env.events = []) : step s = engineStep s := by
  rw [step, hev]

/-- A listed turn of the engine is used up (log 3). -/
theorem step_of_engine_event {s : State} {es : List Event} (hev : s.env.events = .engine :: es) :
    step s = engineStep (s.withEvents es) := by
  rw [step, hev]

/-- A Busy engine runs the command its word decodes to (R111). -/
theorem engineStep_of_decode_ok {s : State} {w : Word} {p : Prog} {i : Instr} (he : s.eng = .busy w p)
    (hd : decode w = .ok i) : engineStep s = exec i s := by
  simp only [engineStep, he, hd]

/-- A Busy engine completes the illegal command when its word decodes to none (R115). -/
theorem engineStep_of_decode_error {s : State} {w : Word} {p : Prog} {why : Illegal} (he : s.eng = .busy w p)
    (hd : decode w = .error why) : engineStep s = .next (s.illegal why) := by
  simp only [engineStep, he, hd]

/-- `withFetchWord` issues the word, as a CMD write does, and drops the events still to come (R130, log 6). -/
theorem State.withFetchWord_toNat (s : State) (w : Word) : s.withFetchWord 32 w.toNat = (s.withEvents []).issue w := by
  rw [State.withFetchWord, Nat.mod_eq_of_lt w.isLt, BitVec.ofNat_toNat, BitVec.setWidth_eq]

/-- Settles O4: the three forms of the engine's turn all come to `engineStep` on a Busy engine. -/
theorem stepRunsDecodedCommand : Obligations.StepRunsDecodedCommand := by
  intro s w i hd
  refine ⟨fun p he hev => ?_, fun p es he hev => ?_, ?_⟩
  · exact (step_of_no_event hev).trans (engineStep_of_decode_ok he hd)
  · exact (step_of_engine_event hev).trans (engineStep_of_decode_ok (s := s.withEvents es) he hd)
  · rw [State.withFetchWord_toNat, step_of_no_event rfl]
    exact engineStep_of_decode_ok rfl hd

/-! ## Illegal words (R115) -/

/-- An Idle store to CMD issues the word, whatever it is (R115, R130). -/
theorem State.store_cmd {s : State} (hi : s.eng = .idle) (w : Word) : s.store 0x000010 w = s.issue w :=
  State.store_of_idle hi _ w

/-- Settles O3: the store issues the word, and the engine's turn is the error completion of its kind of illegal word. -/
theorem illegalWordCompletes : Obligations.IllegalWordCompletes := by
  intro s w hi hev hw
  rw [State.store_cmd hi]
  refine ⟨rfl, rfl, ?_⟩
  have hstep : ∀ why, decode w = .error why → step (s.issue w) = .next ((s.issue w).illegal why) := fun why hd =>
    (step_of_no_event (s := s.issue w) hev).trans (engineStep_of_decode_error rfl hd)
  by_cases hrsv : 256 ≤ w.toNat
  · rw [if_pos hrsv]
    exact ⟨_, hstep _ ((decode_eq_reservedBits_iff w).2 hrsv), raise_failedWith _ .illegalCommand 2#8, rfl⟩
  · rw [if_neg hrsv]
    exact ⟨_, hstep _ ((decode_eq_unassigned_iff w).2 ⟨hw, not_le.1 hrsv⟩), raise_failedWith _ .illegalCommand 1#8, rfl⟩

/-! ## What stops an engine step (U9) -/

/-- A cipher command's step answers a next state, or stops at the fault of its element loop over MSGLEN elements. -/
theorem cipherRun_next_or_fault (s : State) (key : BigReg)
    (writes : Int → Nat → Nat → Nat → Except Fault (List PendingWrite)) :
    (∃ t, cipherRun s key writes = .next t) ∨
      ∃ n k f, writes n k s.msgLen.toNat 0 = .error f ∧ cipherRun s key writes = .fault f := by
  unfold cipherRun
  split
  · exact .inl ⟨_, rfl⟩
  · next len n k hc =>
    obtain ⟨-, hlen, -⟩ := cipherChecks_ok hc
    subst hlen
    split
    · next f hf => exact .inr ⟨n, k, f, hf, rfl⟩
    · exact .inl ⟨_, rfl⟩

/-- Settles O52: only the cipher commands have a step that can stop, at the first unwritten byte of their input. -/
theorem onlyUnwrittenInputStops : Obligations.OnlyUnwrittenInputStops := by
  intro i s
  cases i with
  | encrypt =>
    rcases cipherRun_next_or_fault s .keyE (encryptWrites s) with hnext | ⟨n, k, f, hf, hx⟩
    · exact .inl hnext
    · obtain ⟨a, rfl, hlo, hhi, hnone, -⟩ := encryptWrites_first _ hf
      rw [Nat.zero_add] at hhi
      exact .inr ⟨a, hx, hnone, .inl ⟨rfl, hlo, hhi⟩⟩
  | decrypt =>
    rcases cipherRun_next_or_fault s .keyD (decryptWrites s) with hnext | ⟨n, k, f, hf, hx⟩
    · exact .inl hnext
    · obtain ⟨a, rfl, hlo, hhi, hnone, -⟩ := decryptWrites_first _ hf
      rw [Nat.zero_add] at hhi
      exact .inr ⟨a, hx, hnone, .inr ⟨rfl, hlo, hhi⟩⟩
  | _ => exact .inl ⟨_, rfl⟩

end Sys2Proof.Machine

/-!
PROOFS. The control unit (spec/40_control.md): the issue of a command, writes while Busy, NOP and the write that races it, the
error completion, and the end of every command under a nonzero ITER_CAP.
-/
namespace Sys2Proof.Machine

/-! ## Command issue (R130) -/

/-- Settles O6: the write's step is a store to CMD, which issues the word; the engine's turn then runs what it decodes to. -/
theorem commandIssue : Obligations.CommandIssue := by
  intro s v es hi hev
  refine ⟨_, writeWhileIdle s _ v es hi (by decide) hev, ?_⟩
  rw [show (0x000010#24).toNat = 0x000010 from rfl, State.store_cmd hi]
  exact ⟨rfl, rfl, fun i hd hes => (step_of_no_event hes).trans (engineStep_of_decode_ok rfl hd)⟩

/-! ## Writes while Busy (R131, R135) -/

/-- STATUS is the control register with word index 3 (R30). -/
theorem controlLoc_eq_status {n : Nat} (h : controlLoc n = .status) : n = 3 := by
  have hlt : n < 10 := by
    by_contra hn
    rw [controlLoc_reserved (not_lt.1 hn)] at h
    cases h
  exact (by decide : ∀ n < 10, controlLoc n = .status → n = 3) n hlt h

theorem bigLoc_ne_status (p : Params) (k j : Nat) : bigLoc p k j ≠ .status := by
  unfold bigLoc
  split
  · split <;> nofun
  · nofun

theorem msgLoc_ne_status (p : Params) (off : Nat) : msgLoc p off ≠ .status := by
  unfold msgLoc
  split <;> nofun

theorem ctLoc_ne_status (p : Params) (k : Nat) : ctLoc p k ≠ .status := by
  unfold ctLoc
  split <;> nofun

/-- STATUS lies in the control window alone (R30). -/
theorem locate_eq_status {p : Params} {a : Nat} (h : locate p a = .status) : a / 4 = 3 := by
  unfold locate at h
  split at h
  · exact controlLoc_eq_status h
  split at h
  · exact absurd h (bigLoc_ne_status _ _ _)
  split at h
  · cases h
  split at h
  · exact absurd h (msgLoc_ne_status _ _)
  split at h
  · cases h
  split at h
  · exact absurd h (ctLoc_ne_status _ _)
  · cases h

/-- Of the aligned addresses STATUS has 0x00000C (R30). -/
theorem locate_eq_status_iff (p : Params) {a : Nat} (h4 : a % 4 = 0) : locate p a = .status ↔ a = 0x00000C := by
  refine ⟨fun h => ?_, fun h => h ▸ rfl⟩
  have hword := locate_eq_status h
  omega

/-- Busy, a store to STATUS takes effect (R131). -/
theorem State.store_status_of_busy {s : State} (hb : s.busy = true) {a : Nat} (hl : locate s.cfg a = .status) (v : Word) :
    s.store a v = s.ackStatus v := by
  rw [State.store, if_pos hb, if_pos hl]

/-- Busy, a store to any other location only sets WWB (R135). -/
theorem State.store_other_of_busy {s : State} (hb : s.busy = true) {a : Nat} (hl : locate s.cfg a ≠ .status) (v : Word) :
    s.store a v = s.setWwb := by
  rw [State.store, if_pos hb, if_neg hl]

/-- A legal write is the store at its address, acknowledged (R80, R137). -/
theorem step_write_legal {s : State} {addr : Addr} {v : Word} {es : List Event}
    (hev : s.env.events = .access (.write addr 4 v) :: es) (h4 : addr.toNat % 4 = 0) :
    step s = .next (((s.withEvents es).store addr.toNat v).respond .ack) :=
  step_write s _ v es (by rw [writeEvent_toNat, hev]) h4 addr.isLt

/-- Settles O7, by where the write goes: to another location, to STATUS, or nowhere, as an illegal access. -/
theorem writeWhileBusy : Obligations.WriteWhileBusy := by
  intro s addr size v es hb hev
  refine ⟨fun hsize h4 hne => ?_, fun hsize ha => ?_, fun hbad => ?_⟩
  · subst hsize
    have hother := mt (locate_eq_status_iff s.cfg h4).1 hne
    rw [step_write_legal hev h4, State.store_other_of_busy (s := s.withEvents es) hb hother]
    rfl
  · subst hsize
    have h4 : addr.toNat % 4 = 0 := by rw [ha]
    have hstatus := (locate_eq_status_iff s.cfg h4).2 ha
    rw [step_write_legal hev h4, State.store_status_of_busy (s := s.withEvents es) hb hstatus]
    rfl
  · exact (step_access hev).trans (busAccess_write_illegal _ v hbad)

/-! ## NOP (R139) -/

/-- NOP completes without a write, nothing being pending (R133, R139). -/
theorem exec_nop {s : State} (h : s.Inv) : exec .nop s = .next (s.complete []) := by
  rw [exec, execNop, State.finish, h.pending_nil, List.nil_append]

/-- Settles O24: NOP's completion commits no write, and the issue before it has cleared ERR. -/
theorem nopCompletes : Obligations.NopCompletes :=
  ⟨fun s h => ⟨_, exec_nop h, complete_completed s [], complete_sameBut s [] [] (by simp), rfl, fun _ => rfl, rfl⟩,
    fun _ h => ⟨_, exec_nop (h.issue _), rfl, rfl, rfl, rfl, rfl, rfl⟩⟩

/-! ## Error completion (R134) -/

/-- Settles O49: of a step's answers only an error sets ERR, and it commits nothing. -/
theorem errorCommitsNothing : Obligations.ErrorCommitsNothing := by
  intro i s t hx hs ht
  obtain ⟨e, ans, rfl, he, ha⟩ := exec_next hx
  cases ans with
  | ret ws =>
    obtain ⟨-, -, herr, -, -⟩ := complete_completed (s.withEnv e) ((s.withEnv e).prog.pending ++ ws)
    exact absurd (ht.symm.trans (herr.trans hs)) (by decide)
  | raise k info =>
    obtain ⟨hpair, hcode⟩ := ha
    exact ⟨raise_withEnv_failedWith he k info, hpair, hcode⟩
  | again phase rej => exact absurd (ht.symm.trans hs) (by decide)

/-! ## A bound on the engine's steps (R190, R290) -/

/-- A command that goes on leaves ITER_CAP (R132). -/
theorem GoesOn.iterCap {s t : State} (h : GoesOn s t) : t.iterCap = s.iterCap := by
  obtain ⟨-, -, -, -, -, ⟨-, -, -, -, -, -, hcap, -⟩, -⟩ := h
  exact hcap

/-- A command that goes on leaves the events still to come (log 3). -/
theorem GoesOn.events {s t : State} (h : GoesOn s t) : t.env.events = s.env.events := by
  obtain ⟨-, -, -, -, -, ⟨-, -, -, -, -, -, -, -, hevents, -⟩, -⟩ := h
  exact hevents

/-- A step that leaves the engine Idle has completed its command, with results or an error (R133, R134). -/
theorem exec_idle_done {i : Instr} {s t : State} (hx : exec i s = .next t) (ht : t.busy = false) :
    t.eng = .idle ∧ t.done = true := by
  obtain ⟨e, ans, rfl, -, -⟩ := exec_next hx
  cases ans with
  | ret ws => exact ⟨rfl, rfl⟩
  | raise k info => exact ⟨rfl, rfl⟩
  | again phase rej => cases ht

/-- Only KEYGEN runs in a later phase than its first (R212). -/
theorem State.Inv.phase_eq_start {s : State} (h : s.Inv) {cmd : Word} {p : Prog} (he : s.eng = .busy cmd p) {i : Instr}
    (hd : decode cmd = .ok i) (hi : i ≠ .keygen) : s.prog.phase = .start := by
  have hne : decode cmd ≠ .ok .keygen := fun hk => hi (Except.ok.inj (hd.symm.trans hk))
  have hok := h.phaseOk
  rw [State.runCmd_of_busy he] at hok
  cases hph : s.prog.phase with
  | start => rfl
  | keygenQ q => rw [hph] at hok; exact absurd hok.1 hne
  | keygenE n lam => rw [hph] at hok; exact absurd hok.1 hne

/-- A step that leaves the engine Busy is one more rejection in the same phase, or the next phase of KEYGEN (R190, R212). -/
theorem exec_busy_prog {i : Instr} {s t : State} (h : s.Inv) {cmd : Word} {p : Prog} (he : s.eng = .busy cmd p)
    (hd : decode cmd = .ok i) (hx : exec i s = .next t) (ht : t.busy = true) :
    (t.prog.rej = s.prog.rej + 1 ∧ t.prog.phase = s.prog.phase) ∨
      (t.prog.rej = s.prog.rej ∧ phaseIndex t.prog.phase = phaseIndex s.prog.phase + 1) := by
  by_cases hi : i = .keygen
  · subst hi
    injection hx with hx
    subst hx
    cases ha : (keygenStep s).1 with
    | ret ws => rw [ha] at ht; cases ht
    | raise k info => rw [ha] at ht; cases ht
    | again phase rej =>
      rcases keygenStep_again ha with ⟨hrej, hphase, -⟩ | hnext
      · exact .inl ⟨hrej, hphase⟩
      · exact .inr hnext
  · obtain ⟨e, ans, rfl, -, ha⟩ := exec_next hx
    cases ans with
    | ret ws => cases ht
    | raise k info => cases ht
    | again phase rej =>
      obtain ⟨-, hstart, ⟨hrej, -⟩ | ⟨-, -, hne⟩⟩ := ha
      · exact .inl ⟨hrej, (hstart hi).trans (h.phase_eq_start he hd hi).symm⟩
      · exact absurd (hstart hi) hne

/-- A bound on the engine steps a running command still takes under a nonzero ITER_CAP: the rejections up to it, and the
changes of phase (R190, R212). -/
def State.stepsLeft (s : State) : Nat := s.iterCap.toNat - s.prog.rej + (2 - phaseIndex s.prog.phase)

theorem State.stepsLeft_le (s : State) : s.stepsLeft ≤ s.iterCap.toNat + 2 := by
  unfold State.stepsLeft
  omega

theorem phaseIndex_le_two (phase : Phase) : phaseIndex phase ≤ 2 := by
  cases phase <;> simp [phaseIndex]

/-- A running command has a rejection left before a nonzero ITER_CAP (R190). -/
theorem State.Inv.rej_lt_of_busy {s : State} (h : s.Inv) (hb : s.busy = true) (hc : s.iterCap ≠ 0#32) :
    s.prog.rej < s.iterCap.toNat := by
  obtain ⟨cmd, p, he⟩ := (State.busy_iff s).1 hb
  rw [State.prog_of_busy he]
  exact h.rej_lt_iterCap he hc

/-- An unfinished step uses up a rejection or a change of phase. -/
theorem exec_stepsLeft_lt {i : Instr} {s t : State} (h : s.Inv) {cmd : Word} {p : Prog} (he : s.eng = .busy cmd p)
    (hd : decode cmd = .ok i) (hc : s.iterCap ≠ 0#32) (hx : exec i s = .next t) (ht : t.busy = true) :
    t.stepsLeft < s.stepsLeft := by
  have hb : s.busy = true := (State.busy_iff s).2 ⟨cmd, p, he⟩
  obtain ⟨hg, -⟩ := unfinishedStepIsInvisible i s t hb hx ht
  have hrej := h.rej_lt_of_busy hb hc
  have hphase := phaseIndex_le_two t.prog.phase
  unfold State.stepsLeft
  rw [hg.iterCap]
  rcases exec_busy_prog h he hd hx ht with ⟨hr, hp⟩ | ⟨hr, hp⟩
  · rw [hr, hp]
    omega
  · rw [hr]
    omega

/-- After `k` steps from `s` the running command has completed, or has stopped at an unwritten byte of its input (U9). -/
def EndsIn (k : Nat) (s : State) : Prop :=
  (∃ t, Host.Core.run core k s = .next t ∧ t.eng = .idle ∧ t.done = true) ∨
    ∃ a, Host.Core.run core k s = .fault (.unwrittenRead a) ∧ s.mem.read a = none ∧ (inMessage s a ∨ inCiphertext s a)

/-- A faulting step ends the run. -/
theorem run_fault {s : State} {f : Fault} (k : Nat) (h : step s = .fault f) : Host.Core.run core (k + 1) s = .fault f := by
  simp only [Host.Core.run, show core.step s = .fault f from h]

/-- An unfinished step leaves the command's input as it was, so the command ends one step later. -/
theorem EndsIn.succ {k : Nat} {s t : State} (hs : step s = .next t) (hg : GoesOn s t) (h : EndsIn k t) : EndsIn (k + 1) s := by
  obtain ⟨-, -, -, -, -, ⟨-, hcfg, -, -, -, -, -, hlen, -⟩, -, hmem⟩ := hg
  unfold EndsIn
  rw [run_next hs]
  rcases h with hdone | ⟨a, hrun, hnone, hin⟩
  · exact .inl hdone
  · refine .inr ⟨a, hrun, (hmem a).symm.trans hnone, ?_⟩
    simpa only [inMessage, inCiphertext, hcfg, hlen] using hin

/-- A turn of a Busy engine ends the command, or leaves it fewer steps under a nonzero ITER_CAP. -/
theorem busy_step_cases {s : State} (h : s.Inv) (hev : s.env.events = []) (hb : s.busy = true) (hc : s.iterCap ≠ 0#32) :
    EndsIn 1 s ∨ ∃ t, step s = .next t ∧ GoesOn s t ∧ t.busy = true ∧ t.stepsLeft < s.stepsLeft := by
  obtain ⟨cmd, p, he⟩ := (State.busy_iff s).1 hb
  have hstep := step_of_no_event hev
  cases hd : decode cmd with
  | error why =>
    rw [engineStep_of_decode_error he hd] at hstep
    exact .inl (.inl ⟨_, (run_next hstep).trans (run_zero _), by cases why <;> exact ⟨rfl, rfl⟩⟩)
  | ok i =>
    rw [engineStep_of_decode_ok he hd] at hstep
    rcases onlyUnwrittenInputStops i s with ⟨t, hx⟩ | ⟨a, hx, hnone, hin⟩
    · cases ht : t.busy with
      | true =>
        obtain ⟨hg, -⟩ := unfinishedStepIsInvisible i s t hb hx ht
        exact .inr ⟨t, hstep.trans hx, hg, ht, exec_stepsLeft_lt h he hd hc hx ht⟩
      | false => exact .inl (.inl ⟨t, (run_next (hstep.trans hx)).trans (run_zero t), exec_idle_done hx ht⟩)
    · exact .inl (.inr ⟨a, run_fault 0 (hstep.trans hx), hnone, hin.imp And.right And.right⟩)

/-- Under a nonzero ITER_CAP a running command ends within its bound, by induction on the bound. -/
theorem exists_endsIn_le_stepsLeft {s : State} (h : s.Inv) (hev : s.env.events = []) (hb : s.busy = true)
    (hc : s.iterCap ≠ 0#32) :
    ∃ k, k ≤ s.stepsLeft ∧ EndsIn k s := by
  induction hn : s.stepsLeft using Nat.strong_induction_on generalizing s with
  | h n ih =>
    subst hn
    rcases busy_step_cases h hev hb hc with hend | ⟨t, hs, hg, ht, hlt⟩
    · have hpos : 1 ≤ s.stepsLeft := by
        have hrej := h.rej_lt_of_busy hb hc
        unfold State.stepsLeft
        omega
      exact ⟨1, hpos, hend⟩
    · have hc' : t.iterCap ≠ 0#32 := hg.iterCap ▸ hc
      obtain ⟨k, hk, hend⟩ := ih _ hlt (stepKeepsInvariant s t h hs) (hg.events.trans hev) ht hc' rfl
      exact ⟨k + 1, by omega, hend.succ hs hg⟩

/-- Settles O53: the bound is ITER_CAP's rejections and KEYGEN's two changes of phase. -/
theorem iterCapBoundsEveryCommand : Obligations.IterCapBoundsEveryCommand := by
  intro s h hev hb hc
  obtain ⟨k, hk, hend⟩ := exists_endsIn_le_stepsLeft h hev hb hc
  exact ⟨k, hk.trans s.stepsLeft_le, hend⟩

/-! ## A write that races NOP (R132, R135, R291) -/

/-- A listed turn of an engine that runs NOP is NOP's `return` (R139). -/
theorem step_engine_nop {s : State} {p : Prog} {es : List Event} (he : s.eng = .busy 0x00000000#32 p)
    (hev : s.env.events = .engine :: es) : step s = .next ((s.withEvents es).finish (.ret [])) :=
  (step_of_engine_event hev).trans (engineStep_of_decode_ok (s := s.withEvents es) he decode_word_nop)

/-- The three steps of a run. -/
theorem run_three {s u v t : State} (h1 : step s = .next u) (h2 : step u = .next v) (h3 : step v = .next t) :
    Host.Core.run core 3 s = .next t := by
  rw [run_next h1, run_next h2, run_next h3, run_zero]

/-- Settles O56: the write to OPA is a store of the Idle block when the engine has moved, and only sets WWB when it has not. -/
theorem writeRacesNop : Obligations.WriteRacesNop := by
  have hissue (es : List Event) := step_write (State.reset.withEvents (writeEvent 0x000010 0#32 :: es)) 0x000010 0#32 es rfl
    (by decide) (by decide)
  refine ⟨⟨_, run_three (hissue _) (step_engine_nop rfl rfl) (step_write _ 0x000400 5#32 _ rfl ?_ ?_), ?_, ?_⟩,
    _, run_three (hissue _) (step_write _ 0x000400 5#32 _ rfl ?_ ?_) (step_engine_nop rfl rfl), ?_, ?_⟩
  all_goals decide

end Sys2Proof.Machine

/-!
PROOFS. The modular unit (spec/41_modarith.md): what MODMUL, MONTMUL and MODEXP answer on each kind of operands, R153's Rinv, and
the states these answers leave.
-/
namespace Sys2Proof.Machine

/-! ## What the pseudocode answers (R150 to R154) -/

theorem modmulBody_of_pos (a b : Int) {m : Int} (hm : 0 < m) : modmulBody a b m = .ret [.big .res0 (a * b % m)] := by
  rw [modmulBody, if_neg hm.not_ge, emod_eq _ _ hm]

theorem modmulBody_of_nonpos (a b : Int) {m : Int} (hm : m ≤ 0) : modmulBody a b m = .raise .invalidModulus 1#8 :=
  if_pos hm

theorem montmulBody_of_odd (w : Nat) (a b : Int) {m : Int} (hm : 0 < m) (hodd : m % 2 = 1) :
    montmulBody w a b m = .ret [.big .res0 (a * b * montInverse w m % m)] := by
  rw [montmulBody, if_neg hm.not_ge, tmod_two m hm, if_neg (by omega), emod_eq _ _ hm]

theorem montmulBody_of_nonpos (w : Nat) (a b : Int) {m : Int} (hm : m ≤ 0) :
    montmulBody w a b m = .raise .invalidModulus 1#8 :=
  if_pos hm

theorem montmulBody_of_even (w : Nat) (a b : Int) {m : Int} (hm : 0 < m) (heven : m % 2 = 0) :
    montmulBody w a b m = .raise .invalidModulus 2#8 := by
  rw [montmulBody, if_neg hm.not_ge, tmod_two m hm, if_pos heven]

theorem modexpBody_of_nonneg (base : Int) {exp m : Int} (hm : 0 < m) (he : 0 ≤ exp) :
    modexpBody base exp m = .ret [.big .res0 (base ^ exp.toNat % m)] := by
  rw [modexpBody, if_neg hm.not_ge, if_neg he.not_gt, modPow_eq _ _ hm]

theorem modexpBody_of_nonpos (base exp : Int) {m : Int} (hm : m ≤ 0) :
    modexpBody base exp m = .raise .invalidModulus 1#8 :=
  if_pos hm

theorem modexpBody_of_neg (base : Int) {exp m : Int} (hm : 0 < m) (he : exp < 0) :
    modexpBody base exp m = .raise .negativeExponent 0#8 := by
  rw [modexpBody, if_neg hm.not_ge, if_pos he]

/-! ## The Montgomery inverse (R153) -/

/-- Two inverses of the same number agree modulo m: `v ≡ v·(u·x) = (v·x)·u ≡ u`. -/
theorem modEq_of_mul_modEq_one {m v u x : Int} (hv : v * x ≡ 1 [ZMOD m]) (hu : u * x ≡ 1 [ZMOD m]) : v ≡ u [ZMOD m] :=
  calc v = v * 1 := (mul_one v).symm
    _ ≡ v * (u * x) [ZMOD m] := (hu.mul_left v).symm
    _ = v * x * u := by ring
    _ ≡ 1 * u [ZMOD m] := hv.mul_right u
    _ = u := one_mul u

/-- R153's Rinv is the one inverse of 2^w in [0, m): `montInverse w m`. -/
theorem isMontInverse_iff (w : Nat) {m : Int} (hm : 0 < m) (hodd : m % 2 = 1) (v : Int) :
    (0 ≤ v ∧ v < m ∧ v * 2 ^ w % m = 1 % m) ↔ v = montInverse w m := by
  obtain ⟨hlo, hhi⟩ := montInverse_range w hm
  constructor
  · rintro ⟨h0, hlt, hinv⟩
    have hmod : v % m = montInverse w m % m := modEq_of_mul_modEq_one hinv (montInverse_spec w hm hodd)
    rwa [Int.emod_eq_of_lt h0 hlt, Int.emod_eq_of_lt hlo hhi] at hmod
  · rintro rfl
    exact ⟨hlo, hhi, montInverse_spec w hm hodd⟩

/-! ## The commands -/

/-- A command that returns a residue modulo OPM leaves it in RES0, where it fits, and changes no other target (R133). -/
theorem exec_returns_residue {i : Instr} {s : State} (h : s.Inv) (hm : 0 < s.x .opm) {a : Int}
    (hx : exec i s = .next (s.finish (.ret [.big .res0 (a % s.x .opm)]))) :
    ∃ t, exec i s = .next t ∧ t.x .res0 = a % s.x .opm ∧ Completed s t ∧ SameBut [.res0] s t ∧
      t.keyValid = s.keyValid ∧ SameMemory s t ∧ t.env = s.env :=
  ⟨_, hx, finish_ret_one h (h.emod_fits a .opm hm) s.env (.refl _)⟩

/-- A command that raises an error reports it and draws nothing (R134). -/
theorem exec_raises_failedWith {i : Instr} {s : State} {k : ErrorKind} {info : BitVec 8}
    (hx : exec i s = .next (s.finish (.raise k info))) :
    ∃ t, exec i s = .next t ∧ FailedWith k.code info s t ∧ t.env = s.env :=
  ⟨_, hx, raise_failedWith s k info, rfl⟩

/-- Settles O25, by the sign of the modulus. -/
theorem modmulResult : Obligations.ModmulResult := by
  refine fun s h => ⟨fun hm => exec_returns_residue h hm ?_, fun hm => exec_raises_failedWith (k := .invalidModulus) ?_⟩
  · rw [exec, execModmul, modmulBody_of_pos _ _ hm]
  · rw [exec, execModmul, modmulBody_of_nonpos _ _ hm]

/-- Settles O26, by the sign and the parity of the modulus; `montInverse` is the Rinv of R153. -/
theorem montmulResult : Obligations.MontmulResult := by
  refine fun s h => ⟨fun hm hodd => ?_, fun hm => exec_raises_failedWith (k := .invalidModulus) ?_,
    fun hm heven => exec_raises_failedWith (k := .invalidModulus) ?_⟩
  · have hx : exec .montmul s = .next (s.finish (.ret
        [.big .res0 (s.x .opa * s.x .opb * montInverse s.cfg.width (s.x .opm) % s.x .opm)])) := by
      rw [exec, execMontmul, montmulBody_of_odd _ _ _ hm hodd]
    obtain ⟨t, ht, hres⟩ := exec_returns_residue h hm hx
    exact ⟨t, _, ht, isMontInverse_iff s.cfg.width hm hodd, hres⟩
  · rw [exec, execMontmul, montmulBody_of_nonpos _ _ _ hm]
  · rw [exec, execMontmul, montmulBody_of_even _ _ _ hm heven]

/-- Settles O27, by the sign of the modulus and then of the exponent. -/
theorem modexpResult : Obligations.ModexpResult := by
  refine fun s h => ⟨fun hm he => exec_returns_residue h hm ?_, fun hm => exec_raises_failedWith (k := .invalidModulus) ?_,
    fun hm he => exec_raises_failedWith (k := .negativeExponent) ?_⟩
  · rw [exec, execModexp, modexpBody_of_nonneg _ hm he]
  · rw [exec, execModexp, modexpBody_of_nonpos _ _ hm]
  · rw [exec, execModexp, modexpBody_of_neg _ hm he]

end Sys2Proof.Machine

/-!
PROOFS. The extended-GCD unit (spec/42_numtheory.md): what EGCD, LCM and RANDRANGE answer on each kind of operands, which operands
have the gcd 2^(W-1), and the states these answers leave.
-/
namespace Sys2Proof.Machine

/-! ## ExtGcd on operands not both 0 (R170, R171) -/

@[simp] theorem extGcd_zero_zero : extGcd 0 0 = none := (extGcd_eq_none 0 0).2 ⟨rfl, rfl⟩

theorem exists_extGcd_eq_some {a b : Int} (h : a ≠ 0 ∨ b ≠ 0) : ∃ g x y, extGcd a b = some (g, x, y) := by
  have hne : extGcd a b ≠ none := fun hnone => by
    obtain ⟨ha, hb⟩ := (extGcd_eq_none a b).1 hnone
    exact h.elim (· ha) (· hb)
  obtain ⟨⟨g, x, y⟩, hx⟩ := Option.ne_none_iff_exists'.1 hne
  exact ⟨g, x, y, hx⟩

/-- The coefficients of (a, 0) (R172). -/
theorem extGcd_coeffs_of_right_zero {a b g x y : Int} (hb : b = 0) (h : extGcd a b = some (g, x, y)) : x = a.sign ∧ y = 0 := by
  subst hb
  have ha : a ≠ 0 := by
    rintro rfl
    simp at h
  rw [extGcd_right_zero ha] at h
  cases h
  exact ⟨rfl, rfl⟩

/-- The coefficients where b divides a: those of (0, b) and of a = b among them (R172). -/
theorem extGcd_coeffs_of_dvd {a b g x y : Int} (hd : b ∣ a) (h : extGcd a b = some (g, x, y)) : x = 0 ∧ y = b.sign := by
  have hb : b ≠ 0 := by
    rintro rfl
    simp [zero_dvd_iff.1 hd] at h
  rw [extGcd_of_dvd hb hd] at h
  cases h
  exact ⟨rfl, rfl⟩

/-- Of integers in [-M, M), those of gcd M are 0 and -M, not both 0 (R172). -/
theorem gcd_eq_bound_iff {M a b : Int} (ha : -M ≤ a ∧ a ≤ M - 1) (hb : -M ≤ b ∧ b ≤ M - 1) :
    (Int.gcd a b : Int) = M ↔ (a = -M ∧ b = 0) ∨ (a = 0 ∧ b = -M) ∨ (a = -M ∧ b = -M) := by
  have hM : 0 < M := by omega
  have hmultiple : ∀ {z : Int}, -M ≤ z ∧ z ≤ M - 1 → M ∣ z → z = 0 ∨ z = -M := by
    rintro z ⟨hlo, hhi⟩ hd
    rcases eq_or_lt_of_le hlo with h | h
    · exact .inr h.symm
    · exact .inl (Int.eq_zero_of_abs_lt_dvd hd (abs_lt.2 ⟨h, by omega⟩))
  constructor
  · intro h
    have hda : M ∣ a := h ▸ Int.gcd_dvd_left a b
    have hdb : M ∣ b := h ▸ Int.gcd_dvd_right a b
    rcases hmultiple ha hda with rfl | rfl <;> rcases hmultiple hb hdb with rfl | rfl
    · rw [Int.gcd_zero_left] at h
      omega
    · exact .inr (.inl ⟨rfl, rfl⟩)
    · exact .inl ⟨rfl, rfl⟩
    · exact .inr (.inr ⟨rfl, rfl⟩)
  · have habs : (M.natAbs : Int) = M := Int.natAbs_of_nonneg hM.le
    rintro (⟨rfl, rfl⟩ | ⟨rfl, rfl⟩ | ⟨rfl, rfl⟩)
    · rwa [Int.gcd_zero_right, Int.natAbs_neg]
    · rwa [Int.gcd_zero_left, Int.natAbs_neg]
    · rwa [Int.gcd_self, Int.natAbs_neg]

/-- A value above the greatest does not fit (R12). -/
theorem fits_eq_false_of_gt {w : Nat} {v : Int} (h : 2 ^ (w - 1) - 1 < v) : fits w v = false :=
  Bool.eq_false_iff.2 fun hf => h.not_ge ((fits_iff w v).1 hf).2

/-! ## What the pseudocode answers (R172, R174) -/

theorem egcdBody_zero (w : Nat) : egcdBody w 0 0 = .raise .arithmeticDomainError 1#8 := by simp [egcdBody]

theorem egcdBody_of_fits {w : Nat} {a b g x y : Int} (h : extGcd a b = some (g, x, y))
    (hf : fits w g = true ∧ fits w x = true ∧ fits w y = true) :
    egcdBody w a b = .ret [.big .res0 g, .big .res1 x, .big .res2 y] := by
  obtain ⟨hg, hx, hy⟩ := hf
  simp [egcdBody, h, hg, hx, hy]

theorem egcdBody_of_not_fits {w : Nat} {a b g x y : Int} (h : extGcd a b = some (g, x, y)) (hg : fits w g = false) :
    egcdBody w a b = .raise .arithmeticDomainError 2#8 := by
  simp [egcdBody, h, hg]

theorem lcmBody_of_none {w : Nat} {lcmTrue : Bool} {a b : Int} (h : lcmValue lcmTrue a b = none) :
    lcmBody w lcmTrue a b = .raise .arithmeticDomainError 1#8 := by
  simp [lcmBody, h]

theorem lcmBody_of_fits {w : Nat} {lcmTrue : Bool} {a b v : Int} (h : lcmValue lcmTrue a b = some v) (hf : fits w v = true) :
    lcmBody w lcmTrue a b = .ret [.big .res0 v] := by
  simp [lcmBody, h, hf]

theorem lcmBody_of_not_fits {w : Nat} {lcmTrue : Bool} {a b v : Int} (h : lcmValue lcmTrue a b = some v) (hf : fits w v = false) :
    lcmBody w lcmTrue a b = .raise .arithmeticDomainError 2#8 := by
  simp [lcmBody, h, hf]

/-! ## EGCD (R172) -/

/-- EGCD of (0, 0) raises ARITHMETIC_DOMAIN_ERROR(1). -/
theorem exec_egcd_of_zero {s : State} (ha : s.x .opa = 0) (hb : s.x .opb = 0) :
    exec .egcd s = .next (s.finish (.raise .arithmeticDomainError 1#8)) := by
  rw [exec, execEgcd, ha, hb, egcdBody_zero]

/-- Where the gcd is 2^(W-1), it does not fit, and EGCD raises ARITHMETIC_DOMAIN_ERROR(2). -/
theorem exec_egcd_of_gcd_eq {s : State} (hg : (Int.gcd (s.x .opa) (s.x .opb) : Int) = 2 ^ (s.cfg.width - 1)) :
    exec .egcd s = .next (s.finish (.raise .arithmeticDomainError 2#8)) := by
  have hpos : (0 : Int) < Int.gcd (s.x .opa) (s.x .opb) := hg ▸ by positivity
  obtain ⟨g, x, y, hx⟩ := exists_extGcd_eq_some (Int.gcd_pos_iff.1 (by exact_mod_cast hpos))
  obtain ⟨-, hgcd, -⟩ := extGcd_spec hx
  rw [exec, execEgcd, egcdBody_of_not_fits hx (fits_eq_false_of_gt (by omega))]

/-- Elsewhere all of ExtGcd's triple fits, and EGCD returns it. -/
theorem exec_egcd_of_gcd_ne {s : State} (h : s.Inv) {g x y : Int} (hx : extGcd (s.x .opa) (s.x .opb) = some (g, x, y))
    (hne : (Int.gcd (s.x .opa) (s.x .opb) : Int) ≠ 2 ^ (s.cfg.width - 1)) :
    ∃ t, exec .egcd s = .next t ∧ t.x .res0 = g ∧ t.x .res1 = x ∧ t.x .res2 = y ∧ Completed s t ∧
      SameBut [.res0, .res1, .res2] s t ∧ t.keyValid = s.keyValid ∧ SameMemory s t ∧ t.env = s.env := by
  have hfits := egcd_fits h.width_ge (h.x_fits .opa) (h.x_fits .opb) hne hx
  have hrun : exec .egcd s = .next (s.finish (.ret [.big .res0 g, .big .res1 x, .big .res2 y])) := by
    rw [exec, execEgcd, egcdBody_of_fits hx hfits]
  obtain ⟨hfg, hfx, hfy⟩ := hfits
  exact ⟨_, hrun, finish_ret_three h hfg hfx hfy⟩

/-- EGCD reports ARITHMETIC_DOMAIN_ERROR only for (0, 0), with info 1, and for a gcd of 2^(W-1), with info 2. -/
theorem exec_egcd_error_cases {s t : State} (h : s.Inv) (hrun : exec .egcd s = .next t) (hcode : t.errCode = 7#8) :
    ((s.x .opa = 0 ∧ s.x .opb = 0) ∧ t.errInfo = 1#8) ∨
      ((Int.gcd (s.x .opa) (s.x .opb) : Int) = 2 ^ (s.cfg.width - 1) ∧ t.errInfo = 2#8) := by
  by_cases hz : s.x .opa = 0 ∧ s.x .opb = 0
  · rw [exec_egcd_of_zero hz.1 hz.2] at hrun
    cases hrun
    exact .inl ⟨hz, rfl⟩
  by_cases hg : (Int.gcd (s.x .opa) (s.x .opb) : Int) = 2 ^ (s.cfg.width - 1)
  · rw [exec_egcd_of_gcd_eq hg] at hrun
    cases hrun
    exact .inr ⟨hg, rfl⟩
  · obtain ⟨g, x, y, hx⟩ := exists_extGcd_eq_some (not_and_or.1 hz)
    obtain ⟨u, hu, -, -, -, ⟨-, -, -, hcode', -⟩, -⟩ := exec_egcd_of_gcd_ne h hx hg
    cases hu.symm.trans hrun
    exact absurd (hcode.symm.trans hcode') (by decide)

/-- Settles O28: the triple returned is ExtGcd's, which is the recurrence's, and all of it fits. -/
theorem egcdResult : Obligations.EgcdResult := by
  intro s h hz hne
  obtain ⟨g, x, y, hx⟩ := exists_extGcd_eq_some hz
  obtain ⟨hbezout, hgcd, -⟩ := extGcd_spec hx
  obtain ⟨t, hrun, h0, h1, h2, hstate⟩ := exec_egcd_of_gcd_ne h hx hne
  refine ⟨t, hrun, ?_⟩
  rw [h0, h1, h2]
  refine ⟨hgcd, hbezout, extGcd_euclid hx, fun hb => extGcd_coeffs_of_right_zero hb hx, fun ha => ?_, fun hab => ?_, hstate⟩
  · exact extGcd_coeffs_of_dvd (ha ▸ dvd_zero _) hx
  · rw [hab] at hx ⊢
    exact extGcd_coeffs_of_dvd dvd_rfl hx

/-- Settles O29: the three pairs are those of gcd 2^(W-1), and no other operands but (0, 0) fail. -/
theorem egcdErrors : Obligations.EgcdErrors := by
  intro s h
  have hpairs := gcd_eq_bound_iff (h.x_range .opa) (h.x_range .opb)
  refine ⟨fun ha hb => exec_raises_failedWith (k := .arithmeticDomainError) (exec_egcd_of_zero ha hb),
    fun hp => exec_raises_failedWith (k := .arithmeticDomainError) (exec_egcd_of_gcd_eq (hpairs.2 hp)),
    fun t hrun hcode hinfo => ?_, fun t hrun hcode hinfo => ?_⟩
  · rcases exec_egcd_error_cases h hrun hcode with ⟨hz, -⟩ | ⟨-, hinfo'⟩
    · exact hz
    · exact absurd (hinfo.symm.trans hinfo') (by decide)
  · rcases exec_egcd_error_cases h hrun hcode with ⟨-, hinfo'⟩ | ⟨hg, -⟩
    · exact absurd (hinfo.symm.trans hinfo') (by decide)
    · exact hpairs.1 hg

/-! ## LCM (R173, R174) -/

/-- The true lcm is the v with v · gcd(a, b) = |a · b|. -/
theorem lcmValue_true_eq_some {a b v : Int} (hz : a ≠ 0 ∨ b ≠ 0) (hv : v * Int.gcd a b = |a * b|) :
    lcmValue true a b = some v := by
  obtain ⟨g, x, y, hx⟩ := exists_extGcd_eq_some hz
  obtain ⟨-, hgcd, hpos⟩ := extGcd_spec hx
  have hdiv : tdiv |a * b| g = v := by
    rw [← hv, ← hgcd, tdiv, Int.mul_tdiv_cancel _ hpos.ne']
  simp only [lcmValue, if_true, hx, hdiv]

theorem lcmValue_true_zero : lcmValue true 0 0 = none := by simp [lcmValue]

/-- `v` is what LCM computes of `a` and `b`: |a · b| in mode 0, their lcm in mode 1 (R173). -/
def IsLcm (lcmTrue : Bool) (a b v : Int) : Prop :=
  (lcmTrue = false ∧ v = |a * b|) ∨ (lcmTrue = true ∧ (a ≠ 0 ∨ b ≠ 0) ∧ v * Int.gcd a b = |a * b|)

theorem IsLcm.lcmValue_eq {lcmTrue : Bool} {a b v : Int} (h : IsLcm lcmTrue a b v) : lcmValue lcmTrue a b = some v := by
  rcases h with ⟨rfl, rfl⟩ | ⟨rfl, hz, hv⟩
  · rfl
  · exact lcmValue_true_eq_some hz hv

theorem IsLcm.nonneg {lcmTrue : Bool} {a b v : Int} (h : IsLcm lcmTrue a b v) : 0 ≤ v := by
  rcases h with ⟨-, rfl⟩ | ⟨-, hz, hv⟩
  · exact abs_nonneg _
  · have hpos : (0 : Int) < Int.gcd a b := by exact_mod_cast Int.gcd_pos_iff.2 hz
    exact nonneg_of_mul_nonneg_left (hv ▸ abs_nonneg _) hpos

/-- Settles O30, by whether there is a value and whether it fits. -/
theorem lcmResult : Obligations.LcmResult := by
  refine fun s h => ⟨fun htrue ha hb => exec_raises_failedWith (k := .arithmeticDomainError) ?_, fun v hv => ?_⟩
  · rw [exec, execLcm, htrue, ha, hb, lcmBody_of_none lcmValue_true_zero]
  have hlcm : IsLcm s.lcmTrue (s.x .opa) (s.x .opb) v := hv
  refine ⟨fun hle => ?_, fun hgt => exec_raises_failedWith (k := .arithmeticDomainError) ?_⟩
  · have hpow : (0 : Int) < 2 ^ (s.cfg.width - 1) := by positivity
    have hfits : fits s.cfg.width v = true := (fits_iff _ _).2 ⟨by have := hlcm.nonneg; omega, hle⟩
    have hrun : exec .lcm s = .next (s.finish (.ret [.big .res0 v])) := by
      rw [exec, execLcm, lcmBody_of_fits hlcm.lcmValue_eq hfits]
    exact ⟨_, hrun, finish_ret_one h hfits s.env (.refl _)⟩
  · rw [exec, execLcm, lcmBody_of_not_fits hlcm.lcmValue_eq (fits_eq_false_of_gt hgt)]

/-! ## RANDRANGE (R175, R176) -/

/-- A value between two registers' values fits (R176). -/
theorem State.Inv.fits_between {s : State} (h : s.Inv) (p q : BigReg) {v : Int} (hlo : min (s.x p) (s.x q) ≤ v)
    (hhi : v ≤ max (s.x p) (s.x q)) : fits s.cfg.width v = true := by
  have hp := h.x_range p
  have hq := h.x_range q
  rw [fits_iff]
  omega

/-- Settles O31: the value lies between the operands, so it fits. -/
theorem randrangeResult : Obligations.RandrangeResult := by
  intro s h
  have hk := drawPercent_range s.env
  obtain ⟨hlo, hhi, hlt⟩ := randInRange_between (s.x .opa) (s.x .opb) _ hk
  obtain ⟨hres, hdone, hbut, hkey, hmem, henv⟩ :=
    finish_ret_one h (r := .res0) (h.fits_between .opa .opb hlo hhi) s.env.drawPercent.2 (draw_sameHost s.env 0 99)
  refine ⟨_, s.env.drawPercent.1, rfl, rfl, hk, hres, ?_, ?_, ?_, hdone, hbut, hkey, hmem, henv.trans (draw_after s.env 0 99)⟩
  · exact hlo.trans_eq hres.symm
  · exact hres.trans_le hhi
  · exact fun hab => hres.trans_lt (hlt hab)

end Sys2Proof.Machine

/-!
PROOFS. The primality engine and KEYGEN's searches (spec/43_primality.md, spec/44_keygen.md): what one iteration of CANDPRIME,
RANDPRIME and KEYGEN answers by its draw, IsProbablyPrime by its bases, and the theorem of Miller and Rabin for a prime n.
-/
namespace Sys2Proof.Machine

/-! ## Commands that draw -/

/-- The state a command's step leaves: its answer takes effect, and the draws it took are gone. -/
def State.afterStep (s : State) (r : Answer × Env) : State := (s.withEnv r.2).finish r.1

/-! A drawing command's engine step, by what its pseudocode answers. -/

theorem exec_candprime {s : State} {r : Answer × Env} (h : candprimeStep s = r) :
    exec .candprime s = .next (s.afterStep r) := h ▸ rfl

theorem exec_mrtest {s : State} {r : Answer × Env} (h : mrtestStep s = r) :
    exec .mrtest s = .next (s.afterStep r) := h ▸ rfl

theorem exec_randprime {s : State} {r : Answer × Env} (h : randprimeStep s = r) :
    exec .randprime s = .next (s.afterStep r) := h ▸ rfl

theorem exec_keygen {s : State} {r : Answer × Env} (h : keygenStep s = r) :
    exec .keygen s = .next (s.afterStep r) := h ▸ rfl

/-- No answer touches the surroundings. -/
@[simp] theorem State.afterStep_env (s : State) (r : Answer × Env) : (s.afterStep r).env = r.2 := by
  obtain ⟨ans, e⟩ := r
  cases ans with
  | ret ws => exact complete_env _ _
  | raise k info => rfl
  | again phase rej => rfl

theorem Env.after_sameHost (e : Env) (k : Nat) : SameHost e (e.after k) := ⟨rfl, rfl⟩

/-- DrawBits is one draw (R50). -/
theorem drawBits_snd (e : Env) (b : Nat) : (e.drawBits b).2 = e.after 1 := draw_after e _ _

/-- DrawBits(b) lies in [2^(b-1), 2^b - 1] (R50). -/
theorem drawBits_bounds (e : Env) {b : Int} (hb : 1 ≤ b) :
    2 ^ (b.toNat - 1) ≤ (e.drawBits b.toNat).1 ∧ (e.drawBits b.toNat).1 ≤ 2 ^ b.toNat - 1 := by
  obtain ⟨hlo, hhi⟩ := drawBits_range e (b := b.toNat) (by omega)
  exact ⟨hlo, Nat.le_sub_one_of_lt hhi⟩

/-- A candidate of b < W bits fits (R192, R198). -/
theorem fits_drawBits (s : State) {b : Int} (hb : 1 ≤ b) (hw : b ≤ s.cfg.width - 1) :
    fits s.cfg.width (s.env.drawBits b.toNat).1 = true :=
  fits_of_lt_two_pow (by omega) (drawBits_range s.env (by omega)).2

/-! ## The bit-length checks (R199) -/

theorem checkBits_of_lt {b lo hi : Int} (h : b < lo) : checkBits b lo hi = some 1#8 := if_pos h

theorem checkBits_of_gt {b lo hi : Int} (hlo : lo ≤ b) (h : hi < b) : checkBits b lo hi = some 2#8 := by
  rw [checkBits, if_neg hlo.not_gt, if_pos h]

/-- The bounds a command's prime search puts on its bit length (R192, R198, R210). -/
def SearchBounds (s : State) (i : Instr) (lo hi : Int) : Prop :=
  (i = .candprime ∧ lo = 1 ∧ hi = s.cfg.width - 1) ∨ (i = .randprime ∧ lo = 2 ∧ hi = s.cfg.width - 1) ∨
    (i = .keygen ∧ lo = 2 ∧ hi = (s.cfg.width - 1) / 2)

/-- Each range of bit lengths has an element in every legal build (R7). -/
theorem SearchBounds.lo_le_hi {s : State} {i : Instr} {lo hi : Int} (hb : SearchBounds s i lo hi) (h : s.Inv) : lo ≤ hi := by
  obtain ⟨hw, -⟩ := (Params.wf_iff _).1 h.cfg_wf
  rcases hb with ⟨-, rfl, rfl⟩ | ⟨-, rfl, rfl⟩ | ⟨-, rfl, rfl⟩ <;> omega

/-- A failed check raises INVALID_LENGTH before anything is drawn. -/
theorem SearchBounds.exec_of_checkBits_some {s : State} {i : Instr} {lo hi : Int} (hb : SearchBounds s i lo hi) (h : s.Inv)
    {info : BitVec 8} (hc : checkBits (s.x .opa) lo hi = some info) :
    exec i s = .next (s.finish (.raise .invalidLength info)) := by
  rcases hb with ⟨rfl, rfl, rfl⟩ | ⟨rfl, rfl, rfl⟩ | ⟨rfl, rfl, rfl⟩
  · exact exec_candprime (r := (.raise .invalidLength info, s.env)) (by simp only [candprimeStep, hc])
  · exact exec_randprime (r := (.raise .invalidLength info, s.env)) (by simp only [randprimeStep, hc])
  · exact exec_keygen (r := (.raise .invalidLength info, s.env)) (by simp only [keygenStep, keygenMaxBits_eq h, hc])

/-- Settles O32: the first check that fails gives the sub-cause, and nothing is drawn before. -/
theorem bitLengthChecks : Obligations.BitLengthChecks := by
  intro s i lo hi hb h
  have hbounds : SearchBounds s i lo hi := hb
  refine ⟨fun hlt => ?_, fun hgt => ?_⟩
  · exact exec_raises_failedWith (k := .invalidLength) (hbounds.exec_of_checkBits_some h (checkBits_of_lt hlt))
  · have hlo : lo ≤ s.x .opa := (hbounds.lo_le_hi h).trans hgt.le
    exact exec_raises_failedWith (k := .invalidLength) (hbounds.exec_of_checkBits_some h (checkBits_of_gt hlo hgt))

/-! ## CANDPRIME (R191, R192) -/

theorem candprimeStep_of_filtered {s : State} (hb : 1 ≤ s.x .opa ∧ s.x .opa ≤ s.cfg.width - 1)
    (hf : filtered (s.env.drawBits (s.x .opa).toNat).1 = true) : candprimeStep s = (s.reject 1#8 .start, s.env.after 1) := by
  simp only [candprimeStep, checkBits_none.2 hb, hf, if_true, drawBits_snd]

theorem candprimeStep_of_not_filtered {s : State} (hb : 1 ≤ s.x .opa ∧ s.x .opa ≤ s.cfg.width - 1)
    (hf : ¬ filtered (s.env.drawBits (s.x .opa).toNat).1 = true) :
    candprimeStep s = (.ret [.big .res0 (s.env.drawBits (s.x .opa).toNat).1], s.env.after 1) := by
  simp only [candprimeStep, checkBits_none.2 hb, if_neg hf, drawBits_snd]

/-- Settles O33, by whether the filter rejects the candidate. -/
theorem candprimeIteration : Obligations.CandprimeIteration := by
  intro s h hlo hhi c
  obtain ⟨hcl, hch⟩ := drawBits_bounds s.env hlo
  by_cases hf : filtered c = true
  · have hc := (filtered_iff c).1 hf
    refine ⟨_, exec_candprime (candprimeStep_of_filtered ⟨hlo, hhi⟩ hf), State.afterStep_env _ _, hcl, hch,
      fun hodd => by omega, fun _ _ => ?_⟩
    exact reject_rejects h 1#8 .start _ (s.env.after_sameHost 1)
  · have hc := (filtered_iff c).not.1 hf
    obtain ⟨hres, hdone, hbut, hkey, hmem, henv⟩ :=
      finish_ret_one h (r := .res0) (fits_drawBits s hlo hhi) (s.env.after 1) (s.env.after_sameHost 1)
    exact ⟨_, exec_candprime (candprimeStep_of_not_filtered ⟨hlo, hhi⟩ hf), henv, hcl, hch,
      fun _ => ⟨hres, hdone, hbut, hkey, hmem⟩, fun heven hge => absurd ⟨heven, hge⟩ hc⟩

/-! ## IsProbablyPrime (R194) -/

theorem isProbablyPrime_of_le_one {n : Int} (hn : n ≤ 1) (e : Env) : isProbablyPrime n e = (false, e) := if_pos hn

theorem isProbablyPrime_two (e : Env) : isProbablyPrime 2 e = (true, e) := rfl

theorem isProbablyPrime_of_three_le {n : Int} (hn : 3 ≤ n) (e : Env) : isProbablyPrime n e = probeRounds n 20 e := by
  rw [isProbablyPrime, if_neg (by omega), if_neg (by omega), Config.mrRounds]

/-- Twenty inconclusive rounds: "prime", after twenty draws. -/
theorem isProbablyPrime_of_inconclusive {n : Int} (hn : 3 ≤ n) {e : Env} (h : ∀ j, j < 20 → Inconclusive n (baseAt e n j)) :
    isProbablyPrime n e = (true, e.after 20) := by
  rw [isProbablyPrime_of_three_le hn]
  exact (probeRounds_spec 20 e).1 fun j hj => (inconclusive_iff (by omega) _).1 (h j hj)

/-- A first witness in round j: "not prime", after j + 1 draws. -/
theorem isProbablyPrime_of_witness {n : Int} (hn : 3 ≤ n) {e : Env} {j : Nat} (hj : j < 20)
    (hw : ¬ Inconclusive n (baseAt e n j)) (h : ∀ k, k < j → Inconclusive n (baseAt e n k)) :
    isProbablyPrime n e = (false, e.after (j + 1)) := by
  rw [isProbablyPrime_of_three_le hn]
  exact (probeRounds_spec 20 e).2 j hj (Bool.eq_false_iff.2 fun hp => hw ((inconclusive_iff (by omega) _).2 hp))
    fun k hk => (inconclusive_iff (by omega) _).1 (h k hk)

/-! ## MRTEST (R196) -/

/-- MRTEST's verdict as a number fits. -/
theorem State.Inv.fits_verdict {s : State} (h : s.Inv) (b : Bool) : fits s.cfg.width (if b then 1 else 0) = true := by
  have hw := h.width_ge
  have hpow : (2 : Int) ^ 1 ≤ 2 ^ (s.cfg.width - 1) := pow_le_pow_right₀ (by norm_num) (by omega)
  rw [fits_iff]
  cases b <;> simp <;> omega

/-- MRTEST leaves IsProbablyPrime's verdict in RES0, and takes its draws. -/
theorem exec_mrtest_verdict {s : State} (h : s.Inv) {b : Bool} {e : Env} (hv : isProbablyPrime (s.x .opa) s.env = (b, e)) :
    ∃ t, exec .mrtest s = .next t ∧ t.x .res0 = (if b then 1 else 0) ∧ Completed s t ∧ SameBut [.res0] s t ∧
      t.keyValid = s.keyValid ∧ SameMemory s t ∧ t.env = e := by
  have hstep : mrtestStep s = (.ret [.big .res0 (if b then 1 else 0)], e) := by rw [mrtestStep, hv]
  have he : SameHost s.env e := by simpa only [hv] using isProbablyPrime_sameHost (s.x .opa) s.env
  exact ⟨_, exec_mrtest hstep, finish_ret_one h (h.fits_verdict b) e he⟩

/-- Settles O34: RES0 and the draws are IsProbablyPrime's, by the range of n and the first witness among the bases. -/
theorem mrtestVerdict : Obligations.MrtestVerdict := by
  intro s h
  rcases hv : isProbablyPrime (s.x .opa) s.env with ⟨b, e⟩
  obtain ⟨t, hx, hres, hdone, hbut, hkey, hmem, henv⟩ := exec_mrtest_verdict h hv
  have hverdict : ∀ {b' : Bool} {e' : Env}, isProbablyPrime (s.x .opa) s.env = (b', e') →
      t.x .res0 = (if b' then 1 else 0) ∧ t.env = e' := fun hv' => by
    cases hv.symm.trans hv'
    exact ⟨hres, henv⟩
  refine ⟨t, hx, hdone, hbut, hkey, hmem, fun hn => ?_, fun hn => ?_,
    fun hn => ⟨?_, fun hall => ?_, fun j hj hw hbefore => ?_⟩⟩
  · exact hverdict (isProbablyPrime_of_le_one hn _)
  · exact hverdict (hn ▸ isProbablyPrime_two _)
  · exact baseAt_range s.env hn
  · exact hverdict (isProbablyPrime_of_inconclusive hn hall)
  · exact hverdict (isProbablyPrime_of_witness hn hj hw hbefore)

/-! ## A prime has no witness (R195) -/

/-- Where 1 has no square roots but ±1, a 2^r-th root of 1 is 1, or one of its first r repeated squares is -1. -/
theorem eq_one_or_exists_sq_eq_neg_one {R : Type} [Ring R] [NoZeroDivisors R] {x : R} {r : Nat} (h : x ^ 2 ^ r = 1) :
    x = 1 ∨ ∃ i, i < r ∧ x ^ 2 ^ i = -1 := by
  induction r with
  | zero => exact .inl (by simpa using h)
  | succ r ih =>
    rw [pow_succ 2 r, pow_mul, pow_two, mul_self_eq_one_iff] at h
    rcases h with hone | hneg
    · exact (ih hone).imp_right fun ⟨i, hi, hx⟩ => ⟨i, by omega, hx⟩
    · exact .inr ⟨r, by omega, hneg⟩

/-- A residue in [0, p) is determined by its class. -/
theorem emod_eq_of_zmod_eq {p : Nat} {x y : Int} (h0 : 0 ≤ y) (hlt : y < p) (h : (x : ZMod p) = y) : x % p = y :=
  ((ZMod.intCast_eq_intCast_iff' x y p).1 h).trans (Int.emod_eq_of_lt h0 hlt)

/-- Miller and Rabin: for a prime p, by Fermat, a^d is a 2^r-th root of 1 in the field of p elements. -/
theorem inconclusive_of_prime {p : Nat} (hp : p.Prime) {a : Int} (ha : 0 < a) (hap : a < p) : Inconclusive p a := by
  intro d r _ hdr
  have hfact := Fact.mk hp
  have hp2 := hp.two_le
  have hne : (a : ZMod p) ≠ 0 := fun h => by
    have hdvd := (ZMod.intCast_zmod_eq_zero_iff_dvd a p).1 h
    have := Int.le_of_dvd ha hdvd
    omega
  have hexp : p - 1 = d * 2 ^ r := by
    zify [hp.one_le]
    exact hdr
  have hroot : ((a : ZMod p) ^ d) ^ 2 ^ r = 1 := by
    rw [← pow_mul, ← hexp]
    exact ZMod.pow_card_sub_one_eq_one hne
  refine (eq_one_or_exists_sq_eq_neg_one hroot).imp (fun hone => ?_) (fun ⟨i, hi, hneg⟩ => ⟨i, hi, ?_⟩)
  · exact emod_eq_of_zmod_eq (by omega) (by omega) (by push_cast; exact hone)
  · exact emod_eq_of_zmod_eq (by omega) (by omega) (by push_cast; rw [pow_mul, hneg, ZMod.natCast_self, zero_sub])

/-- IsProbablyPrime is right about every prime, whatever is drawn. -/
theorem isProbablyPrime_of_prime {p : Nat} (hp : p.Prime) (e : Env) : ∃ e', isProbablyPrime p e = (true, e') := by
  by_cases h2 : p = 2
  · subst h2
    exact ⟨e, isProbablyPrime_two e⟩
  · have hp3 : (3 : Int) ≤ p := by
      have := hp.two_le
      omega
    refine ⟨_, isProbablyPrime_of_inconclusive hp3 fun j _ => ?_⟩
    obtain ⟨hlo, hhi⟩ := baseAt_range e hp3 j
    exact inconclusive_of_prime hp (by omega) hhi

/-- Settles O35: a prime has no witness. -/
theorem mrtestPrimeAlwaysOne : Obligations.MrtestPrimeAlwaysOne := by
  intro s h hp
  have hn : ((s.x .opa).toNat : Int) = s.x .opa := Int.toNat_of_nonneg (by have := hp.two_le; omega)
  obtain ⟨e, hv⟩ := isProbablyPrime_of_prime hp s.env
  rw [hn] at hv
  obtain ⟨t, hx, hres, hdone, -⟩ := exec_mrtest_verdict h hv
  exact ⟨t, hx, hres, hdone⟩

/-- Both bases of [2, 4) are witnesses of 4. -/
theorem not_inconclusive_four {a : Int} (h2 : 2 ≤ a) (h4 : a < 4) : ¬ Inconclusive 4 a := by
  rw [inconclusive_iff (by decide)]
  obtain rfl | rfl : a = 2 ∨ a = 3 := by omega
  · decide
  · decide

/-- Settles O36: the first base is a witness. -/
theorem mrtestFourAlwaysZero : Obligations.MrtestFourAlwaysZero := by
  intro s h hn
  obtain ⟨h2, h4⟩ := baseAt_range s.env (n := 4) (by decide) 0
  have hv : isProbablyPrime (s.x .opa) s.env = (false, s.env.after 1) := by
    rw [hn]
    exact isProbablyPrime_of_witness (by decide) (by decide) (not_inconclusive_four h2 h4) fun k hk => by omega
  obtain ⟨t, hx, hres, hdone, -, -, -, henv⟩ := exec_mrtest_verdict h hv
  exact ⟨t, hx, hres, hdone, henv⟩

/-! ## Prime searches (R197, R198, R212) -/

/-- The draws of a prime search's iteration leave the host's side alone. -/
theorem searchDraws_sameHost (e : Env) (c : Int) : SameHost e (isProbablyPrime c (e.after 1)).2 :=
  (e.after_sameHost 1).trans (isProbablyPrime_sameHost c _)

/-- RANDPRIME's iteration is a prime search that returns what it finds. -/
theorem randprimeStep_of_bounds {s : State} (hb : 2 ≤ s.x .opa ∧ s.x .opa ≤ s.cfg.width - 1) :
    randprimeStep s = keygenPrime s .start fun c => .ret [.big .res0 c] := by
  simp only [randprimeStep, checkBits_none.2 hb]
  rfl

theorem keygenStep_of_start {s : State} (hb : checkBits (s.x .opa) 2 (keygenMaxBits s.cfg.width) = none)
    (hph : s.prog.phase = .start) : keygenStep s = keygenPrime s .start fun p => .again (.keygenQ p) s.prog.rej := by
  simp only [keygenStep, hb, hph]

theorem keygenStep_of_keygenQ {s : State} (hb : checkBits (s.x .opa) 2 (keygenMaxBits s.cfg.width) = none) {p : Int}
    (hph : s.prog.phase = .keygenQ p) : keygenStep s = keygenPrime s (.keygenQ p) fun q => keygenModulus s p q := by
  simp only [keygenStep, hb, hph]

theorem keygenStep_of_keygenE {s : State} (hb : checkBits (s.x .opa) 2 (keygenMaxBits s.cfg.width) = none) {n lam : Int}
    (hph : s.prog.phase = .keygenE n lam) : keygenStep s = keygenExponent s n lam := by
  simp only [keygenStep, hb, hph]

/-- An iteration of a command's prime search: a rejection of loop 1 or 2, or the candidate is found and `next` follows. -/
theorem exec_primeSearch {i : Instr} {s : State} (h : s.Inv) {phase : Phase} {next : Nat → Answer}
    (hx : exec i s = .next (s.afterStep (keygenPrime s phase next))) :
    let c := (s.env.drawBits (s.x .opa).toNat).1
    let v := isProbablyPrime c (s.env.after 1)
    ∃ t, exec i s = .next t ∧
      (c % 2 = 0 → 4 ≤ c → Rejects 1#8 phase s t ∧ t.env = s.env.after 1) ∧
      (c % 2 = 1 ∨ c < 4 → v.1 = false → Rejects 2#8 phase s t ∧ t.env = v.2) ∧
      (c % 2 = 1 ∨ c < 4 → v.1 = true → t = s.afterStep (next c, v.2)) := by
  intro c v
  obtain ⟨heven, hcomposite, hfound⟩ := primeIteration_cases (s.x .opa).toNat s.env
  refine ⟨_, hx, fun h0 h4 => ?_, fun hodd hv => ?_, fun hodd hv => ?_⟩
  · simp only [keygenPrime, heven h0 h4]
    exact ⟨reject_rejects h 1#8 phase _ (s.env.after_sameHost 1), State.afterStep_env _ _⟩
  · simp only [keygenPrime, hcomposite hodd hv]
    exact ⟨reject_rejects h 2#8 phase _ (searchDraws_sameHost s.env c), State.afterStep_env _ _⟩
  · simp only [keygenPrime, hfound hodd hv]
    rfl

/-- Settles O37: a found candidate is returned. -/
theorem randprimeIteration : Obligations.RandprimeIteration := by
  intro s h hlo hhi c v
  obtain ⟨t, hx, heven, hcomposite, hfound⟩ := exec_primeSearch h (exec_randprime (randprimeStep_of_bounds ⟨hlo, hhi⟩))
  obtain ⟨hcl, hch⟩ := drawBits_bounds s.env (b := s.x .opa) (by omega)
  refine ⟨t, hx, hcl, hch, heven, hcomposite, fun hodd hv => ?_⟩
  rw [hfound hodd hv]
  exact finish_ret_one h (fits_drawBits s (by omega) hhi) v.2 (searchDraws_sameHost s.env c)

/-- With p at least 2 there is a λ, so the modulus never fails, and the exponent search begins (R212, R173). -/
theorem exists_keygenModulus_eq {p : Int} (s : State) (hp : 2 ≤ p) (q : Int) :
    ∃ lam, keygenModulus s p q = .again (.keygenE (p * q) lam) s.prog.rej ∧
      (s.lcmTrue = false → lam = |(p - 1) * (q - 1)|) ∧
      (s.lcmTrue = true → lam * Int.gcd (p - 1) (q - 1) = |(p - 1) * (q - 1)|) := by
  obtain ⟨lam, hlam, hspec⟩ := lcmValue_some s.lcmTrue (p := p - 1) (q := q - 1) (by omega)
  exact ⟨lam, by simp only [keygenModulus, hlam], hspec⟩

/-- Settles O38, by which prime is searched for. -/
theorem keygenPrimeSearch : Obligations.KeygenPrimeSearch := by
  intro s h hlo hhi c v hphase
  have hb : checkBits (s.x .opa) 2 (keygenMaxBits s.cfg.width) = none :=
    checkBits_none.2 ⟨hlo, (keygenMaxBits_eq h).symm ▸ hhi⟩
  have hhost : SameHost s.env v.2 := searchDraws_sameHost s.env c
  rcases hphase with hph | ⟨p, hph⟩
  · obtain ⟨t, hx, heven, hcomposite, hfound⟩ := exec_primeSearch h (exec_keygen (keygenStep_of_start hb hph))
    rw [hph]
    refine ⟨t, hx, heven, hcomposite, fun hodd hv => ?_⟩
    rw [hfound hodd hv]
    exact ⟨State.afterStep_env _ _, fun _ => again_advances h _ _ hhost, fun _ hq => nomatch hq⟩
  · obtain ⟨t, hx, heven, hcomposite, hfound⟩ := exec_primeSearch h (exec_keygen (keygenStep_of_keygenQ hb hph))
    have hok := h.phaseOk
    rw [hph] at hok ⊢
    obtain ⟨-, -, hp, -⟩ := hok
    refine ⟨t, hx, heven, hcomposite, fun hodd hv => ?_⟩
    rw [hfound hodd hv]
    obtain ⟨lam, hmod, hplain, htrue⟩ := exists_keygenModulus_eq s hp c
    refine ⟨State.afterStep_env _ _, ?_, ?_⟩
    · rintro ⟨⟩
    · rintro _ ⟨⟩
      rw [hmod]
      exact ⟨lam, hplain, htrue, again_advances h _ _ hhost⟩

/-! ## The exponent search (R211) -/

/-- DrawPercent is one draw (R50). -/
theorem drawPercent_snd (e : Env) : e.drawPercent.2 = e.after 1 := draw_after e _ _

theorem keygenExponent_of_rejected {s : State} {n lam : Int}
    (hacc : ¬ acceptsExponent (3 + 65535 * s.env.drawPercent.1 / 100) lam = true) :
    keygenExponent s n lam = (s.reject 3#8 (.keygenE n lam), s.env.after 1) := by
  simp only [keygenExponent, exponent_value, if_neg hacc, drawPercent_snd]

/-- Settles O40: ChooseExponent's test fails. -/
theorem keygenExponentRejected : Obligations.KeygenExponentRejected := by
  intro s n lam h hph e hrej
  have hacc : ¬ acceptsExponent e lam = true := by
    rw [acceptsExponent_iff e lam (by omega)]
    rintro ⟨hlt, hgcd⟩
    exact hrej.elim hlt.not_ge fun hne => hne hgcd
  have hstep := (keygenStep_of_keygenE (keygenE_checkBits h hph) hph).trans (keygenExponent_of_rejected hacc)
  exact ⟨_, exec_keygen hstep, State.afterStep_env _ _, reject_rejects h _ _ _ (s.env.after_sameHost 1)⟩

end Sys2Proof.Machine

/-!
PROOFS. The key generator (spec/44_keygen.md): the private exponent and the completion of KEYGEN, the errors KEYGEN can raise, and
KEYDIGITS.
-/
namespace Sys2Proof.Machine

/-! ## The private exponent (R212, R216) -/

/-- |x| ≤ b is strict and x ≠ 0, since b does not divide x: else it would divide a · x + b · y = 1 (R216). -/
theorem extGcd_coeff_of_coprime {a b g x y : Int} (hb : 1 < b) (hgcd : Int.gcd a b = 1) (h : extGcd a b = some (g, x, y)) :
    a * x + b * y = 1 ∧ x ≠ 0 ∧ |x| < b := by
  obtain ⟨hbezout, hg, -⟩ := extGcd_spec h
  have hg1 : g = 1 := by rw [hg, hgcd, Nat.cast_one]
  subst hg1
  have hndvd : ¬ b ∣ x := fun hd => by
    have hone : b ∣ 1 := hbezout ▸ dvd_add (hd.mul_left a) (dvd_mul_right b y)
    have := Int.le_of_dvd one_pos hone
    omega
  have hx0 : x ≠ 0 := fun h0 => hndvd (h0 ▸ dvd_zero b)
  have hle : |x| ≤ b := by simpa [abs_of_pos (one_pos.trans hb)] using extGcd_coeff (by omega) h
  exact ⟨hbezout, hx0, lt_of_le_of_ne hle fun heq => hndvd ((dvd_abs b x).1 (heq ▸ dvd_rfl))⟩

/-- d lies in [1, λ) and inverts e modulo λ (R216). -/
theorem privateExponent_spec {e lam : Int} (hlam : 1 < lam) (hgcd : Int.gcd e lam = 1) :
    1 ≤ privateExponent e lam ∧ privateExponent e lam < lam ∧ e * privateExponent e lam % lam = 1 := by
  obtain ⟨g, x, y, hx⟩ := exists_extGcd_eq_some (a := e) (b := lam) (.inr (by omega))
  obtain ⟨hbezout, hx0, habs⟩ := extGcd_coeff_of_coprime hlam hgcd hx
  obtain ⟨hlo, hhi⟩ := abs_lt.1 habs
  have hinv : e * x % lam = 1 := by
    rw [← Int.add_mul_emod_self_left (e * x) lam y, hbezout]
    exact Int.emod_eq_of_lt (by omega) hlam
  simp only [privateExponent, hx]
  split
  · exact ⟨by omega, by omega, by rwa [mul_add, mul_comm e lam, Int.add_mul_emod_self_left]⟩
  · exact ⟨by omega, hhi, hinv⟩

/-! ## KEYGEN's completion (R213) -/

theorem keygenExponent_of_accepted {s : State} {n lam : Int}
    (hacc : acceptsExponent (3 + 65535 * s.env.drawPercent.1 / 100) lam = true) :
    keygenExponent s n lam = (.ret (keygenWrites n (3 + 65535 * s.env.drawPercent.1 / 100)
      (privateExponent (3 + 65535 * s.env.drawPercent.1 / 100) lam) lam), s.env.after 1) := by
  simp only [keygenExponent, exponent_value, if_pos hacc, drawPercent_snd]

/-- KEYGEN's writes complete the command, whatever was drawn before (R133). -/
theorem afterStep_keygenWrites {s : State} (h : s.Inv) (n e d lam : Int) (env : Env) :
    s.afterStep (.ret (keygenWrites n e d lam), env) = (s.withEnv env).complete (keygenWrites n e d lam) := by
  rw [State.afterStep, State.finish, State.prog_withEnv, h.pending_nil, List.nil_append]

/-- A value from 0 up to one that fits fits. -/
theorem fits_of_le {w : Nat} {v u : Int} (hv : 0 ≤ v) (hle : v ≤ u) (hu : fits w u = true) : fits w v = true := by
  have hpow : (0 : Int) < 2 ^ (w - 1) := by positivity
  rw [fits_iff] at hu ⊢
  omega

/-- KEYGEN writes no memory (R114). -/
theorem not_mayWrite_keygen (s : State) (a : Nat) : ¬ mayWrite .keygen s a := by
  rintro (⟨⟨⟩, -⟩ | ⟨⟨⟩, -⟩)

/-- Settles O39: the exponent is accepted, d is its inverse, and every output fits, being at most n or λ. -/
theorem keygenCompletes : Obligations.KeygenCompletes := by
  intro s n lam h hph e hlt hgcd
  have he : 3 ≤ e := by omega
  obtain ⟨hd1, hdlt, hinv⟩ := privateExponent_spec (by omega) hgcd
  obtain ⟨hfn, hflam⟩ := keygenE_fits h hph
  have hfe : fits s.cfg.width e = true := fits_of_le (by omega) hlt.le hflam
  have hfd : fits s.cfg.width (privateExponent e lam) = true := fits_of_le (by omega) hdlt.le hflam
  have hstep := (keygenStep_of_keygenE (keygenE_checkBits h hph) hph).trans
    (keygenExponent_of_accepted ((acceptsExponent_iff e lam (by omega)).2 ⟨hlt, hgcd⟩))
  have hx := exec_keygen hstep
  obtain ⟨hbut, -, hmem⟩ := commandWritesOnlyItsTargets .keygen s _ h hx
  rw [afterStep_keygenWrites h] at hx hbut hmem
  obtain ⟨h0, h1, h2, h3, hN, hE, hD⟩ := complete_keygenWrites (s' := s.withEnv (s.env.after 1)) (n := n) s.cfg.width
    h.cfg_wf rfl hfn hfe hfd hflam
  rw [← h2] at hd1 hdlt hinv
  exact ⟨_, hx, complete_env _ _, h0, h1, h3, hd1, hdlt, hinv, hN, hE, hD.trans h2.symm, rfl,
    complete_completed (s.withEnv (s.env.after 1)) _, hbut, fun a => hmem a (not_mayWrite_keygen s a)⟩

/-! ## KEYGEN's errors (R210, R213) -/

/-- An error KEYGEN may report: INVALID_LENGTH or GENERATION_TIMEOUT (R213). -/
def KeygenError (k : ErrorKind) : Prop := k = .invalidLength ∨ k = .generationTimeout

/-- A rejection raises no error but GENERATION_TIMEOUT (R190). -/
theorem keygenError_of_reject {s : State} {loop info : BitVec 8} {phase : Phase} {k : ErrorKind}
    (h : s.reject loop phase = .raise k info) : KeygenError k := by
  rcases reject_cases s loop phase with ⟨hr, -⟩ | ⟨hr, -⟩
  · cases hr.symm.trans h
    exact .inr rfl
  · cases hr.symm.trans h

/-- A prime search whose continuation raises nothing raises only by a rejection. -/
theorem keygenError_of_keygenPrime {s : State} {phase : Phase} {next : Nat → Answer} {k : ErrorKind} {info : BitVec 8}
    (hnext : ∀ c, next c ≠ .raise k info) (h : (keygenPrime s phase next).1 = .raise k info) : KeygenError k := by
  unfold keygenPrime at h
  split at h
  · exact absurd h (hnext _)
  · exact keygenError_of_reject h

/-- The exponent search raises only by a rejection. -/
theorem keygenError_of_keygenExponent {s : State} {n lam : Int} {k : ErrorKind} {info : BitVec 8}
    (h : (keygenExponent s n lam).1 = .raise k info) : KeygenError k := by
  by_cases hacc : acceptsExponent (3 + 65535 * s.env.drawPercent.1 / 100) lam = true
  · rw [keygenExponent_of_accepted hacc] at h
    cases h
  · rw [keygenExponent_of_rejected hacc] at h
    exact keygenError_of_reject h

/-- The one other error of the pseudocode, a missing λ, cannot arise: a found p is at least 2 (R210, R173). -/
theorem keygenError_of_keygenStep {s : State} (h : s.Inv) {k : ErrorKind} {info : BitVec 8}
    (hr : (keygenStep s).1 = .raise k info) : KeygenError k := by
  cases hb : checkBits (s.x .opa) 2 (keygenMaxBits s.cfg.width) with
  | some info' =>
    simp only [keygenStep, hb] at hr
    cases hr
    exact .inl rfl
  | none =>
    have hok := h.phaseOk
    cases hph : s.prog.phase with
    | start =>
      rw [keygenStep_of_start hb hph] at hr
      refine keygenError_of_keygenPrime (fun c hc => ?_) hr
      cases hc
    | keygenQ p =>
      rw [hph] at hok
      obtain ⟨-, -, hp, -⟩ := hok
      rw [keygenStep_of_keygenQ hb hph] at hr
      refine keygenError_of_keygenPrime (fun q hq => ?_) hr
      obtain ⟨lam, hmod, -⟩ := exists_keygenModulus_eq s hp q
      cases hmod.symm.trans hq
    | keygenE n lam =>
      rw [keygenStep_of_keygenE hb hph] at hr
      exact keygenError_of_keygenExponent hr

/-- ERR rises only by a raised error: a completion and going on leave it (R133, R132). -/
theorem exists_raise_of_finish_err {s : State} {ans : Answer} (hs : s.err = false) (ht : (s.finish ans).err = true) :
    ∃ k info, ans = .raise k info := by
  cases ans with
  | ret ws =>
    obtain ⟨-, -, hsame, -⟩ := complete_completed s (s.prog.pending ++ ws)
    exact absurd (ht.symm.trans (hsame.trans hs)) (by decide)
  | raise k info => exact ⟨k, info, rfl⟩
  | again phase rej => exact absurd (ht.symm.trans hs) (by decide)

/-- Settles O41: ERR rises only when KEYGEN's step raises an error, which is one of the two. -/
theorem keygenErrors : Obligations.KeygenErrors := by
  intro s t h hx herr hs
  injection hx with hx
  subst hx
  obtain ⟨k, info, hr⟩ := exists_raise_of_finish_err (s := s.withEnv (keygenStep s).2) hs herr
  rw [hr]
  exact (keygenError_of_keygenStep h hr).imp (congrArg ErrorKind.code) (congrArg ErrorKind.code)

/-! ## KEYDIGITS (R214, R215) -/

theorem keydigitsBody_of_nonneg {b : Int} (hb : 0 ≤ b) : keydigitsBody b = .ret [.big .res0 (keyDigitsOf b.toNat)] :=
  if_neg hb.not_gt

theorem keydigitsBody_of_neg {b : Int} (hb : b < 0) : keydigitsBody b = .raise .invalidLength 1#8 := if_pos hb

/-- 2^b has at most b decimal digits, for b ≥ 1 (R215). -/
theorem keyDigitsOf_le (b : Nat) : keyDigitsOf b ≤ max 1 b := by
  obtain ⟨-, -, hleast⟩ := keyDigitsOf_spec b
  refine hleast _ (le_max_left 1 b) ?_
  calc 2 ^ b ≤ 2 ^ max 1 b := Nat.pow_le_pow_right two_pos (le_max_right 1 b)
    _ < 10 ^ max 1 b := Nat.pow_lt_pow_left (by norm_num) (by omega)

/-- KEYDIGITS' result fits wherever its operand does. -/
theorem State.Inv.fits_keyDigitsOf {s : State} (h : s.Inv) {b : Int} (hf : fits s.cfg.width b = true) :
    fits s.cfg.width (keyDigitsOf b.toNat) = true := by
  have hle := keyDigitsOf_le b.toNat
  rcases le_total b.toNat 1 with hsmall | hlarge
  · exact fits_of_le (u := 1) (by omega) (by omega) (h.fits_verdict true)
  · exact fits_of_le (by omega) (by omega) hf

/-- Settles O43, by the sign of the operand. -/
theorem keydigitsResult : Obligations.KeydigitsResult := by
  refine fun s h => ⟨fun hb => ?_, fun hb => exec_raises_failedWith (k := .invalidLength) ?_⟩
  · obtain ⟨hk1, hlt, hleast⟩ := keyDigitsOf_spec (s.x .opa).toNat
    have hrun : exec .keydigits s = .next (s.finish (.ret [.big .res0 (keyDigitsOf (s.x .opa).toNat)])) := by
      rw [exec, execKeydigits, keydigitsBody_of_nonneg hb]
    obtain ⟨hres, hstate⟩ := finish_ret_one h (r := .res0) (h.fits_keyDigitsOf (h.x_fits .opa)) s.env (.refl _)
    exact ⟨_, _, hrun, hres, hk1, hlt, hleast, hstate⟩
  · rw [exec, execKeydigits, keydigitsBody_of_neg hb]

end Sys2Proof.Machine

/-!
PROOFS. The cipher datapath (spec/45_cipher.md): the checks of ENCRYPT and DECRYPT and the error of each, when their element loops
fault, the elements they leave, and their round trip under a valid RSA triple.
-/
namespace Sys2Proof.Machine

/-! ## The checks (R230, R256) -/

/-- No required key is missing when every required bit of KEYVALID is 1 (R230). -/
theorem missingKeys_eq_zero_of_and_eq {need kv : BitVec 3} (h : kv &&& need = need) : missingKeys need kv = 0#3 := by
  revert need kv
  decide

theorem cipherChecks_of_missing {s : State} {key : BigReg}
    (hm : missingKeys (keyBit key ||| keyBit .keyN) s.keyValid ≠ 0#3) : cipherChecks s key =
      .error (.missingKeyMaterial, (missingKeys (keyBit key ||| keyBit .keyN) s.keyValid).setWidth 8) :=
  if_pos hm

section
variable {s : State} {key : BigReg} (hm : missingKeys (keyBit key ||| keyBit .keyN) s.keyValid = 0#3)
include hm

theorem cipherChecks_of_maxLen_lt (hl : s.cfg.maxLen < s.msgLen.toNat) :
    cipherChecks s key = .error (.invalidLength, 3#8) :=
  (if_neg (not_not.2 hm)).trans (if_pos hl)

theorem cipherChecks_of_modulus_nonpos (hl : s.msgLen.toNat ≤ s.cfg.maxLen) (hn : s.x .keyN ≤ 0) :
    cipherChecks s key = .error (.invalidModulus, 1#8) :=
  (if_neg (not_not.2 hm)).trans ((if_neg hl.not_gt).trans (if_pos hn))

theorem cipherChecks_of_exponent_neg (hl : s.msgLen.toNat ≤ s.cfg.maxLen) (hn : 0 < s.x .keyN) (he : s.x key < 0) :
    cipherChecks s key = .error (.negativeExponent, 0#8) :=
  (if_neg (not_not.2 hm)).trans ((if_neg hl.not_gt).trans ((if_neg hn.not_ge).trans (if_pos he)))

end

/-! ## A cipher command's step, by its checks and its element loop -/

section
variable {s : State} {key : BigReg} {writes : Int → Nat → Nat → Nat → Except Fault (List PendingWrite)}

theorem cipherRun_of_error {e : ErrorKind} {info : BitVec 8} (hc : cipherChecks s key = .error (e, info)) :
    cipherRun s key writes = .next (s.finish (.raise e info)) := by
  simp only [cipherRun, hc]

/-- Past its checks, a cipher command whose element loop succeeds commits the loop's writes (R133). -/
theorem cipherRun_of_writes (hp : s.prog.pending = []) {len k : Nat} {n : Int} {ws : List PendingWrite}
    (hc : cipherChecks s key = .ok (len, n, k)) (hw : writes n k len 0 = .ok ws) :
    cipherRun s key writes = .next (s.complete ws) := by
  simp only [cipherRun, hc, hw, State.finish, hp, List.nil_append]

/-- Past its checks, a cipher command faults exactly as its element loop does (U9). -/
theorem cipherRun_eq_fault_iff {len k : Nat} {n : Int} (hc : cipherChecks s key = .ok (len, n, k)) (f : Fault) :
    cipherRun s key writes = .fault f ↔ writes n k len 0 = .error f := by
  simp only [cipherRun, hc]
  cases writes n k len 0 <;> simp

end

/-- Settles O46: both commands are one run of R230's checks, and each check raises its error when those before it pass. -/
theorem cipherChecksInOrder : Obligations.CipherChecksInOrder := by
  intro s i key need _ hcmd
  obtain ⟨writes, hx, rfl⟩ : ∃ writes, exec i s = cipherRun s key writes ∧ need = keyBit key ||| keyBit .keyN := by
    rcases hcmd with ⟨rfl, rfl, rfl⟩ | ⟨rfl, rfl, rfl⟩
    · exact ⟨encryptWrites s, rfl, rfl⟩
    · exact ⟨decryptWrites s, rfl, rfl⟩
  have fails : ∀ {k info}, cipherChecks s key = .error (k, info) →
      ∃ t, exec i s = .next t ∧ FailedWith k.code info s t ∧ t.env = s.env := fun hc =>
    exec_raises_failedWith (hx.trans (cipherRun_of_error hc))
  exact ⟨fun hm => fails (cipherChecks_of_missing hm), fun hm hl => fails (cipherChecks_of_maxLen_lt hm hl),
    fun hm hl hn => fails (cipherChecks_of_modulus_nonpos hm hl hn),
    fun hm hl hn he => fails (cipherChecks_of_exponent_neg hm hl hn he)⟩

/-! ## The element loops (R231, R232) -/

/-- ENCRYPT's loop, where it succeeds, has read each of its elements and writes its power. -/
theorem exists_mem_of_encryptWrites_ok {s : State} {n : Int} {e : Nat} (count : Nat) : ∀ {i : Nat} {ws : List PendingWrite},
    encryptWrites s n e count i = .ok ws → ∀ {k : Nat}, i ≤ k → k < i + count →
      ∃ m, s.msgByte k = .ok m ∧ .ct k (modPow m.toNat e n) ∈ ws := by
  induction count with
  | zero => intro i ws _ k hlo hhi; omega
  | succ count ih =>
    intro i ws h k hlo hhi
    unfold encryptWrites at h
    split at h
    · cases h
    · next m hm =>
      split at h
      · cases h
      · next ws' hw =>
        cases h
        rcases hlo.eq_or_lt with rfl | hlt
        · exact ⟨m, hm, List.mem_cons_self⟩
        · obtain ⟨m', hm', hmem⟩ := ih hw hlt (by omega)
          exact ⟨m', hm', List.mem_cons_of_mem _ hmem⟩

/-- DECRYPT's loop, where it succeeds, has read each of its elements and writes its power's low byte. -/
theorem exists_mem_of_decryptWrites_ok {s : State} {n : Int} {d : Nat} (count : Nat) : ∀ {i : Nat} {ws : List PendingWrite},
    decryptWrites s n d count i = .ok ws → ∀ {k : Nat}, i ≤ k → k < i + count →
      ∃ c, s.ctWords k = .ok c ∧ .msg k (BitVec.ofInt 8 (modPow (sint c) d n)) ∈ ws := by
  induction count with
  | zero => intro i ws _ k hlo hhi; omega
  | succ count ih =>
    intro i ws h k hlo hhi
    unfold decryptWrites at h
    split at h
    · cases h
    · next c hc =>
      split at h
      · cases h
      · next ws' hw =>
        cases h
        rcases hlo.eq_or_lt with rfl | hlt
        · exact ⟨c, hc, List.mem_cons_self⟩
        · obtain ⟨c', hc', hmem⟩ := ih hw hlt (by omega)
          exact ⟨c', hc', List.mem_cons_of_mem _ hmem⟩

theorem exists_encryptWrites_eq_ok_iff {s : State} {n : Int} {e : Nat} :
    (∃ ws, encryptWrites s n e s.msgLen.toNat 0 = .ok ws) ↔ messageWritten s := by
  constructor
  · rintro ⟨ws, hw⟩ i hi
    obtain ⟨m, hm, -⟩ := exists_mem_of_encryptWrites_ok _ hw i.zero_le (by omega)
    exact ⟨m, hm⟩
  · intro h
    obtain ⟨ws, hw, -⟩ := encryptWrites_all (s := s) (n := n) (e := e) s.msgLen.toNat 0 fun k _ hk => h k (by omega)
    exact ⟨ws, hw⟩

theorem exists_decryptWrites_eq_ok_iff {s : State} {n : Int} {d : Nat} :
    (∃ ws, decryptWrites s n d s.msgLen.toNat 0 = .ok ws) ↔ ciphertextWritten s := by
  constructor
  · rintro ⟨ws, hw⟩ i hi
    obtain ⟨c, hc, -⟩ := exists_mem_of_decryptWrites_ok _ hw i.zero_le (by omega)
    exact ⟨c, hc⟩
  · intro h
    obtain ⟨ws, hw, -⟩ := decryptWrites_all (s := s) (n := n) (e := d) s.msgLen.toNat 0 fun k _ hk => h k (by omega)
    exact ⟨ws, hw⟩

/-! ## Unwritten input (U9) -/

/-- Past its checks, a cipher command whose element loop succeeds exactly on written input, and else fails at the first unwritten
byte of lo..hi-1, faults exactly on unwritten input, at that byte. -/
theorem cipherRun_fault_of_unwritten {s : State} {key : BigReg}
    {writes : Int → Nat → Nat → Nat → Except Fault (List PendingWrite)} {len k lo hi : Nat} {n : Int} {written : Prop}
    (hc : cipherChecks s key = .ok (len, n, k)) (hok : (∃ ws, writes n k len 0 = .ok ws) ↔ written)
    (hfirst : ∀ f, writes n k len 0 = .error f → ∃ a, f = .unwrittenRead a ∧ s.mem.FirstUnwritten lo hi a) :
    ((∃ f, cipherRun s key writes = .fault f) ↔ ¬ written) ∧
      ∀ f, cipherRun s key writes = .fault f → ∃ a, f = .unwrittenRead a ∧ (lo ≤ a ∧ a < hi) ∧ s.mem.read a = none ∧
        ∀ b, lo ≤ b ∧ b < hi → b < a → (s.mem.read b).isSome := by
  simp only [cipherRun_eq_fault_iff hc]
  refine ⟨?_, fun f hf => ?_⟩
  · rw [← hok]
    cases writes n k len 0 <;> simp
  · obtain ⟨a, rfl, hlo, hhi, hnone, hbelow⟩ := hfirst f hf
    exact ⟨a, rfl, ⟨hlo, hhi⟩, hnone, fun b hb => hbelow b hb.1⟩

/-- Settles O47: each element loop succeeds exactly on written input, and else fails at its first unwritten byte. -/
theorem cipherUnwrittenInputFaults : Obligations.CipherUnwrittenInputFaults := by
  refine fun s _ hl hn => ⟨fun hk he => ?_, fun hk hd => ?_⟩
  · exact cipherRun_fault_of_unwritten (cipherChecks_pass (key := .keyE) (missingKeys_eq_zero_of_and_eq hk) hl hn he)
      exists_encryptWrites_eq_ok_iff fun f hf => by simpa only [Nat.zero_add] using encryptWrites_first _ hf
  · exact cipherRun_fault_of_unwritten (cipherChecks_pass (key := .keyD) (missingKeys_eq_zero_of_and_eq hk) hl hn hd)
      exists_decryptWrites_eq_ok_iff fun f hf => by simpa only [Nat.zero_add] using decryptWrites_first _ hf

/-! ## ENCRYPT (R231) -/

/-- With the checks passed and the message written, ENCRYPT commits its loop's writes. -/
theorem exec_encrypt {s : State} (hp : s.prog.pending = []) (hk : s.keyValid &&& 5#3 = 5#3)
    (hl : s.msgLen.toNat ≤ s.cfg.maxLen) (hn : 0 < s.x .keyN) (he : 0 ≤ s.x .keyE) (hw : messageWritten s) :
    ∃ ws, encryptWrites s (s.x .keyN) (s.x .keyE).toNat s.msgLen.toNat 0 = .ok ws ∧
      exec .encrypt s = .next (s.complete ws) := by
  obtain ⟨ws, hws⟩ := exists_encryptWrites_eq_ok_iff.2 hw
  exact ⟨ws, hws,
    cipherRun_of_writes hp (cipherChecks_pass (key := .keyE) (missingKeys_eq_zero_of_and_eq hk) hl hn he) hws⟩

/-- CT[i] after ENCRYPT's writes: a residue modulo `x[KEY_N]`, which fits an element. -/
theorem ctIs_complete_of_encryptWrites {s : State} (h : s.Inv) (hn : 0 < s.x .keyN) {e : Nat} {ws : List PendingWrite}
    (hws : encryptWrites s (s.x .keyN) e s.msgLen.toNat 0 = .ok ws) {i : Nat} {m : Byte} (hi : i < s.msgLen.toNat)
    (hm : s.msgByte i = .ok m) : ctIs (s.complete ws) i ((m.toNat : Int) ^ e % s.x .keyN) := by
  obtain ⟨m', hm', hmem⟩ := exists_mem_of_encryptWrites_ok _ hws i.zero_le (by omega)
  cases hm.symm.trans hm'
  have hct : (s.commit ws).ctWords i = .ok (enc s.cfg.nw (modPow m.toNat e (s.x .keyN))) := by
    refine commit_ctWords _ i ws s rfl (fun w hw => ?_) (.inl hmem)
    obtain ⟨k, b, -, -, hb, rfl⟩ := encryptWrites_ok _ hws w hw
    refine ⟨k, _, rfl, ?_⟩
    rintro rfl
    cases hm.symm.trans hb
    rfl
  refine ⟨_, hct, ?_⟩
  obtain ⟨hnw, -⟩ := Params.nw_pos h.cfg_wf
  rw [modPow_eq _ _ hn]
  exact sint_enc _ _ (by omega) (h.emod_fits _ .keyN hn)

/-- Settles O44: ENCRYPT commits one write per element, each to CT[0..L-1]. -/
theorem encryptResult : Obligations.EncryptResult := by
  intro s h hk hl hn he hw
  obtain ⟨ws, hws, hx⟩ := exec_encrypt h.pending_nil hk hl hn he hw
  obtain ⟨hbut, hkey, hmem⟩ := commandWritesOnlyItsTargets .encrypt s _ h hx
  refine ⟨_, hx, complete_completed s ws, fun i m hi hm => ctIs_complete_of_encryptWrites h hn hws hi hm,
    fun a ha => hmem a ?_, hbut, hkey (by decide), complete_env s ws⟩
  rintro (⟨-, hct⟩ | ⟨⟨⟩, -⟩)
  exact ha hct

/-! ## DECRYPT (R232) -/

/-- With the checks passed and the ciphertext written, DECRYPT commits its loop's writes. -/
theorem exec_decrypt {s : State} (hp : s.prog.pending = []) (hk : s.keyValid &&& 6#3 = 6#3)
    (hl : s.msgLen.toNat ≤ s.cfg.maxLen) (hn : 0 < s.x .keyN) (hd : 0 ≤ s.x .keyD) (hw : ciphertextWritten s) :
    ∃ ws, decryptWrites s (s.x .keyN) (s.x .keyD).toNat s.msgLen.toNat 0 = .ok ws ∧
      exec .decrypt s = .next (s.complete ws) := by
  obtain ⟨ws, hws⟩ := exists_decryptWrites_eq_ok_iff.2 hw
  exact ⟨ws, hws,
    cipherRun_of_writes hp (cipherChecks_pass (key := .keyD) (missingKeys_eq_zero_of_and_eq hk) hl hn hd) hws⟩

/-- MSG[i] after DECRYPT's writes. -/
theorem msgByte_complete_of_decryptWrites {s : State} {n : Int} (hn : 0 < n) {d : Nat} {ws : List PendingWrite}
    (hws : decryptWrites s n d s.msgLen.toNat 0 = .ok ws) {i : Nat} {v : Int} (hi : i < s.msgLen.toNat)
    (hv : ctIs s i v) : (s.complete ws).msgByte i = .ok (BitVec.ofInt 8 (v ^ d % n)) := by
  obtain ⟨c, hc, rfl⟩ := hv
  obtain ⟨c', hc', hmem⟩ := exists_mem_of_decryptWrites_ok _ hws i.zero_le (by omega)
  cases hc.symm.trans hc'
  rw [← modPow_eq _ _ hn]
  refine commit_msgByte _ i ws s (fun w hw => ?_) (.inl hmem)
  obtain ⟨k, b, -, -, hb, rfl⟩ := decryptWrites_ok _ hws w hw
  refine ⟨k, _, rfl, ?_⟩
  rintro rfl
  cases hc.symm.trans hb
  rfl

theorem toNat_ofInt_byte (v : Int) : ((BitVec.ofInt 8 v).toNat : Int) = v % 256 := by
  rw [BitVec.toNat_ofInt]
  omega

/-- Settles O45: DECRYPT commits one write per element, each to MSG[0..L-1]. -/
theorem decryptResult : Obligations.DecryptResult := by
  intro s h hk hl hn hd hw
  obtain ⟨ws, hws, hx⟩ := exec_decrypt h.pending_nil hk hl hn hd hw
  obtain ⟨hbut, hkey, hmem⟩ := commandWritesOnlyItsTargets .decrypt s _ h hx
  refine ⟨_, hx, complete_completed s ws,
    fun i c hi hc => ⟨_, msgByte_complete_of_decryptWrites hn hws hi hc, toNat_ofInt_byte _⟩,
    fun a ha => hmem a ?_, hbut, hkey (by decide), complete_env s ws⟩
  rintro (⟨⟨⟩, -⟩ | ⟨-, hmsg⟩)
  exact ha hmsg

/-! ## The round trip (R233) -/

theorem SameBut.x_eq {rs : List BigReg} {s t : State} (h : SameBut rs s t) {r : BigReg} (hr : r ∉ rs) : t.x r = s.x r :=
  congrArg sint (h.1 r hr)

/-- `rsa_round_trip` on the key registers' values, which are nonnegative integers. -/
theorem key_round_trip {p q lam : Nat} {n e d : Int} (hp : p.Prime) (hq : q.Prime) (hne : p ≠ q) (hn : n = p * q)
    (he : 0 ≤ e) (hd : 0 ≤ d) (hl : (p - 1).lcm (q - 1) ∣ lam) (hed : e * d % lam = 1 % lam) {m : Int} (h0 : 0 ≤ m)
    (hm : m < n) : (m ^ e.toNat % n) ^ d.toNat % n = m := by
  subst hn
  lift e to Nat using he
  lift d to Nat using hd
  exact rsa_round_trip hp hq hne hl (by exact_mod_cast hed) m h0 hm

/-- Settles O48: ENCRYPT leaves the powers in CT and the key as it was, and DECRYPT's power of each gives the byte back. -/
theorem cipherRoundTrip : Obligations.CipherRoundTrip := by
  intro s p q lam h hk hl hw hp hq hne hN he hd hlcm hed hlt
  have hn : 0 < s.x .keyN := by
    rw [hN]
    exact mul_pos (by exact_mod_cast hp.pos) (by exact_mod_cast hq.pos)
  obtain ⟨t, hx, -, hct, -, hbut, hkey, -⟩ := encryptResult s h (by rw [hk]; decide) hl hn he hw
  refine ⟨t, hx, fun done err wwb env => ?_⟩
  intro t'
  have hxN : t'.x .keyN = s.x .keyN := hbut.x_eq (by simp)
  have hxD : t'.x .keyD = s.x .keyD := hbut.x_eq (by simp)
  obtain ⟨-, hcfg, -, -, -, -, -, hlen, -, -⟩ := hbut
  have hcfg' : t'.cfg = s.cfg := hcfg
  have hlen' : t'.msgLen = s.msgLen := hlen
  have hct' : ∀ {i m}, i < t'.msgLen.toNat → s.msgByte i = .ok m →
      ctIs t' i ((m.toNat : Int) ^ (s.x .keyE).toNat % s.x .keyN) := fun {i m} hi hm => hct i m (hlen ▸ hi) hm
  have hctw : ciphertextWritten t' := fun i hi => by
    obtain ⟨m, hm⟩ := hw i (hlen ▸ hi)
    obtain ⟨c, hc, -⟩ := hct' hi hm
    exact ⟨c, hc⟩
  obtain ⟨ws, hws, hx'⟩ := exec_decrypt (s := t') rfl (by rw [show t'.keyValid = 7#3 from hkey.trans hk]; decide)
    (by rw [hlen', hcfg']; exact hl) (hxN ▸ hn) (hxD ▸ hd) hctw
  refine ⟨_, hx', complete_completed t' ws, fun i hi => ?_⟩
  obtain ⟨m, hm⟩ := hw i hi
  rw [← hlen'] at hi
  rw [msgByte_complete_of_decryptWrites (hxN ▸ hn) hws hi (hct' hi hm), hxN, hxD,
    key_round_trip hp hq hne hN he hd hlcm hed (by omega) (hlt i m (hlen' ▸ hi) hm), BitVec.ofInt_natCast,
    BitVec.ofNat_toNat, BitVec.setWidth_eq, hm]

end Sys2Proof.Machine

/-!
PROOFS. Exceptions and interrupts (spec/60_exceptions.md): the turn of an Idle engine, and the interrupt output.
-/
namespace Sys2Proof.Machine

/-! ## The Idle engine (R270) -/

theorem engineStep_of_idle {s : State} (hi : s.eng = .idle) : engineStep s = .next s := by
  rw [engineStep, hi]

/-- Settles O5: a turn that no event asks for, and one that is listed, both come to `engineStep` on an Idle engine. -/
theorem idleEngineDoesNothing : Obligations.IdleEngineDoesNothing := fun s hi =>
  ⟨fun hev => (step_of_no_event hev).trans (engineStep_of_idle hi),
    fun es hev => (step_of_engine_event hev).trans (engineStep_of_idle (s := s.withEvents es) hi)⟩

/-! ## The interrupt output (R259, R260) -/

theorem State.irq_of_done {s : State} (hd : s.done = true) : s.irq = s.irqEn := by
  rw [State.irq, hd, Bool.and_true]

theorem State.irq_of_not_done {s : State} (hd : s.done = false) : s.irq = false := by
  rw [State.irq, hd, Bool.and_false]

/-- No command writes IRQ_EN, however its step ends (R114). -/
theorem exec_irqEn {i : Instr} {s t : State} (hx : exec i s = .next t) : t.irqEn = s.irqEn := by
  obtain ⟨e, ans, rfl, -, -⟩ := exec_next hx
  cases ans with
  | ret ws =>
    obtain ⟨-, hirq, -⟩ := commit_fields ((s.withEnv e).prog.pending ++ ws) (s.withEnv e)
    exact hirq
  | raise k info => rfl
  | again phase rej => rfl

/-- A store to STATUS takes effect whether the engine is Busy or Idle (R131, R137). -/
theorem State.store_status (s : State) (v : Word) : s.store 0x00000C v = s.ackStatus v := by
  cases he : s.eng with
  | idle => exact State.store_of_idle he _ v
  | busy cmd p => exact State.store_status_of_busy (s.busy_iff.2 ⟨cmd, p, he⟩) rfl v

/-- Settles O22: every completion sets DONE and leaves IRQ_EN; a store to STATUS bit 1, an issue and a reset clear DONE. -/
theorem interruptOutput : Obligations.InterruptOutput := by
  refine ⟨fun s => Bool.and_eq_true_iff, fun i s t hx ht => ?_, fun s why => ?_, fun s v hi => ?_, fun s v hv => ?_,
    fun s v hi => ?_, fun s => State.irq_of_not_done s.hardReset_done⟩
  · obtain ⟨-, hdone⟩ := exec_idle_done hx (t.not_busy_iff.2 ht)
    exact (State.irq_of_done hdone).trans (exec_irqEn hx)
  · cases why <;> exact State.irq_of_done rfl
  · rw [State.store_of_idle hi]
    exact ⟨rfl, rfl⟩
  · rw [State.store_status]
    exact State.irq_of_not_done (by simp [hv])
  · rw [State.store_cmd hi]
    exact State.irq_of_not_done (s.issue_done v)

end Sys2Proof.Machine

/-!
PROOFS. Reset and hazards (spec/70_reset_and_hazards.md): the state after a reset, the reset of a Busy block, and the exponent
search that cannot end.
-/
namespace Sys2Proof.Machine

/-! ## The state after a reset (R281, R283) -/

theorem resetOf_x (p : Params) (e : Env) (r : BigReg) : (State.resetOf p e).x r = 0 := by
  rw [State.x, State.big, State.resetOf, BigRegs.get_zero, sint_replicate_zero]

/-- No byte of MSG or CT is marked written after a reset (R283). -/
theorem resetOf_mem_read (p : Params) (e : Env) (a : Nat) : (State.resetOf p e).mem.read a = none := rfl

theorem resetOf_ctrlWord (p : Params) (e : Env) : (State.resetOf p e).ctrlWord = 0#32 := by
  rw [State.ctrlWord_eq]
  rfl

theorem resetOf_statusWord (p : Params) (e : Env) : (State.resetOf p e).statusWord = 0#32 := by
  rw [State.statusWord_eq]
  rfl

theorem paramWord_eq {p : Params} (h : p.wf = true) : paramWord p = BitVec.ofNat 32 (p.maxLen * 65536 + p.nw) := by
  have hw : (paramWord p).toNat = p.maxLen * 65536 + p.nw := paramWord_toNat h
  rw [← hw, BitVec.ofNat_toNat, BitVec.setWidth_eq]

/-- Settles O20: PARAM's two halves hold MAXLEN and NW in a legal build, and every other field is the value written for reset. -/
theorem resetValues : Obligations.ResetValues := by
  intro p e hp s
  have hparam : s.readLoc (locate p 0x000004) = .ok (BitVec.ofNat 32 (p.maxLen * 65536 + p.nw)) :=
    congrArg Except.ok (paramWord_eq hp)
  exact ⟨rfl, hparam, resetOf_ctrlWord p e, resetOf_statusWord p e, rfl, rfl, rfl, rfl, rfl, rfl, resetOf_x p e, rfl,
    State.irq_of_not_done rfl, resetOf_mem_read p e⟩

/-! ## A reset at any time (R280, R284) -/

theorem step_of_reset_event {s : State} {es : List Event} (hev : s.env.events = .reset :: es) :
    step s = .next (s.withEvents es).hardReset := by
  rw [step, hev]

/-- Settles O21: the reset step does not look at the engine, and its result is the state after reset of the same build. -/
theorem hardResetAbandonsCommand : Obligations.HardResetAbandonsCommand := by
  intro s es hev
  exact ⟨_, step_of_reset_event hev, rfl, rfl, rfl, rfl, State.irq_of_not_done rfl, rfl, rfl, rfl, rfl, rfl, rfl, rfl, rfl,
    resetOf_x _ _, resetOf_mem_read _ _, rfl, rfl⟩

/-! ## The exponent search that cannot end (R213, R290, U24) -/

/-- Only the draws 0 and 1 give an exponent below 780: 3 divides 780, and 658 shares the factor 2 with it. -/
theorem noExponent_780 : NoExponent 780 := by
  intro k _
  match k with
  | 0 => exact .inr (by decide)
  | 1 => exact .inr (by decide)
  | k + 2 => exact .inl (by omega)

/-- An Idle engine reads as at the start of a command (log 8). -/
theorem State.busy_of_phase_ne_start {s : State} (h : s.prog.phase ≠ .start) : ∃ cmd p, s.eng = .busy cmd p := by
  cases he : s.eng with
  | idle => exact absurd (by rw [State.prog, he, Prog.start]) h
  | busy cmd p => exact ⟨cmd, p, rfl⟩

/-- A property that lets every step happen and survives it holds after any number of steps. -/
theorem run_of_step_keeps {P : State → Prop} (hstep : ∀ s, P s → ∃ t, step s = .next t ∧ P t) (k : Nat) :
    ∀ s, P s → ∃ t, Host.Core.run core k s = .next t ∧ P t := by
  induction k with
  | zero => exact fun s h => ⟨s, run_zero s, h⟩
  | succ k ih =>
    intro s h
    obtain ⟨u, hu, hP⟩ := hstep s h
    rw [run_next hu]
    exact ih u hP

/-- KEYGEN searches for an exponent with no cap on its rejections, and the engine is the only one to move. -/
structure UncappedExponentSearch (n lam : Int) (s : State) : Prop where
  inv : s.Inv
  no_event : s.env.events = []
  phase : s.prog.phase = .keygenE n lam
  no_cap : s.iterCap = 0#32

namespace UncappedExponentSearch

variable {s : State} {n lam : Int}

theorem eng (h : UncappedExponentSearch n lam s) : ∃ cmd p, s.eng = .busy cmd p :=
  State.busy_of_phase_ne_start (by simp [h.phase])

theorem busy (h : UncappedExponentSearch n lam s) : s.busy = true := s.busy_iff.2 h.eng

/-- Only KEYGEN searches for an exponent (R212). -/
theorem step_eq_exec (h : UncappedExponentSearch n lam s) : step s = exec .keygen s := by
  obtain ⟨cmd, p, he⟩ := h.eng
  have hphase : phaseOk s s.runCmd (.keygenE n lam) := h.phase ▸ h.inv.phaseOk
  obtain ⟨hdec, -⟩ := hphase
  rw [State.runCmd_of_busy he] at hdec
  exact (step_of_no_event h.no_event).trans (engineStep_of_decode_ok he hdec)

/-- Where no exponent is acceptable, a step is one more rejection, which no cap turns into an error (R190, R211). -/
theorem step_keeps (h : UncappedExponentSearch n lam s) (hno : NoExponent lam) :
    ∃ t, step s = .next t ∧ UncappedExponentSearch n lam t := by
  obtain ⟨t, hx, -, -, hgo⟩ := keygenExponentRejected s n lam h.inv h.phase (hno _ (drawPercent_range s.env))
  have hs : step s = .next t := h.step_eq_exec.trans hx
  obtain ⟨⟨-, -, -, -, -, hbut, -⟩, hprog⟩ := hgo fun hcap => hcap.1 h.no_cap
  obtain ⟨-, -, -, -, -, -, hcap, -, hev, -⟩ := hbut
  exact ⟨t, hs, stepKeepsInvariant s t h.inv hs, hev.trans h.no_event, by rw [hprog], hcap.trans h.no_cap⟩

end UncappedExponentSearch

/-- Settles O42: every step of the uncapped search is a rejection, so the search is never left. -/
theorem keygenStuckWithoutExponent : Obligations.KeygenStuckWithoutExponent := by
  refine ⟨fun lam => noExponent_of_le, noExponent_780, fun s n lam h hev hph hno hcap k => ?_⟩
  obtain ⟨t, ht, hsearch⟩ := run_of_step_keeps (fun s hs => UncappedExponentSearch.step_keeps hs hno) k s ⟨h, hev, hph, hcap⟩
  exact ⟨t, ht, hsearch.busy, hsearch.phase⟩

end Sys2Proof.Machine
